-- ==== Sys2Proof/Word.lean ====
section
/-! DEFINITION. The words of the three streams and the fixed field widths that the spec names (`00_scope.md` R8, R10). -/

namespace Sys2Proof

/-- One word of the `CMD`, `RSP` or `OBS` stream: 32 bits, bit 31 the most significant (R8, R10). -/
abbrev Word := BitVec 32

/-- An opcode, a sub-field `a`, or a character code (R66, R71). -/
abbrev Byte := BitVec 8

/-- The count or immediate field `n` of a header, and a tick count (R66, R69). -/
abbrev Half := BitVec 16

/-- The bits of a `UQ20.8` magnitude: 20 integer and 8 fractional bits (R8, R11). -/
abbrev UQ := BitVec 28

end Sys2Proof
end

