-- ==== Sys2Proof/Machine/Bits.lean ====
section
/-! DEFINITION. Lists of bits and words: the bit order of `20_memory.md` R56 and the packing of `30_encoding.md` R73. -/

namespace Sys2Proof.Machine

/-- The number whose binary digits are `bits`, the first the most significant (R56). -/
def bitsToNat (bits : List Bool) : Nat := bits.foldl (fun acc b => 2 * acc + b.toNat) 0

/-- The bits of a group or word, most significant first (R56, R105). -/
def bitsOf {w : Nat} (g : BitVec w) : List Bool := (List.range w).map g.getMsbD

/-- The group of width `w` whose bit list is `bits`, element 0 the most significant bit (R56, R103). -/
def groupOf (w : Nat) (bits : List Bool) : BitVec w := BitVec.ofNat w (bitsToNat bits)

/-- `ceil(n / 32)`, the number of words that carry `n` bits (R73). -/
def packedWords (n : Nat) : Nat := (n + 31) / 32

/-- Element `k` of a packed bit list: bit `31 - (k mod 32)` of word `floor(k / 32)` (R56). -/
def packedBit (ws : List Word) (k : Nat) : Bool := (ws.getD (k / 32) 0).getMsbD (k % 32)

/-- The `n` bits carried by packed words (R73). -/
def unpackBits (n : Nat) (ws : List Word) : List Bool := (List.range n).map (packedBit ws)

/-- The unused low bits of the final word are 0 (R73). -/
def spareBitsZero (n : Nat) (ws : List Word) : Bool :=
  (List.range (32 * ws.length - n)).all fun i => !packedBit ws (n + i)

/-- Word `j` of a packed bit list; positions past the end of the list are 0 (R56, R73). -/
def packedWord (bits : List Bool) (j : Nat) : Word :=
  groupOf 32 ((List.range 32).map fun i => bits.getD (32 * j + i) false)

/-- The packed words of a bit list (R73). -/
def packBits (bits : List Bool) : List Word :=
  (List.range (packedWords bits.length)).map (packedWord bits)

end Sys2Proof.Machine
end

