-- ==== Sys2Proof/Config.lean ====
section
/-! DEFINITION. What an implementation fixes: the OPEN capacities of `00_scope.md` R9, the parameter `IRIS_DECODE` of
`93_implementation_defined.md` U2, and the one value the spec leaves unstated. -/

namespace Sys2Proof

/-- `IRIS_DECODE` (`93_implementation_defined.md` U2): what DECODE does with an Iris-Oyama array. -/
inductive IrisDecode
  /-- The result has no frames and no error is raised (R194, decision D34). -/
  | noFrames
  /-- `NotImplementedError` is raised, as for Sony. -/
  | notImplemented
  deriving DecidableEq, Repr

/-- The parameters "the model takes as an argument" (R9, U2, U15). A capacity `none` is unbounded.
The machine holds one `Config` in its state and never changes it, so that a statement about every state is a
statement about every choice of parameters. DESIGN CHOICE, safe: log entry 4. -/
structure Config where
  /-- Tokens in each of SPEC.LEADER, SPEC.BIT1, SPEC.BIT0 and in each repeat header. -/
  maxTokens : Option Nat
  /-- Entries of SPEC.RPT. -/
  maxRpt : Option Nat
  /-- Frames in FRAMES. -/
  maxFrames : Option Nat
  /-- Entries in one frame. -/
  maxEntries : Option Nat
  /-- Bits in HIST. -/
  maxHist : Option Nat
  /-- Elements of a CLASSIFY or DECODE tick array. -/
  maxDecTicks : Option Nat
  /-- The parameter `IRIS_DECODE`. -/
  irisDecode : IrisDecode
  deriving DecidableEq, Repr

/-- The word that `Emit` puts on `RSP` for a number of 2^32 or more, which fits no word: the spec states none.
A free value, nothing is known of it. DESIGN CHOICE, safe: log entry 7. -/
opaque Config.unstatedWord : Nat → Word

end Sys2Proof
end

