-- ==== Sys2Proof/Machine/Params.lean ====
section
/-! DEFINITION. The constants of `00_scope.md` R7 and the default parameters of R9. -/

namespace Sys2Proof.Machine

/-- `TICK_MAX` (R7): the cap on every element of a flat tick array. -/
def tickMax : Nat := 65535

/-- `CARRIER_KHZ` (R7): "a fixed constant, not derived". -/
def carrierKhz : Nat := 38

/-- `T_SCAN_MIN` (R7), in microseconds. -/
def scanMin : Nat := 300

/-- `T_SCAN_STEP` (R7), in microseconds. -/
def scanStep : Nat := 5

/-- How many candidates the classifier scans: 300 to 795 by 5, both ends included (R7, R183). -/
def scanCount : Nat := 100

/-- `NEC_FRAME_US` (R7). -/
def necFrameUs : Nat := 108000

/-- `MAX_RSP_WORDS` (R9): fixed by the 16-bit count field of a response header. -/
def maxRspWords : Nat := 65535

/-- The suggested defaults of R9, and `IRIS_DECODE = no_frames` (D34). DESIGN CHOICE: log entries 4 and 5. -/
def defaultConfig : Config :=
  { maxTokens := some 16
    maxRpt := some 4
    maxFrames := some 16
    maxEntries := some 1024
    maxHist := some 4096
    maxDecTicks := some 4096
    irisDecode := .noFrames }

/-- A length is within a capacity; `none` is unbounded (R9). -/
def fits (cap : Option Nat) (len : Nat) : Bool :=
  match cap with
  | none => true
  | some m => decide (len ≤ m)

end Sys2Proof.Machine
end

