-- ==== Sys2Proof/Syntax.lean ====
section
/-! DEFINITION. The command set: packets, operand fields, the 31 opcodes of `30_encoding.md` R76 and the 39 commands of
`spec/opcode_table.json` (opcodes split by source shape and by group width). -/

namespace Sys2Proof

/-- A command or response packet: a non-empty sequence of words, header first (R51, R52, R65, R74).
The transport's `last` marker is the end of `tail`. -/
structure Packet where
  head : Word
  tail : List Word
  deriving DecidableEq, Repr

/-- The fields of a token word (R67). Every bit is kept, so the malformed code points `kind = 3` and `pol = 3`
reach the command that must raise `MalformedInputError` on them (R121, R145). -/
structure TokenField where
  kind : BitVec 2
  pol : BitVec 2
  mag : UQ
  deriving DecidableEq, Repr

/-- A bit-like word (R72), one constructor a tag. The ignored payload of `other` is kept. -/
inductive BitLike
  /-- Tag `BOOL`: `false` or `true`. -/
  | bool (b : Bool)
  /-- Tag `INT`: an integer 0 to 255. -/
  | int (v : Byte)
  /-- Tag `CHAR`: the code of a one-character string. -/
  | char (c : Byte)
  /-- Tag `OTHER`: any other kind of value. -/
  | other (payload : Byte)
  deriving DecidableEq, Repr

/-- The 31 opcodes of R76. -/
inductive Opcode
  | rdStatus | obsCtrl | rdHist
  | bitFrom | g4From | g8From | toBits | reverse | flip | pack
  | specClear | specT | specFrame | specStop | specLeader | specBit1 | specBit0 | specRpt
  | begin | appendTime | appendBit | appendBits | appendG4 | appendG8
  | terminate | beginRepeat | appendRepeats | toTicks | toWire
  | classify | decode
  deriving DecidableEq, Repr

/-- The commands, one constructor per row of `spec/opcode_table.json`. A constructor carries the operands with their
fields already extracted; the count field `n` of a header is the length of the list it counts. -/
inductive Instr
  /-- RD_STATUS (R210). -/
  | rdStatus
  /-- OBS_CTRL (R130): the enable bit. -/
  | obsCtrl (en : Bool)
  /-- RD_HIST (R160). -/
  | rdHist
  /-- BIT_FROM (R101). -/
  | bitFrom (value : BitLike)
  /-- G4_FROM of an integer (R103). -/
  | g4FromInt (value : Word)
  /-- G4_FROM of a string (R103): the character codes. -/
  | g4FromStr (chars : List Byte)
  /-- G4_FROM of an array (R103). -/
  | g4FromArr (elems : List BitLike)
  /-- G8_FROM of an integer (R104). -/
  | g8FromInt (value : Word)
  /-- G8_FROM of a string (R104). -/
  | g8FromStr (chars : List Byte)
  /-- G8_FROM of an array (R104). -/
  | g8FromArr (elems : List BitLike)
  /-- TO_BITS at width 4 (R105). -/
  | toBits4 (g : BitVec 4)
  /-- TO_BITS at width 8 (R105). -/
  | toBits8 (g : BitVec 8)
  /-- REVERSE at width 4 (R106). -/
  | reverse4 (g : BitVec 4)
  /-- REVERSE at width 8 (R106). -/
  | reverse8 (g : BitVec 8)
  /-- FLIP at width 4 (R107). -/
  | flip4 (g : BitVec 4)
  /-- FLIP at width 8 (R107). -/
  | flip8 (g : BitVec 8)
  /-- PACK at width 4 (R108). -/
  | pack4 (bits : List Bool)
  /-- PACK at width 8 (R108). -/
  | pack8 (bits : List Bool)
  /-- SPEC_CLEAR (R122). -/
  | specClear
  /-- SPEC_T (R123). -/
  | specT (value : UQ)
  /-- SPEC_FRAME (R124). -/
  | specFrame (value : UQ)
  /-- SPEC_STOP (R125): no token or one. -/
  | specStop (tok : Option TokenField)
  /-- SPEC_LEADER (R126). -/
  | specLeader (toks : List TokenField)
  /-- SPEC_BIT1 (R127). -/
  | specBit1 (toks : List TokenField)
  /-- SPEC_BIT0 (R128). -/
  | specBit0 (toks : List TokenField)
  /-- SPEC_RPT (R129): a repeat header and its target duration. -/
  | specRpt (header : List TokenField) (target : UQ)
  /-- BEGIN (R141). -/
  | begin
  /-- APPEND_TIME (R145). -/
  | appendTime (toks : List TokenField)
  /-- APPEND_BIT (R147). -/
  | appendBit (b : Bool)
  /-- APPEND_BITS (R148). -/
  | appendBits (bits : List Bool)
  /-- APPEND_G4 (R149). -/
  | appendG4 (g : BitVec 4)
  /-- APPEND_G8 (R150). -/
  | appendG8 (g : BitVec 8)
  /-- TERMINATE (R153). -/
  | terminate
  /-- BEGIN_REPEAT (R156). -/
  | beginRepeat
  /-- APPEND_REPEATS (R157): the count. -/
  | appendRepeats (count : Half)
  /-- TO_TICKS (R170). -/
  | toTicks
  /-- TO_WIRE (R174). -/
  | toWire
  /-- CLASSIFY (R181): the tick array. -/
  | classify (ticks : List Half)
  /-- DECODE (R195): the tick array. -/
  | decode (ticks : List Half)
  deriving DecidableEq, Repr

/-- The opcode whose header byte a command carries. -/
def Instr.opcode : Instr → Opcode
  | .rdStatus => .rdStatus
  | .obsCtrl _ => .obsCtrl
  | .rdHist => .rdHist
  | .bitFrom _ => .bitFrom
  | .g4FromInt _ => .g4From
  | .g4FromStr _ => .g4From
  | .g4FromArr _ => .g4From
  | .g8FromInt _ => .g8From
  | .g8FromStr _ => .g8From
  | .g8FromArr _ => .g8From
  | .toBits4 _ => .toBits
  | .toBits8 _ => .toBits
  | .reverse4 _ => .reverse
  | .reverse8 _ => .reverse
  | .flip4 _ => .flip
  | .flip8 _ => .flip
  | .pack4 _ => .pack
  | .pack8 _ => .pack
  | .specClear => .specClear
  | .specT _ => .specT
  | .specFrame _ => .specFrame
  | .specStop _ => .specStop
  | .specLeader _ => .specLeader
  | .specBit1 _ => .specBit1
  | .specBit0 _ => .specBit0
  | .specRpt _ _ => .specRpt
  | .begin => .begin
  | .appendTime _ => .appendTime
  | .appendBit _ => .appendBit
  | .appendBits _ => .appendBits
  | .appendG4 _ => .appendG4
  | .appendG8 _ => .appendG8
  | .terminate => .terminate
  | .beginRepeat => .beginRepeat
  | .appendRepeats _ => .appendRepeats
  | .toTicks => .toTicks
  | .toWire => .toWire
  | .classify _ => .classify
  | .decode _ => .decode

end Sys2Proof
end

