-- ==== Sys2Proof/Machine/State.lean ====
section
/-! DEFINITION. The state of IRPC (`10_state.md` R20 to R33), its three streams and its reset input (`20_memory.md` R50 to
R53), the error causes (`60_exceptions.md` R220), and the state after reset. -/

namespace Sys2Proof.Machine

/-- The kind of a token (R23). -/
inductive TokenKind
  /-- Microseconds. -/
  | us
  /-- A multiple of the base unit T. -/
  | multT
  /-- Exact ticks. -/
  | ticks
  deriving DecidableEq, Repr

/-- Polarity (R16): `high` is a pulse, `low` a space. -/
inductive Level
  | high
  | low
  deriving DecidableEq, Repr

/-- A well-formed TimeToken `(kind, mag, pol)` (R23); `pol = none` is a token without a polarity tag.
The magnitude is kept as its 28 bits and read as a rational by `uqVal`. -/
structure Token where
  kind : TokenKind
  mag : UQ
  pol : Option Level
  deriving DecidableEq, Repr

/-- One entry of SPEC.RPT: a repeat header and its target duration (R23). -/
structure RepeatEntry where
  header : List Token
  target : UQ
  deriving DecidableEq, Repr

/-- A ProtocolTimingSpec (R23). -/
structure Spec where
  /-- Base unit T, microseconds. -/
  t : UQ
  leader : List Token
  bit1 : List Token
  bit0 : List Token
  stop : Option Token
  /-- Target frame duration, microseconds; 0 is no padding. -/
  frame : UQ
  rpt : List RepeatEntry
  deriving DecidableEq, Repr

/-- A frame entry (R25): a duration in microseconds or in ticks. -/
inductive Entry
  | us (q : Rat)
  | tk (q : Rat)
  deriving DecidableEq, Repr

/-- A frame (R25). Polarity is not stored: it is the parity of the index (R26). -/
structure Frame where
  entries : List Entry
  closed : Bool
  deriving DecidableEq, Repr

/-- `LASTERR`: code and opcode of the most recent error (R30). -/
structure LastErr where
  code : BitVec 4
  opcode : Byte
  deriving DecidableEq, Repr

/-- The errors a command can raise (R220). -/
inductive ErrCode
  /-- Code 1 (R221). -/
  | malformedInput
  /-- Code 2 (R222). -/
  | frameClosed
  /-- Code 3 (R223). -/
  | noRepeatConfigured
  /-- Code 4 (R224). -/
  | unknownProtocol
  /-- Code 5 (R230). -/
  | notImplemented
  /-- Code 6 (R225). -/
  | illegalCommand
  /-- Code 7 (R226). -/
  | capacity
  deriving DecidableEq, Repr

/-- The whole state: what R20 lists, the three streams as lists (R51 to R53), the `reset` input (R50, R240), and the
parameters the machine was built with (R9). -/
structure State where
  /-- The parameters, fixed for the machine (R9). -/
  cfg : Config
  /-- The `reset` input is asserted (R50, R240). -/
  resetPin : Bool
  /-- `CMD`: the packets the host has presented and the block has not consumed, next first (R51). -/
  cmd : List Packet
  /-- `SPEC`, the staging spec (R23). -/
  spec : Spec
  /-- `ASPEC`, the active spec (R24). -/
  aspec : Spec
  /-- `FRAMES`; the current frame is the last (R25). -/
  frames : List Frame
  /-- `HIST`, the accumulated bit history, oldest first (R27). -/
  hist : List Bool
  /-- `RPTIDX` (R28). -/
  rptIdx : Half
  /-- `CTRL.OBS` (R29). -/
  ctrlObs : Bool
  /-- `STATUS.ERR`: bit `c` for error code `c` (R30). -/
  statusErr : BitVec 8
  /-- `STATUS.DIAG`: bit 0 `PADDED`, bit 1 `ZERODROP`, bit 2 `OVERLEN` (R30). -/
  statusDiag : BitVec 3
  /-- `LASTERR` (R30). -/
  lastErr : LastErr
  /-- `RSP`: the response packets appended so far (R52). -/
  rsp : List Packet
  /-- `OBS`: the observer words appended so far (R53). -/
  obs : List Word
  deriving DecidableEq, Repr

/-- A command under way: the state it is building, the diagnostics it has recorded (`Diag`, R17) and the payload it has
emitted (`Emit`, R17). Nothing of it survives a `raise` (R18). -/
structure Work where
  state : State
  diag : BitVec 3
  payload : List Word
  deriving DecidableEq, Repr

/-- Why the machine stops with a fault. No constructor: every command has one defined response and one defined next state
(`93_implementation_defined.md`), an error included (R228), so nothing of this block is a fault of the machine. Safe. -/
inductive Fault
  deriving DecidableEq, Repr

/-- Why the model gives no meaning. -/
inductive Refusal
  /-- Raised by an arm of `exec` for an instruction without a meaning; no arm does. Safe. -/
  | notModelled (mnemonic : String)
  deriving DecidableEq, Repr

/-- The empty spec (R33). -/
def emptySpec : Spec :=
  { t := 0, leader := [], bit1 := [], bit0 := [], stop := none, frame := 0, rpt := [] }

/-- The reset values of R33, of a machine built with the parameters `c`: `RSP` and `OBS` empty, nothing on `CMD`. -/
def resetWith (c : Config) : State :=
  { cfg := c
    resetPin := false
    cmd := []
    spec := emptySpec
    aspec := emptySpec
    frames := []
    hist := []
    rptIdx := 0
    ctrlObs := false
    statusErr := 0
    statusDiag := 0
    lastErr := { code := 0, opcode := 0 }
    rsp := []
    obs := [] }

/-- The machine right after reset (R33, R240), with the default parameters of R9 (log entry 4). -/
def State.reset : State := resetWith defaultConfig

end Sys2Proof.Machine
end

