-- ==== Sys2Proof/Machine/Operands.lean ====
section
/-! DEFINITION. Operand forms: tokens (`30_encoding.md` R67, R79), bit-like values and group sources (`40_bitgroup.md` R101 to
R104), and the payload formats of R75. -/

namespace Sys2Proof.Machine

/-- The kind of a token word; code 3 is malformed (R67). -/
def parseKind (k : BitVec 2) : Option TokenKind :=
  if k = 0 then some .us else if k = 1 then some .multT else if k = 2 then some .ticks else none

/-- The polarity of a token word; code 3 is malformed, code 0 is no polarity tag (R67). -/
def parsePol (p : BitVec 2) : Option (Option Level) :=
  if p = 0 then some none else if p = 1 then some (some .high) else if p = 2 then some (some .low) else none

/-- `token(P[k])`: a token word's fields as a well-formed token, or `MalformedInputError` (R79 (1), R121). -/
def parseToken (f : TokenField) : Except ErrCode Token :=
  match parseKind f.kind, parsePol f.pol with
  | some k, some p => .ok { kind := k, mag := f.mag, pol := p }
  | _, _ => .error .malformedInput

/-- All token words of a packet, checked before any is used (R121). -/
def parseTokens : List TokenField → Except ErrCode (List Token)
  | [] => .ok []
  | f :: fs =>
    match parseToken f with
    | .error e => .error e
    | .ok t =>
      match parseTokens fs with
      | .error e => .error e
      | .ok ts => .ok (t :: ts)

/-- The optional token word of SPEC_STOP (R125). -/
def parseOptToken : Option TokenField → Except ErrCode (Option Token)
  | none => .ok none
  | some f => (parseToken f).map some

/-- The character code of `"0"` (R71, from general knowledge: log entry 13). -/
def charZero : Byte := 0x30

/-- The character code of `"1"` (R71, from general knowledge: log entry 13). -/
def charOne : Byte := 0x31

/-- `bit_from(value)` (R101): `"1"`, `1` and `true` are 1, anything else is 0. -/
def bitFrom : BitLike → Bool
  | .bool b => b
  | .int v => v == 1
  | .char c => c == charOne
  | .other _ => false

/-- The bits of a binary string; a character other than `"0"` and `"1"` is malformed (R102, R103). -/
def binaryString : List Byte → Except ErrCode (List Bool)
  | [] => .ok []
  | c :: cs =>
    if c = charZero ∨ c = charOne then (binaryString cs).map fun bs => (c == charOne) :: bs
    else .error .malformedInput

/-- A group of width `w` from an integer: the excess high bits are discarded (R103, R104). -/
def groupFromInt (w : Nat) (v : Word) : BitVec w := v.setWidth w

/-- A group of width `w` from a binary string of `w` characters, the first the most significant bit (R103). -/
def groupFromBinary (w : Nat) (chars : List Byte) : Except ErrCode (BitVec w) :=
  if chars.length = w then (binaryString chars).map (groupOf w) else .error .malformedInput

/-- A group of width `w` from an array of `w` bit-like values, element 0 the most significant bit (R103). -/
def groupFromArray (w : Nat) (elems : List BitLike) : Except ErrCode (BitVec w) :=
  if elems.length = w then .ok (groupOf w (elems.map bitFrom)) else .error .malformedInput

/-- An 8-bit group from a string: one character is its code, eight are a binary string (R104). -/
def group8FromString (chars : List Byte) : Except ErrCode (BitVec 8) :=
  match chars with
  | [c] => .ok c
  | cs => groupFromBinary 8 cs

/-- The group word of a group (R75). -/
def groupWord {w : Nat} (g : BitVec w) : Word := g.setWidth 32

/-- The bit word of a bit (R75). -/
def bitWord (b : Bool) : Word := if b then 1 else 0

end Sys2Proof.Machine
end

