-- ==== Sys2Proof/WellFormed.lean ====
section
/-! DEFINITION. Which commands have an encoding: every list that a header counts fits the 16-bit count field `n`
(`30_encoding.md` R66, R76). Every other operand's range is its type's. -/

namespace Sys2Proof

/-- The count of a list fits the field `n` (R66). -/
def countFits (len : Nat) : Bool := decide (len < 65536)

/-- The command has an encoding (R65, R66, R77). -/
def wellFormed : Instr → Bool
  | .rdStatus => true
  | .obsCtrl _ => true
  | .rdHist => true
  | .bitFrom _ => true
  | .g4FromInt _ => true
  | .g4FromStr chars => countFits chars.length
  | .g4FromArr elems => countFits elems.length
  | .g8FromInt _ => true
  | .g8FromStr chars => countFits chars.length
  | .g8FromArr elems => countFits elems.length
  | .toBits4 _ => true
  | .toBits8 _ => true
  | .reverse4 _ => true
  | .reverse8 _ => true
  | .flip4 _ => true
  | .flip8 _ => true
  | .pack4 bits => countFits bits.length
  | .pack8 bits => countFits bits.length
  | .specClear => true
  | .specT _ => true
  | .specFrame _ => true
  | .specStop _ => true
  | .specLeader toks => countFits toks.length
  | .specBit1 toks => countFits toks.length
  | .specBit0 toks => countFits toks.length
  | .specRpt header _ => countFits header.length
  | .begin => true
  | .appendTime toks => countFits toks.length
  | .appendBit _ => true
  | .appendBits bits => countFits bits.length
  | .appendG4 _ => true
  | .appendG8 _ => true
  | .terminate => true
  | .beginRepeat => true
  | .appendRepeats _ => true
  | .toTicks => true
  | .toWire => true
  | .classify ticks => countFits ticks.length
  | .decode ticks => countFits ticks.length

end Sys2Proof
end

