-- ==== Sys2Proof/Decode.lean ====
section
/-! DEFINITION. Decoding a command packet, in the order of checks of `30_encoding.md` R78 and R81, and encoding a command,
from the same tables (R65 to R73, R76, R77). -/

namespace Sys2Proof

/-- Why a packet is no command. Each is rejected by name; the error it raises is `DecodeError.malformed`'s choice. -/
inductive DecodeError
  /-- R78 (1): `op` is not in the opcode map. -/
  | unknownOpcode
  /-- R78 (2): `a` is non-zero where it must be 0, or is neither 4 nor 8 where it is a width. -/
  | badSubField
  /-- R78 (3): `n` has a bit set that the command requires to be zero. -/
  | badCountField
  /-- R78 (4): the number of operand words is not the one the header demands. -/
  | wrongLength
  /-- R78 (5): an operand word has a must-be-zero bit set. -/
  | badOperandWord
  /-- R77, R79 (2): a G4_FROM or G8_FROM header of no recognised shape. -/
  | unrecognisedShape
  deriving DecidableEq, Repr

/-- The rejections that raise `MalformedInputError`; every other one raises `IllegalCommandError` (R78, R79). -/
def decodeErrorMalformed : DecodeError → Bool
  | .unrecognisedShape => true
  | .unknownOpcode => false
  | .badSubField => false
  | .badCountField => false
  | .wrongLength => false
  | .badOperandWord => false

/-! ## Header -/

/-- `op`, header bits 31:24 (R66). -/
def headerOp (h : Word) : Byte := h.extractLsb' 24 8

/-- `a`, header bits 23:16 (R66). -/
def headerA (h : Word) : Byte := h.extractLsb' 16 8

/-- `n`, header bits 15:0 (R66). -/
def headerN (h : Word) : Half := h.extractLsb' 0 16

/-- The header word `op :: a :: n` (R66). -/
def mkHeader (op a : Byte) (n : Half) : Word :=
  (op.setWidth 32 <<< 24) ||| (a.setWidth 32 <<< 16) ||| n.setWidth 32

/-- The opcode map (R76). -/
def opcodeByte : Opcode → Byte
  | .rdStatus => 0x01
  | .obsCtrl => 0x02
  | .rdHist => 0x03
  | .bitFrom => 0x10
  | .g4From => 0x11
  | .g8From => 0x12
  | .toBits => 0x13
  | .reverse => 0x14
  | .flip => 0x15
  | .pack => 0x16
  | .specClear => 0x20
  | .specT => 0x21
  | .specFrame => 0x22
  | .specStop => 0x23
  | .specLeader => 0x24
  | .specBit1 => 0x25
  | .specBit0 => 0x26
  | .specRpt => 0x27
  | .begin => 0x30
  | .appendTime => 0x31
  | .appendBit => 0x32
  | .appendBits => 0x33
  | .appendG4 => 0x34
  | .appendG8 => 0x35
  | .terminate => 0x36
  | .beginRepeat => 0x37
  | .appendRepeats => 0x38
  | .toTicks => 0x39
  | .toWire => 0x3A
  | .classify => 0x40
  | .decode => 0x41

/-- The rows of the opcode map (R76). -/
def allOpcodes : List Opcode :=
  [.rdStatus, .obsCtrl, .rdHist, .bitFrom, .g4From, .g8From, .toBits, .reverse, .flip, .pack,
   .specClear, .specT, .specFrame, .specStop, .specLeader, .specBit1, .specBit0, .specRpt,
   .begin, .appendTime, .appendBit, .appendBits, .appendG4, .appendG8,
   .terminate, .beginRepeat, .appendRepeats, .toTicks, .toWire, .classify, .decode]

/-- The command an `op` value selects; every value outside the map is reserved and illegal (R76, R80). -/
def opcodeOf (op : Byte) : Option Opcode := allOpcodes.find? fun o => opcodeByte o == op

/-- R78 (2): the sub-field `a` is admissible. The shape of G4_FROM and G8_FROM is judged by `operandCount`. -/
def subFieldOk (o : Opcode) (a : Byte) : Bool :=
  match o with
  | .g4From => true
  | .g8From => true
  | .toBits => a == 4 || a == 8
  | .reverse => a == 4 || a == 8
  | .flip => a == 4 || a == 8
  | .pack => a == 4 || a == 8
  | _ => a == 0

/-- The largest group value a width admits in `n` (R78 (3)): 15 at width 4, 255 at width 8. -/
def groupInRange (a : Byte) (n : Half) : Bool :=
  if a = 4 then decide (n.toNat < 16) else decide (n.toNat < 256)

/-- R78 (3): no bit of `n` is set that the command requires to be zero. -/
def countFieldOk (o : Opcode) (a : Byte) (n : Half) : Bool :=
  match o with
  | .rdStatus => n == 0
  | .obsCtrl => decide (n.toNat < 2)
  | .rdHist => n == 0
  | .bitFrom => n == 0
  | .g4From => true
  | .g8From => true
  | .toBits => groupInRange a n
  | .reverse => groupInRange a n
  | .flip => groupInRange a n
  | .pack => true
  | .specClear => n == 0
  | .specT => n == 0
  | .specFrame => n == 0
  | .specStop => decide (n.toNat < 2)
  | .specLeader => true
  | .specBit1 => true
  | .specBit0 => true
  | .specRpt => true
  | .begin => n == 0
  | .appendTime => true
  | .appendBit => decide (n.toNat < 2)
  | .appendBits => true
  | .appendG4 => decide (n.toNat < 16)
  | .appendG8 => decide (n.toNat < 256)
  | .terminate => n == 0
  | .beginRepeat => n == 0
  | .appendRepeats => true
  | .toTicks => n == 0
  | .toWire => n == 0
  | .classify => true
  | .decode => true

/-- The length rule of a group source (R77): `none` is an unrecognised shape. -/
def sourceCount (a : Byte) (n : Half) : Option Nat :=
  if a = 0 then (if n = 0 then some 1 else none)
  else if a = 1 then some n.toNat
  else if a = 2 then some n.toNat
  else none

/-- `L`, the number of operand words a header demands (R76, R77). -/
def operandCount (o : Opcode) (a : Byte) (n : Half) : Option Nat :=
  match o with
  | .rdStatus => some 0
  | .obsCtrl => some 0
  | .rdHist => some 0
  | .bitFrom => some 1
  | .g4From => sourceCount a n
  | .g8From => sourceCount a n
  | .toBits => some 0
  | .reverse => some 0
  | .flip => some 0
  | .pack => some (Machine.packedWords n.toNat)
  | .specClear => some 0
  | .specT => some 1
  | .specFrame => some 1
  | .specStop => some n.toNat
  | .specLeader => some n.toNat
  | .specBit1 => some n.toNat
  | .specBit0 => some n.toNat
  | .specRpt => some (n.toNat + 1)
  | .begin => some 0
  | .appendTime => some n.toNat
  | .appendBit => some 0
  | .appendBits => some (Machine.packedWords n.toNat)
  | .appendG4 => some 0
  | .appendG8 => some 0
  | .terminate => some 0
  | .beginRepeat => some 0
  | .appendRepeats => some 0
  | .toTicks => some 0
  | .toWire => some 0
  | .classify => some n.toNat
  | .decode => some n.toNat

/-! ## Operand words -/

/-- A token word `TW` into its fields (R67). -/
def decodeToken (w : Word) : TokenField :=
  { kind := w.extractLsb' 30 2, pol := w.extractLsb' 28 2, mag := w.extractLsb' 0 28 }

/-- The token word of its fields (R67). -/
def encodeToken (t : TokenField) : Word :=
  (t.kind.setWidth 32 <<< 30) ||| (t.pol.setWidth 32 <<< 28) ||| t.mag.setWidth 32

/-- A value word `VW` (R68): bits 31:28 must be 0. -/
def decodeValue (w : Word) : Except DecodeError UQ :=
  if w.extractLsb' 28 4 = 0 then .ok (w.extractLsb' 0 28) else .error .badOperandWord

/-- The value word of a magnitude (R68). -/
def encodeValue (m : UQ) : Word := m.setWidth 32

/-- A tick word `KW` (R69): bits 31:16 must be 0. -/
def decodeTick (w : Word) : Except DecodeError Half :=
  if w.extractLsb' 16 16 = 0 then .ok (w.extractLsb' 0 16) else .error .badOperandWord

/-- The tick word of a tick count (R69). -/
def encodeTick (t : Half) : Word := t.setWidth 32

/-- A character word `CW` (R71): bits 31:8 must be 0. -/
def decodeChar (w : Word) : Except DecodeError Byte :=
  if w.extractLsb' 8 24 = 0 then .ok (w.extractLsb' 0 8) else .error .badOperandWord

/-- The character word of a character code (R71). -/
def encodeChar (c : Byte) : Word := c.setWidth 32

/-- A bit-like word `BW` (R72): bits 31:10 must be 0, and so must a `BOOL` payload above 1 not occur. -/
def decodeBitLike (w : Word) : Except DecodeError BitLike :=
  if w.extractLsb' 10 22 = 0 then
    let tag : BitVec 2 := w.extractLsb' 8 2
    let payload : Byte := w.extractLsb' 0 8
    if tag = 0 then
      (if payload = 0 then .ok (.bool false)
       else if payload = 1 then .ok (.bool true)
       else .error .badOperandWord)
    else if tag = 1 then .ok (.int payload)
    else if tag = 2 then .ok (.char payload)
    else .ok (.other payload)
  else .error .badOperandWord

/-- The bit-like word of a tag and a payload (R72). -/
def mkBitLike (tag : BitVec 2) (payload : Byte) : Word :=
  (tag.setWidth 32 <<< 8) ||| payload.setWidth 32

/-- The bit-like word of a bit-like value (R72). -/
def encodeBitLike : BitLike → Word
  | .bool b => mkBitLike 0 (if b then 1 else 0)
  | .int v => mkBitLike 1 v
  | .char c => mkBitLike 2 c
  | .other p => mkBitLike 3 p

/-- Every word of a list, by one word format; the first bad word decides. -/
def decodeAll {α : Type} (f : Word → Except DecodeError α) : List Word → Except DecodeError (List α)
  | [] => .ok []
  | w :: ws =>
    match f w with
    | .error e => .error e
    | .ok x =>
      match decodeAll f ws with
      | .error e => .error e
      | .ok xs => .ok (x :: xs)

/-- The packed bit list of a command (R73): unused low bits of the final word must be 0. -/
def decodeBits (n : Nat) (ws : List Word) : Except DecodeError (List Bool) :=
  if Machine.spareBitsZero n ws then .ok (Machine.unpackBits n ws) else .error .badOperandWord

/-- The operands of SPEC_RPT (R129): token words, then one value word. -/
def decodeRepeat : List Word → Except DecodeError (List TokenField × UQ)
  | [] => .error .wrongLength
  | [v] => (decodeValue v).map fun m => ([], m)
  | w :: ws => (decodeRepeat ws).map fun (ts, m) => (decodeToken w :: ts, m)

/-- The one operand word of a command that takes one (R76). -/
def oneWord {α : Type} (f : Word → Except DecodeError α) : List Word → Except DecodeError α
  | [w] => f w
  | _ => .error .wrongLength

/-- R78 (5): the operand words of a command whose header passed (1) to (4). -/
def decodeOperands (o : Opcode) (a : Byte) (n : Half) (ws : List Word) : Except DecodeError Instr :=
  match o with
  | .rdStatus => .ok .rdStatus
  | .obsCtrl => .ok (.obsCtrl (n.getLsbD 0))
  | .rdHist => .ok .rdHist
  | .bitFrom => (oneWord decodeBitLike ws).map .bitFrom
  | .g4From =>
    if a = 0 then (oneWord .ok ws).map .g4FromInt
    else if a = 1 then (decodeAll decodeChar ws).map .g4FromStr
    else (decodeAll decodeBitLike ws).map .g4FromArr
  | .g8From =>
    if a = 0 then (oneWord .ok ws).map .g8FromInt
    else if a = 1 then (decodeAll decodeChar ws).map .g8FromStr
    else (decodeAll decodeBitLike ws).map .g8FromArr
  | .toBits => .ok (if a = 4 then .toBits4 (n.setWidth 4) else .toBits8 (n.setWidth 8))
  | .reverse => .ok (if a = 4 then .reverse4 (n.setWidth 4) else .reverse8 (n.setWidth 8))
  | .flip => .ok (if a = 4 then .flip4 (n.setWidth 4) else .flip8 (n.setWidth 8))
  | .pack => (decodeBits n.toNat ws).map (if a = 4 then .pack4 else .pack8)
  | .specClear => .ok .specClear
  | .specT => (oneWord decodeValue ws).map .specT
  | .specFrame => (oneWord decodeValue ws).map .specFrame
  | .specStop => .ok (.specStop (ws.head?.map decodeToken))
  | .specLeader => .ok (.specLeader (ws.map decodeToken))
  | .specBit1 => .ok (.specBit1 (ws.map decodeToken))
  | .specBit0 => .ok (.specBit0 (ws.map decodeToken))
  | .specRpt => (decodeRepeat ws).map fun (ts, m) => .specRpt ts m
  | .begin => .ok .begin
  | .appendTime => .ok (.appendTime (ws.map decodeToken))
  | .appendBit => .ok (.appendBit (n.getLsbD 0))
  | .appendBits => (decodeBits n.toNat ws).map .appendBits
  | .appendG4 => .ok (.appendG4 (n.setWidth 4))
  | .appendG8 => .ok (.appendG8 (n.setWidth 8))
  | .terminate => .ok .terminate
  | .beginRepeat => .ok .beginRepeat
  | .appendRepeats => .ok (.appendRepeats n)
  | .toTicks => .ok .toTicks
  | .toWire => .ok .toWire
  | .classify => (decodeAll decodeTick ws).map .classify
  | .decode => (decodeAll decodeTick ws).map .decode

/-- The checks (2) to (5) of R78 for a command of the map, with R79 (2) in place of the length check. -/
def decodeCommand (o : Opcode) (a : Byte) (n : Half) (ws : List Word) : Except DecodeError Instr :=
  if subFieldOk o a then
    if countFieldOk o a n then
      match operandCount o a n with
      | none => .error .unrecognisedShape
      | some l => if ws.length = l then decodeOperands o a n ws else .error .wrongLength
    else .error .badCountField
  else .error .badSubField

/-- One command packet (R65), by the checks of R78 in their order. -/
def decode (p : Packet) : Except DecodeError Instr :=
  match opcodeOf (headerOp p.head) with
  | none => .error .unknownOpcode
  | some o => decodeCommand o (headerA p.head) (headerN p.head) p.tail

/-! ## Encoder -/

/-- The count field of a list of `len` elements (R66). -/
def countField (len : Nat) : Half := BitVec.ofNat 16 len

/-- A one-bit field in bit 0 of `n` (R130, R147). -/
def bitField (b : Bool) : Half := if b then 1 else 0

/-- The packet of an opcode, its sub-field, its count field and its operand words (R65, R66). -/
def mkPacket (o : Opcode) (a : Byte) (n : Half) (ws : List Word) : Packet :=
  { head := mkHeader (opcodeByte o) a n, tail := ws }

/-- The packet of a well-formed command (R65 to R73, R76, R77). -/
def encode : Instr → Packet
  | .rdStatus => mkPacket .rdStatus 0 0 []
  | .obsCtrl en => mkPacket .obsCtrl 0 (bitField en) []
  | .rdHist => mkPacket .rdHist 0 0 []
  | .bitFrom v => mkPacket .bitFrom 0 0 [encodeBitLike v]
  | .g4FromInt v => mkPacket .g4From 0 0 [v]
  | .g4FromStr cs => mkPacket .g4From 1 (countField cs.length) (cs.map encodeChar)
  | .g4FromArr bs => mkPacket .g4From 2 (countField bs.length) (bs.map encodeBitLike)
  | .g8FromInt v => mkPacket .g8From 0 0 [v]
  | .g8FromStr cs => mkPacket .g8From 1 (countField cs.length) (cs.map encodeChar)
  | .g8FromArr bs => mkPacket .g8From 2 (countField bs.length) (bs.map encodeBitLike)
  | .toBits4 g => mkPacket .toBits 4 (g.setWidth 16) []
  | .toBits8 g => mkPacket .toBits 8 (g.setWidth 16) []
  | .reverse4 g => mkPacket .reverse 4 (g.setWidth 16) []
  | .reverse8 g => mkPacket .reverse 8 (g.setWidth 16) []
  | .flip4 g => mkPacket .flip 4 (g.setWidth 16) []
  | .flip8 g => mkPacket .flip 8 (g.setWidth 16) []
  | .pack4 bs => mkPacket .pack 4 (countField bs.length) (Machine.packBits bs)
  | .pack8 bs => mkPacket .pack 8 (countField bs.length) (Machine.packBits bs)
  | .specClear => mkPacket .specClear 0 0 []
  | .specT m => mkPacket .specT 0 0 [encodeValue m]
  | .specFrame m => mkPacket .specFrame 0 0 [encodeValue m]
  | .specStop none => mkPacket .specStop 0 0 []
  | .specStop (some t) => mkPacket .specStop 0 1 [encodeToken t]
  | .specLeader ts => mkPacket .specLeader 0 (countField ts.length) (ts.map encodeToken)
  | .specBit1 ts => mkPacket .specBit1 0 (countField ts.length) (ts.map encodeToken)
  | .specBit0 ts => mkPacket .specBit0 0 (countField ts.length) (ts.map encodeToken)
  | .specRpt ts m => mkPacket .specRpt 0 (countField ts.length) (ts.map encodeToken ++ [encodeValue m])
  | .begin => mkPacket .begin 0 0 []
  | .appendTime ts => mkPacket .appendTime 0 (countField ts.length) (ts.map encodeToken)
  | .appendBit b => mkPacket .appendBit 0 (bitField b) []
  | .appendBits bs => mkPacket .appendBits 0 (countField bs.length) (Machine.packBits bs)
  | .appendG4 g => mkPacket .appendG4 0 (g.setWidth 16) []
  | .appendG8 g => mkPacket .appendG8 0 (g.setWidth 16) []
  | .terminate => mkPacket .terminate 0 0 []
  | .beginRepeat => mkPacket .beginRepeat 0 0 []
  | .appendRepeats n => mkPacket .appendRepeats 0 n []
  | .toTicks => mkPacket .toTicks 0 0 []
  | .toWire => mkPacket .toWire 0 0 []
  | .classify ks => mkPacket .classify 0 (countField ks.length) (ks.map encodeTick)
  | .decode ks => mkPacket .decode 0 (countField ks.length) (ks.map encodeTick)

/-! ## One word of the opcode table -/

/-- How many operand words the header of a table word demands; 0 where it demands none or is no command. -/
def tableOperandCount (h : Word) : Nat :=
  match opcodeOf (headerOp h) with
  | none => 0
  | some o => (operandCount o (headerA h) (headerN h)).getD 0

/-- The packet of an instruction whose bits are `w`, bit 0 the least significant bit of the first word: word `k` is
bits `32k+31..32k`, and every bit at `nbits` and above is 0. -/
def tablePacket (nbits w : Nat) : Packet :=
  let bits := w % 2 ^ nbits
  let h : Word := BitVec.ofNat 32 bits
  { head := h
    tail := (List.range (tableOperandCount h)).map fun k => BitVec.ofNat 32 (bits >>> (32 * (k + 1))) }

/-- The command the decoder reads from an opcode-table word. -/
def decodeTableWord (nbits w : Nat) : Option Instr :=
  match decode (tablePacket nbits w) with
  | .ok i => some i
  | .error _ => none

end Sys2Proof
end

