-- ==== Sys2Proof/Machine/Flags.lean ====
section
/-! DEFINITION. Error codes, diagnostic flags and the response header (`60_exceptions.md` R220, R231; `30_encoding.md` R74). -/

namespace Sys2Proof.Machine

/-- The code of an error, the `err` field of a response header (R220). -/
def errNumber : ErrCode → BitVec 4
  | .malformedInput => 1
  | .frameClosed => 2
  | .noRepeatConfigured => 3
  | .unknownProtocol => 4
  | .notImplemented => 5
  | .illegalCommand => 6
  | .capacity => 7

/-- The sticky flag of an error in `STATUS.ERR`: bit `c` for code `c` (R30, R220). -/
def errFlag (e : ErrCode) : BitVec 8 := 1#8 <<< (errNumber e).toNat

/-- `PADDED`, bit 0 of a diagnostic field (R231). -/
def diagPadded : BitVec 3 := 0b001

/-- `ZERODROP`, bit 1 (R231). -/
def diagZeroDrop : BitVec 3 := 0b010

/-- `OVERLEN`, bit 2 (R231). -/
def diagOverLen : BitVec 3 := 0b100

/-- The response header (R74): `op` 31:24, `err` 23:20, `diag` 19:17, 0 in bit 16, `M` 15:0. -/
def respHeader (op : Byte) (err : BitVec 4) (diag : BitVec 3) (m : Nat) : Word :=
  (op.setWidth 32 <<< 24) ||| (err.setWidth 32 <<< 20) ||| (diag.setWidth 32 <<< 17) ||| (BitVec.ofNat 16 m).setWidth 32

/-- The word that `Emit` appends for a number: the number itself below 2^32; above, the spec states no word (log entry 7). -/
def emitNat (v : Nat) : Word := if v < 2 ^ 32 then BitVec.ofNat 32 v else Config.unstatedWord v

end Sys2Proof.Machine
end

