-- ==== Sys2Proof/Machine/Ops.lean ====
section
/-! DEFINITION. The shared operations: raising an error and answering a command (`60_exceptions.md` R228, `30_encoding.md`
R74), the reset input (`70_reset_and_hazards.md` R240), and taking the next packet of `CMD` (`10_state.md` R22). -/

namespace Sys2Proof.Machine

/-- Error entry (R228): the sticky bit and `LASTERR` are set, and the response is the single header word with `err = c`,
`diag = 0`, `M = 0`. `s` is the state from before the command, so every write of the command is undone (R18). There is no
handler, no saved context and no return (R229): the next packet runs next. -/
def raiseError (op : Byte) (e : ErrCode) (s : State) : State :=
  { s with
    statusErr := s.statusErr ||| errFlag e
    lastErr := { code := errNumber e, opcode := op }
    rsp := s.rsp ++ [{ head := respHeader op (errNumber e) 0 0, tail := [] }] }

/-- The success response of a command (R74): its diagnostics go into the header and, ORed, into `STATUS.DIAG` (R231). -/
def reply (op : Byte) (w : Work) : State :=
  { w.state with
    statusDiag := w.state.statusDiag ||| w.diag
    rsp := w.state.rsp ++ [{ head := respHeader op 0 w.diag w.payload.length, tail := w.payload }] }

/-- The end of every command run from the state `s`: a raised error is entered from `s`, a payload above `MAX_RSP_WORDS` is
`CapacityError` (R226, checked last by R81), otherwise the command answers. -/
def finish (o : Opcode) (s : State) (r : Except ErrCode Work) : Host.Outcome State Fault Refusal :=
  match r with
  | .error e => .next (raiseError (opcodeByte o) e s)
  | .ok w =>
    if maxRspWords < w.payload.length then .next (raiseError (opcodeByte o) .capacity s)
    else .next (reply (opcodeByte o) w)

/-- A command that leaves `s` as it is and emits `payload`. -/
def emit (s : State) (diag : BitVec 3) (payload : List Word) : Work :=
  { state := s, diag := diag, payload := payload }

/-- A command that writes state and emits nothing. -/
def silent (s : State) : Work := { state := s, diag := 0, payload := [] }

/-- The `reset` input (R240): every state element takes its reset value and the traces are empty; whole packets still on
`CMD` are the host's and stay (log entry 6). -/
def applyReset (s : State) : State := { resetWith s.cfg with cmd := s.cmd }

/-- The next packet is taken off `CMD` (R22, R51). -/
def withCmd (s : State) (cmd : List Packet) : State := { s with cmd := cmd }

/-- The error a packet that is no command raises (R78, R79). -/
def decodeErrCode (e : DecodeError) : ErrCode :=
  if decodeErrorMalformed e then .malformedInput else .illegalCommand

/-- A packet that is no command: its error is entered, echoing the `op` byte received (R225, R228). -/
def rejectPacket (p : Packet) (e : DecodeError) (s : State) : State :=
  raiseError (headerOp p.head) (decodeErrCode e) s

/-- A packet placed at the front of `CMD`, so that it is the next one taken. -/
def presentNext (p : Packet) (s : State) : State := { s with resetPin := false, cmd := p :: s.cmd }

end Sys2Proof.Machine
end

