-- ==== Sys2Proof/Machine/System.lean ====
section
/-! DEFINITION. RD_STATUS (`45_system.md` R210), OBS_CTRL (`41_encoder_config.md` R130) and RD_HIST
(`42_encoder_frames.md` R160). -/

namespace Sys2Proof.Machine

/-- Word 0 of RD_STATUS: `CTRL.OBS` in bit 16, `STATUS.DIAG` in bits 10:8, `STATUS.ERR` in bits 7:0 (R210). -/
def statusWord (s : State) : Word :=
  ((if s.ctrlObs then 1#32 else 0#32) <<< 16) ||| (s.statusDiag.setWidth 32 <<< 8) ||| s.statusErr.setWidth 32

/-- Word 1 of RD_STATUS: `LASTERR.opcode` in bits 15:8, `LASTERR.code` in bits 3:0 (R210). -/
def lastErrWord (s : State) : Word := (s.lastErr.opcode.setWidth 32 <<< 8) ||| s.lastErr.code.setWidth 32

/-- There is a current frame and it is open (R210). -/
def frameOpen (s : State) : Bool :=
  match s.frames.getLast? with
  | none => false
  | some f => !f.closed

/-- The length of the current frame, 0 when there is none (R210). -/
def currentLength (s : State) : Nat :=
  match s.frames.getLast? with
  | none => 0
  | some f => f.entries.length

/-- The six words of RD_STATUS (R210). -/
def statusWords (s : State) : List Word :=
  [ statusWord s
  , lastErrWord s
  , emitNat (((frameOpen s).toNat <<< 16) ||| s.frames.length)
  , s.rptIdx.setWidth 32
  , emitNat s.hist.length
  , emitNat (currentLength s) ]

/-- The work of RD_STATUS (R210): six words; nothing is changed. -/
def rdStatusWork (s : State) : Except ErrCode Work :=
  .ok (emit s 0 (statusWords s))

/-- RD_STATUS (R210): six words; nothing is changed. -/
def execRdStatus (s : State) : Host.Outcome State Fault Refusal :=
  finish .rdStatus s (rdStatusWork s)

/-- The work of OBS_CTRL (R130): `CTRL.OBS <- n[0]`. -/
def obsCtrlWork (en : Bool) (s : State) : Except ErrCode Work :=
  .ok (silent { s with ctrlObs := en })

/-- OBS_CTRL (R130): `CTRL.OBS <- n[0]`. -/
def execObsCtrl (en : Bool) (s : State) : Host.Outcome State Fault Refusal :=
  finish .obsCtrl s (obsCtrlWork en s)

/-- A bit-list payload: the count word, then the packed bits (R75). -/
def bitListPayload (bits : List Bool) : List Word := emitNat bits.length :: packBits bits

/-- The work of RD_HIST (R160): the history, oldest first; a payload above `MAX_RSP_WORDS` is `CapacityError`. -/
def rdHistWork (s : State) : Except ErrCode Work :=
  .ok (emit s 0 (bitListPayload s.hist))

/-- RD_HIST (R160): the history, oldest first; a payload above `MAX_RSP_WORDS` is `CapacityError`. -/
def execRdHist (s : State) : Host.Outcome State Fault Refusal :=
  finish .rdHist s (rdHistWork s)

end Sys2Proof.Machine
end

