-- ==== Sys2Proof/Machine/BitGroup.lean ====
section
/-! DEFINITION. The Bit-Grouping Utility commands (`40_bitgroup.md` R100 to R108). They read and write no encoder state. -/

namespace Sys2Proof.Machine

/-- `reverse(group)` (R106): bit `k` of the result is bit `w-1-k` of the group. -/
def reverseGroup {w : Nat} (g : BitVec w) : BitVec w := groupOf w (bitsOf g).reverse

/-- `flip(group)` (R107): each of the `w` bits inverted. -/
def flipGroup {w : Nat} (g : BitVec w) : BitVec w := ~~~g

/-- The bits of PACK with the zeros of its final group (R108). -/
def padBits (w : Nat) (bits : List Bool) : List Bool :=
  if bits.length % w = 0 then bits else bits ++ List.replicate (w - bits.length % w) false

/-- Group `j` of a bit list (R108): bits `j*w .. j*w + w-1`, the first the most significant. -/
def groupAt (w : Nat) (bits : List Bool) (j : Nat) : BitVec w :=
  groupOf w ((List.range w).map fun k => bits.getD (j * w + k) false)

/-- The groups of PACK at width `w`, in order (R108). -/
def packGroups (w : Nat) (bits : List Bool) : List (BitVec w) :=
  (List.range ((padBits w bits).length / w)).map (groupAt w (padBits w bits))

/-- The diagnostic of PACK (R108): `PADDED` when the bit count is no multiple of the width. -/
def packDiag (w : Nat) (bits : List Bool) : BitVec 3 := if bits.length % w = 0 then 0 else diagPadded

/-- One group word as payload (R75). -/
def groupReply {w : Nat} (s : State) (g : BitVec w) : Work := emit s 0 [groupWord g]

/-- The work of BIT_FROM (R101). -/
def bitFromWork (value : BitLike) (s : State) : Except ErrCode Work :=
  .ok (emit s 0 [bitWord (bitFrom value)])

/-- BIT_FROM (R101). -/
def execBitFrom (value : BitLike) (s : State) : Host.Outcome State Fault Refusal :=
  finish .bitFrom s (bitFromWork value s)

/-- The work of G4_FROM of an integer (R103). -/
def g4FromIntWork (value : Word) (s : State) : Except ErrCode Work :=
  .ok (groupReply s (groupFromInt 4 value))

/-- G4_FROM of an integer (R103). -/
def execG4FromInt (value : Word) (s : State) : Host.Outcome State Fault Refusal :=
  finish .g4From s (g4FromIntWork value s)

/-- The work of G4_FROM of a string (R103). -/
def g4FromStrWork (chars : List Byte) (s : State) : Except ErrCode Work :=
  (groupFromBinary 4 chars).map (groupReply s)

/-- G4_FROM of a string (R103). -/
def execG4FromStr (chars : List Byte) (s : State) : Host.Outcome State Fault Refusal :=
  finish .g4From s (g4FromStrWork chars s)

/-- The work of G4_FROM of an array (R103). -/
def g4FromArrWork (elems : List BitLike) (s : State) : Except ErrCode Work :=
  (groupFromArray 4 elems).map (groupReply s)

/-- G4_FROM of an array (R103). -/
def execG4FromArr (elems : List BitLike) (s : State) : Host.Outcome State Fault Refusal :=
  finish .g4From s (g4FromArrWork elems s)

/-- The work of G8_FROM of an integer (R104). -/
def g8FromIntWork (value : Word) (s : State) : Except ErrCode Work :=
  .ok (groupReply s (groupFromInt 8 value))

/-- G8_FROM of an integer (R104). -/
def execG8FromInt (value : Word) (s : State) : Host.Outcome State Fault Refusal :=
  finish .g8From s (g8FromIntWork value s)

/-- The work of G8_FROM of a string (R104). -/
def g8FromStrWork (chars : List Byte) (s : State) : Except ErrCode Work :=
  (group8FromString chars).map (groupReply s)

/-- G8_FROM of a string (R104). -/
def execG8FromStr (chars : List Byte) (s : State) : Host.Outcome State Fault Refusal :=
  finish .g8From s (g8FromStrWork chars s)

/-- The work of G8_FROM of an array (R104). -/
def g8FromArrWork (elems : List BitLike) (s : State) : Except ErrCode Work :=
  (groupFromArray 8 elems).map (groupReply s)

/-- G8_FROM of an array (R104). -/
def execG8FromArr (elems : List BitLike) (s : State) : Host.Outcome State Fault Refusal :=
  finish .g8From s (g8FromArrWork elems s)

/-- The work of TO_BITS at width 4 (R105). -/
def toBits4Work (g : BitVec 4) (s : State) : Except ErrCode Work :=
  .ok (emit s 0 (bitListPayload (bitsOf g)))

/-- TO_BITS at width 4 (R105). -/
def execToBits4 (g : BitVec 4) (s : State) : Host.Outcome State Fault Refusal :=
  finish .toBits s (toBits4Work g s)

/-- The work of TO_BITS at width 8 (R105). -/
def toBits8Work (g : BitVec 8) (s : State) : Except ErrCode Work :=
  .ok (emit s 0 (bitListPayload (bitsOf g)))

/-- TO_BITS at width 8 (R105). -/
def execToBits8 (g : BitVec 8) (s : State) : Host.Outcome State Fault Refusal :=
  finish .toBits s (toBits8Work g s)

/-- The work of REVERSE at width 4 (R106). -/
def reverse4Work (g : BitVec 4) (s : State) : Except ErrCode Work :=
  .ok (groupReply s (reverseGroup g))

/-- REVERSE at width 4 (R106). -/
def execReverse4 (g : BitVec 4) (s : State) : Host.Outcome State Fault Refusal :=
  finish .reverse s (reverse4Work g s)

/-- The work of REVERSE at width 8 (R106). -/
def reverse8Work (g : BitVec 8) (s : State) : Except ErrCode Work :=
  .ok (groupReply s (reverseGroup g))

/-- REVERSE at width 8 (R106). -/
def execReverse8 (g : BitVec 8) (s : State) : Host.Outcome State Fault Refusal :=
  finish .reverse s (reverse8Work g s)

/-- The work of FLIP at width 4 (R107). -/
def flip4Work (g : BitVec 4) (s : State) : Except ErrCode Work :=
  .ok (groupReply s (flipGroup g))

/-- FLIP at width 4 (R107). -/
def execFlip4 (g : BitVec 4) (s : State) : Host.Outcome State Fault Refusal :=
  finish .flip s (flip4Work g s)

/-- The work of FLIP at width 8 (R107). -/
def flip8Work (g : BitVec 8) (s : State) : Except ErrCode Work :=
  .ok (groupReply s (flipGroup g))

/-- FLIP at width 8 (R107). -/
def execFlip8 (g : BitVec 8) (s : State) : Host.Outcome State Fault Refusal :=
  finish .flip s (flip8Work g s)

/-- The work of PACK at width 4 (R108). -/
def pack4Work (bits : List Bool) (s : State) : Except ErrCode Work :=
  .ok (emit s (packDiag 4 bits) ((packGroups 4 bits).map groupWord))

/-- PACK at width 4 (R108). -/
def execPack4 (bits : List Bool) (s : State) : Host.Outcome State Fault Refusal :=
  finish .pack s (pack4Work bits s)

/-- The work of PACK at width 8 (R108). -/
def pack8Work (bits : List Bool) (s : State) : Except ErrCode Work :=
  .ok (emit s (packDiag 8 bits) ((packGroups 8 bits).map groupWord))

/-- PACK at width 8 (R108). -/
def execPack8 (bits : List Bool) (s : State) : Host.Outcome State Fault Refusal :=
  finish .pack s (pack8Work bits s)

end Sys2Proof.Machine
end

