-- ==== Sys2Proof/Machine/Numbers.lean ====
section
/-! DEFINITION. Exact arithmetic on durations (`00_scope.md` R11 to R14): non-negative rationals, one rounding. -/

namespace Sys2Proof.Machine

/-- `UQ20.8(m) = m / 256` (R11). -/
def uqVal (m : UQ) : Rat := (m.toNat : Rat) / 256

/-- `rhu(x) = floor(x + 1/2)`: nearest integer, a tie goes up (R12). -/
def rhu (x : Rat) : Nat := (x + 1 / 2).floor.toNat

/-- `ticks_to_us(t) = t / 2`, exact (R13). -/
def ticksToUs (t : Half) : Rat := (t.toNat : Rat) / 2

/-- `us_to_ticks(u) = rhu(2u)` (R13). -/
def usToTicks (u : Rat) : Nat := rhu (2 * u)

/-- `mult(d, T) = rhu(d / T)`: the nearest multiple of a base unit `T > 0` (R14). -/
def mult (d t : Rat) : Nat := rhu (d / t)

end Sys2Proof.Machine
end

