-- ==== Sys2Proof/Machine/Decoder.lean ====
section
/-! DEFINITION. The decoder and classifier commands (`44_decoder.md` R180 to R196). They read and write no encoder state. -/

namespace Sys2Proof.Machine

/-- The four protocol families the classifier knows (R184). -/
inductive Family
  | aeha
  | nec
  | sony
  | irisOyama
  deriving DecidableEq, Repr

/-- A decoded symbol (R187). -/
inductive Symbol
  | zero
  | one
  /-- `?`, unrecognized timing. -/
  | unknown
  deriving DecidableEq, Repr

/-- A decoded frame (R187). -/
inductive DecFrame
  | bits (xs : List Symbol)
  /-- The marker "repeat". -/
  | repeated
  deriving DecidableEq, Repr

/-- A DecodedGuess (R187, R195): `none` is `{family: unknown, T: null}`. -/
structure Guess where
  family : Option (Family × Rat)
  frames : List DecFrame
  deriving DecidableEq, Repr

/-- Family codes (R83); 0 is `unknown`. -/
def familyCode : Family → BitVec 8
  | .aeha => 1
  | .nec => 2
  | .sony => 3
  | .irisOyama => 4

/-- The candidate base units, 300 to 795 by 5 (R183). -/
def candidates : List Nat := (List.range scanCount).map fun k => scanMin + scanStep * k

/-- `mult(d[i], T) = k`; a missing element matches nothing (R14, R184). -/
def multAt (d : List Rat) (t : Rat) (i k : Nat) : Bool :=
  match d[i]? with
  | none => false
  | some x => mult x t == k

/-- The leader signature of a family at base unit `t` (R184). -/
def signature (f : Family) (d : List Rat) (t : Rat) : Bool :=
  match f with
  | .aeha => multAt d t 0 8 && multAt d t 1 4
  | .nec => multAt d t 0 16 && multAt d t 1 8
  | .sony => multAt d t 0 4
  | .irisOyama => multAt d t 0 9 && multAt d t 1 9

/-- `S_f`, the qualifying set of a family (R185). -/
def qualifying (f : Family) (d : List Rat) : List Nat := candidates.filter fun (t : Nat) => signature f d (t : Rat)

/-- The arithmetic mean of a qualifying set (R185). -/
def meanOf (ts : List Nat) : Rat := (ts.sum : Rat) / (ts.length : Rat)

/-- `Classify(d)` over the families in priority order (R186): the first non-empty qualifying set wins. -/
def classifyIn : List Family → List Rat → Option (Family × Rat)
  | [], _ => none
  | f :: fs, d => if (qualifying f d).isEmpty then classifyIn fs d else some (f, meanOf (qualifying f d))

/-- `Classify(d)` (R186); `none` is `UnknownProtocolError`. -/
def classifyTicks (d : List Rat) : Option (Family × Rat) := classifyIn [.aeha, .nec, .sony, .irisOyama] d

/-- `d[i] = k[i] / 2` (R182). -/
def durations (ticks : List Half) : List Rat := ticks.map ticksToUs

/-- NEC, step 1 (R189): the first leader pair at a pulse position; its duration and what follows it. -/
def necLeader (t : Rat) : List Rat → Option (Rat × List Rat)
  | p :: s :: rest =>
    if (mult p t == 15 || mult p t == 16 || mult p t == 17) && (mult s t == 7 || mult s t == 8 || mult s t == 9) then
      some (p + s, rest)
    else necLeader t rest
  | _ => none

/-- The symbol of a NEC pair (R190). -/
def necSymbol (t p s : Rat) : Symbol :=
  if mult p t = 1 ∧ mult s t = 1 then .zero
  else if mult p t = 1 ∧ mult s t = 3 then .one
  else .unknown

/-- NEC, step 2 (R190): the symbols of the active frame and the pairs after it, `acc` the duration so far. -/
def necActive (t : Rat) (acc : Rat) : List Rat → List Symbol × List Rat
  | p :: s :: rest =>
    if (necFrameUs : Rat) ≤ acc then ([], p :: s :: rest)
    else
      let r := necActive t (acc + p + s) rest
      (necSymbol t p s :: r.1, r.2)
  | rest => ([], rest)

/-- Every trailing `?` removed (R190). -/
def stripTrailing (xs : List Symbol) : List Symbol := (xs.reverse.dropWhile (· == .unknown)).reverse

/-- NEC, step 3 (R191): a repeat marker for each 16T/4T pair, other pairs skipped. -/
def necRepeats (t : Rat) : List Rat → List DecFrame
  | p :: s :: rest => if mult p t = 16 ∧ mult s t = 4 then .repeated :: necRepeats t rest else necRepeats t rest
  | _ => []

/-- `DecodeNEC(d, T)` (R189 to R191). -/
def decodeNec (t : Rat) (d : List Rat) : List DecFrame :=
  match necLeader t d with
  | none => []
  | some (acc, rest) =>
    let r := necActive t acc rest
    .bits (stripTrailing r.1) :: necRepeats t r.2

/-- The symbol of an AEHA space whose multiple is at most 3 (R193). -/
def aehaSymbol (m : Nat) : Symbol := if m = 3 then .one else if m = 1 then .zero else .unknown

/-- The last, partly built frame, if it holds a symbol (R193). -/
def aehaFinal (cur : List Symbol) : List DecFrame := if cur.isEmpty then [] else [.bits cur]

/-- The walk of `DecodeAEHA` (R193) from an array position, `cur` the frame being built. A step takes a pair, skips a tracer
pair with the leader after it, or, when the lookahead after a tracer fails, advances one position. -/
def aehaWalk (t : Rat) : List Rat → List Symbol → List DecFrame
  | _ :: s :: l0 :: l1 :: rest, cur =>
    if 3 < mult s t then
      if mult l0 t = 8 ∧ mult l1 t = 4 then .bits cur :: aehaWalk t rest []
      else aehaWalk t (s :: l0 :: l1 :: rest) cur
    else aehaWalk t (l0 :: l1 :: rest) (cur ++ [aehaSymbol (mult s t)])
  | _ :: s :: rest, cur =>
    if 3 < mult s t then aehaWalk t (s :: rest) cur
    else aehaWalk t rest (cur ++ [aehaSymbol (mult s t)])
  | _, cur => aehaFinal cur

/-- `DecodeAEHA(d, T)` (R193): the walk starts after the initial leader. -/
def decodeAeha (t : Rat) (d : List Rat) : List DecFrame := aehaWalk t (d.drop 2) []

/-- `DecodeFamily(f, d, T)` (R194), with the parameter `IRIS_DECODE` for Iris-Oyama. -/
def decodeFamily (c : Config) (f : Family) (t : Rat) (d : List Rat) : Except ErrCode (List DecFrame) :=
  match f with
  | .nec => .ok (decodeNec t d)
  | .aeha => .ok (decodeAeha t d)
  | .sony => .error .notImplemented
  | .irisOyama =>
    match c.irisDecode with
    | .noFrames => .ok []
    | .notImplemented => .error .notImplemented

/-- `T` as a value word (R68, R181): an exact `UQ20.8` for every estimate (R188; log entry 8). -/
def baseUnitWord (t : Rat) : Word := emitNat (t * 256).floor.toNat

/-- The two bits of a symbol (R75). -/
def symbolBits : Symbol → List Bool
  | .zero => [false, false]
  | .one => [false, true]
  | .unknown => [true, false]

/-- The words of a decoded frame (R196). -/
def frameWords : DecFrame → List Word
  | .bits xs => emitNat xs.length :: packBits (xs.flatMap symbolBits)
  | .repeated => [0x80000000]

/-- Word 0 of a DecodedGuess (R196): frame count 31:16, `T_valid` 8, family 7:0. -/
def guessWord (g : Guess) : Word :=
  match g.family with
  | none => emitNat (g.frames.length <<< 16)
  | some (f, _) => emitNat ((g.frames.length <<< 16) ||| (1 <<< 8) ||| (familyCode f).toNat)

/-- Word 1 of a DecodedGuess (R196): `T`, 0 when it is null. -/
def guessUnit (g : Guess) : Word :=
  match g.family with
  | none => 0
  | some (_, t) => baseUnitWord t

/-- `EmitGuess` (R196). -/
def guessWords (g : Guess) : List Word := guessWord g :: guessUnit g :: g.frames.flatMap frameWords

/-- The guess of DECODE (R195): a failed classification is folded into it. -/
def decodeGuess (c : Config) (d : List Rat) : Except ErrCode Guess :=
  match classifyTicks d with
  | none => .ok { family := none, frames := [] }
  | some (f, t) => (decodeFamily c f t d).map fun frames => { family := some (f, t), frames := frames }

/-- The input-size check of CLASSIFY and DECODE, made before classification (R180, R81). -/
def checkInput (c : Config) (ticks : List Half) : Except ErrCode (List Rat) :=
  if fits c.maxDecTicks ticks.length then .ok (durations ticks) else .error .capacity

/-- The payload of CLASSIFY, or `UnknownProtocolError` (R181, R186). -/
def classifyWords (d : List Rat) : Except ErrCode (List Word) :=
  match classifyTicks d with
  | none => .error .unknownProtocol
  | some (f, t) => .ok [(familyCode f).setWidth 32, baseUnitWord t]

/-- The work of CLASSIFY (R181). -/
def classifyWork (ticks : List Half) (s : State) : Except ErrCode Work :=
  (checkInput s.cfg ticks).bind fun d => (classifyWords d).map (emit s 0)

/-- CLASSIFY (R181). -/
def execClassify (ticks : List Half) (s : State) : Host.Outcome State Fault Refusal :=
  finish .classify s (classifyWork ticks s)

/-- The work of DECODE (R195). -/
def decodeWork (ticks : List Half) (s : State) : Except ErrCode Work :=
  (checkInput s.cfg ticks).bind fun d => (decodeGuess s.cfg d).map fun g => emit s 0 (guessWords g)

/-- DECODE (R195). -/
def execDecode (ticks : List Half) (s : State) : Host.Outcome State Fault Refusal :=
  finish .decode s (decodeWork ticks s)

end Sys2Proof.Machine
end

