-- ==== Sys2Proof/Machine/FrameOps.lean ====
section
/-! DEFINITION. The encoder's helper procedures (`42_encoder_frames.md` R140 to R155, `43_encoder_output.md` R171 to R173) and
the capacity checks (R159, R226). -/

namespace Sys2Proof.Machine

/-- `CurOpen()` (R142): the current frame, which must exist and be open. -/
def curOpen (s : State) : Except ErrCode Frame :=
  match s.frames.getLast? with
  | none => .error .frameClosed
  | some f => if f.closed then .error .frameClosed else .ok f

/-- The frame list with its last frame replaced. -/
def setLast (fs : List Frame) (f : Frame) : List Frame := fs.dropLast ++ [f]

/-- `implied(f)` (R16): the polarity of the next slot. -/
def implied (entries : List Entry) : Level := if entries.length % 2 = 0 then .high else .low

/-- `value(e)` (R143). -/
def entryValue : Entry → Rat
  | .us q => q
  | .tk q => q

/-- An entry's duration in microseconds (R151). -/
def entryUs : Entry → Rat
  | .us q => q
  | .tk q => q / 2

/-- `Resolve(tok)` with base unit `t` (R143). -/
def resolve (t : Rat) (tok : Token) : Entry :=
  match tok.kind with
  | .us => .us (uqVal tok.mag)
  | .multT => .us (uqVal tok.mag * t)
  | .ticks => .tk (uqVal tok.mag)

/-- The filler entry (R144). -/
def filler : Entry := .tk 0

/-- A frame's entries under construction, with the diagnostics recorded so far. -/
abbrev Build := List Entry × BitVec 3

/-- `AppendToken(f, tok)` (R144). -/
def appendToken (t : Rat) (b : Build) (tok : Token) : Build :=
  match tok.pol with
  | none => if entryValue (resolve t tok) = 0 then (b.1, b.2 ||| diagZeroDrop) else (b.1 ++ [resolve t tok], b.2)
  | some p => if implied b.1 = p then (b.1 ++ [resolve t tok], b.2) else (b.1 ++ [filler, resolve t tok], b.2)

/-- `for tok in toks (in order): AppendToken(f, tok)`. -/
def appendTokens (t : Rat) (toks : List Token) (b : Build) : Build := toks.foldl (appendToken t) b

/-- The observer word of a bit and its index in `HIST` (R146). -/
def obsWord (b : Bool) (index : Nat) : Word :=
  BitVec.ofNat 32 ((b.toNat <<< 16) ||| (index % 65536))

/-- The shape of a logical bit (R146). -/
def bitShape (spec : Spec) (b : Bool) : List Token := if b then spec.bit1 else spec.bit0

/-- The part of `AppendBitStep` that follows `CurOpen()`: shape, history, observer, in that order (R146). -/
def recordBit (b : Bool) (f : Frame) (w : Work) : Work :=
  let s := w.state
  let r := appendTokens (uqVal s.aspec.t) (bitShape s.aspec b) (f.entries, w.diag)
  { w with
    state :=
      { s with
        frames := setLast s.frames { f with entries := r.1 }
        hist := s.hist ++ [b]
        obs := if s.ctrlObs then s.obs ++ [obsWord b s.hist.length] else s.obs }
    diag := r.2 }

/-- `AppendBitStep(b)` (R146). -/
def appendBitStep (b : Bool) (w : Work) : Except ErrCode Work :=
  match curOpen w.state with
  | .error e => .error e
  | .ok f => .ok (recordBit b f w)

/-- The iteration of APPEND_BITS, APPEND_G4 and APPEND_G8, element 0 first (R148 to R150). -/
def appendBitSteps : List Bool → Work → Except ErrCode Work
  | [], w => .ok w
  | b :: bs, w =>
    match appendBitStep b w with
    | .error e => .error e
    | .ok w' => appendBitSteps bs w'

/-- `Dur(f)` (R151), exact. -/
def dur (entries : List Entry) : Rat := (entries.map entryUs).sum

/-- `Split(t)` (R172): full pieces of 65535, a 0 of the opposite polarity after each, the remainder last. -/
def split (t : Nat) : List Nat :=
  (List.replicate ((t - 1) / tickMax) [tickMax, 0]).flatten ++ [t - tickMax * ((t - 1) / tickMax)]

/-- The padding entries of `p` ticks, split as R152 says; none for 0 ticks. -/
def padEntries (p : Nat) : List Entry := if p = 0 then [] else (split p).map fun k => .tk (k : Rat)

/-- The padding of a frame whose gap is `p` ticks: a filler first when the next slot is a pulse (R152). -/
def pad (p : Nat) (entries : List Entry) : List Entry :=
  if p = 0 then entries
  else if implied entries = .high then entries ++ filler :: padEntries p
  else entries ++ padEntries p

/-- `PadClose(f, F)` (R152) on a frame's entries; closing is the caller's. -/
def padClose (target : Rat) (b : Build) : Build :=
  if target = 0 then b
  else if dur b.1 < target then (pad (rhu (2 * (target - dur b.1))) b.1, b.2)
  else if target < dur b.1 then (b.1, b.2 ||| diagOverLen)
  else b

/-- The repeat entry for the current repeat index: the last is reused (R155). -/
def repeatEntry (s : State) : Option RepeatEntry :=
  s.aspec.rpt[min s.rptIdx.toNat (s.aspec.rpt.length - 1)]?

/-- The part of `RepeatStep` that follows its checks (R155). -/
def openRepeat (e : RepeatEntry) (w : Work) : Work :=
  let s := w.state
  let r := padClose (uqVal e.target) (appendTokens (uqVal s.aspec.t) e.header ([], w.diag))
  { w with
    state :=
      { s with
        frames := s.frames ++ [{ entries := r.1, closed := true }]
        rptIdx := if s.rptIdx = 65535 then 65535 else s.rptIdx + 1 }
    diag := r.2 }

/-- `RepeatStep()` (R155). -/
def repeatStep (w : Work) : Except ErrCode Work :=
  match repeatEntry w.state with
  | none => .error .noRepeatConfigured
  | some e =>
    if fits w.state.cfg.maxFrames (w.state.frames.length + 1) then .ok (openRepeat e w)
    else .error .capacity

/-- `repeat n times: RepeatStep()` (R157). -/
def repeatSteps : Nat → Work → Except ErrCode Work
  | 0, w => .ok w
  | n + 1, w =>
    match repeatStep w with
    | .error e => .error e
    | .ok w' => repeatSteps n w'

/-- The session is within the capacities (R159): every frame, the frame list and the history. -/
def sessionFits (s : State) : Bool :=
  s.frames.all (fun f => fits s.cfg.maxEntries f.entries.length)
    && fits s.cfg.maxFrames s.frames.length
    && fits s.cfg.maxHist s.hist.length

/-- The capacity check on a command's complete would-be result (R159). -/
def checkSession (w : Work) : Except ErrCode Work := if sessionFits w.state then .ok w else .error .capacity

/-- A token list within `MAX_TOKENS`, or `CapacityError` (R121, R226). -/
def checkTokens (c : Config) (toks : List Token) : Except ErrCode (List Token) :=
  if fits c.maxTokens toks.length then .ok toks else .error .capacity

/-- `ToTick(e)` (R171). -/
def toTick : Entry → Nat
  | .us q => usToTicks q
  | .tk q => rhu q

/-- The tick elements of one frame (R173). -/
def flattenFrame (f : Frame) : List Nat := f.entries.flatMap fun e => split (toTick e)

/-- `Flatten()` (R173): every frame as it stands, nothing between frames. -/
def flatten (frames : List Frame) : List Nat := frames.flatMap flattenFrame

end Sys2Proof.Machine
end

