-- ==== Sys2Proof/Machine/EncoderConfig.lean ====
section
/-! DEFINITION. The encoder configuration commands (`41_encoder_config.md` R120 to R129). They write the staging spec and
nothing else. -/

namespace Sys2Proof.Machine

/-- The state with another staging spec. -/
def withSpec (s : State) (p : Spec) : State := { s with spec := p }

/-- The work of SPEC_CLEAR (R122): `SPEC <- empty spec`. -/
def specClearWork (s : State) : Except ErrCode Work :=
  .ok (silent (withSpec s emptySpec))

/-- SPEC_CLEAR (R122): `SPEC <- empty spec`. -/
def execSpecClear (s : State) : Host.Outcome State Fault Refusal :=
  finish .specClear s (specClearWork s)

/-- The work of SPEC_T (R123). -/
def specTWork (value : UQ) (s : State) : Except ErrCode Work :=
  .ok (silent (withSpec s { s.spec with t := value }))

/-- SPEC_T (R123). -/
def execSpecT (value : UQ) (s : State) : Host.Outcome State Fault Refusal :=
  finish .specT s (specTWork value s)

/-- The work of SPEC_FRAME (R124). -/
def specFrameWork (value : UQ) (s : State) : Except ErrCode Work :=
  .ok (silent (withSpec s { s.spec with frame := value }))

/-- SPEC_FRAME (R124). -/
def execSpecFrame (value : UQ) (s : State) : Host.Outcome State Fault Refusal :=
  finish .specFrame s (specFrameWork value s)

/-- The work of SPEC_STOP (R125). -/
def specStopWork (tok : Option TokenField) (s : State) : Except ErrCode Work :=
  (parseOptToken tok).map fun t => silent (withSpec s { s.spec with stop := t })

/-- SPEC_STOP (R125). -/
def execSpecStop (tok : Option TokenField) (s : State) : Host.Outcome State Fault Refusal :=
  finish .specStop s (specStopWork tok s)

/-- The token list of SPEC_LEADER, SPEC_BIT1, SPEC_BIT0 and SPEC_RPT: well-formed, then within `MAX_TOKENS` (R121, R81). -/
def shapeTokens (c : Config) (toks : List TokenField) : Except ErrCode (List Token) :=
  (parseTokens toks).bind (checkTokens c)

/-- The work of SPEC_LEADER (R126). -/
def specLeaderWork (toks : List TokenField) (s : State) : Except ErrCode Work :=
  (shapeTokens s.cfg toks).map fun ts => silent (withSpec s { s.spec with leader := ts })

/-- SPEC_LEADER (R126). -/
def execSpecLeader (toks : List TokenField) (s : State) : Host.Outcome State Fault Refusal :=
  finish .specLeader s (specLeaderWork toks s)

/-- The work of SPEC_BIT1 (R127). -/
def specBit1Work (toks : List TokenField) (s : State) : Except ErrCode Work :=
  (shapeTokens s.cfg toks).map fun ts => silent (withSpec s { s.spec with bit1 := ts })

/-- SPEC_BIT1 (R127). -/
def execSpecBit1 (toks : List TokenField) (s : State) : Host.Outcome State Fault Refusal :=
  finish .specBit1 s (specBit1Work toks s)

/-- The work of SPEC_BIT0 (R128). -/
def specBit0Work (toks : List TokenField) (s : State) : Except ErrCode Work :=
  (shapeTokens s.cfg toks).map fun ts => silent (withSpec s { s.spec with bit0 := ts })

/-- SPEC_BIT0 (R128). -/
def execSpecBit0 (toks : List TokenField) (s : State) : Host.Outcome State Fault Refusal :=
  finish .specBit0 s (specBit0Work toks s)

/-- One more repeat entry, or `CapacityError` when SPEC.RPT is full (R129). -/
def addRepeat (s : State) (e : RepeatEntry) : Except ErrCode Work :=
  if fits s.cfg.maxRpt (s.spec.rpt.length + 1) then .ok (silent (withSpec s { s.spec with rpt := s.spec.rpt ++ [e] }))
  else .error .capacity

/-- The work of SPEC_RPT (R129). -/
def specRptWork (header : List TokenField) (target : UQ) (s : State) : Except ErrCode Work :=
  (shapeTokens s.cfg header).bind fun ts => addRepeat s { header := ts, target := target }

/-- SPEC_RPT (R129). -/
def execSpecRpt (header : List TokenField) (target : UQ) (s : State) : Host.Outcome State Fault Refusal :=
  finish .specRpt s (specRptWork header target s)

end Sys2Proof.Machine
end

