-- ==== Sys2Proof/Machine/EncoderFrames.lean ====
section
/-! DEFINITION. The encoder frame-building commands (`42_encoder_frames.md` R141 to R157). -/

namespace Sys2Proof.Machine

/-- The current frame replaced by the entries built for it, open or closed. -/
def withCurrent (s : State) (b : Build) (closed : Bool) : Work :=
  { state := { s with frames := setLast s.frames { entries := b.1, closed := closed } }, diag := b.2, payload := [] }

/-- The new session of BEGIN (R141): the spec latched, one open frame with the leader, history and repeat index cleared. -/
def beginSession (s : State) : Work :=
  let b := appendTokens (uqVal s.spec.t) s.spec.leader ([], 0)
  { state := { s with aspec := s.spec, frames := [{ entries := b.1, closed := false }], hist := [], rptIdx := 0 }
    diag := b.2
    payload := [] }

/-- The work of BEGIN (R141). -/
def beginWork (s : State) : Except ErrCode Work :=
  checkSession (beginSession s)

/-- BEGIN (R141). -/
def execBegin (s : State) : Host.Outcome State Fault Refusal :=
  finish .begin s (beginWork s)

/-- The work of APPEND_TIME (R145): malformed tokens first, then the open frame, also when there is no token. -/
def appendTimeWork (toks : List TokenField) (s : State) : Except ErrCode Work :=
  (parseTokens toks).bind fun ts =>
    (curOpen s).bind fun f =>
    checkSession (withCurrent s (appendTokens (uqVal s.aspec.t) ts (f.entries, 0)) false)

/-- APPEND_TIME (R145): malformed tokens first, then the open frame, also when there is no token. -/
def execAppendTime (toks : List TokenField) (s : State) : Host.Outcome State Fault Refusal :=
  finish .appendTime s (appendTimeWork toks s)

/-- The steps of an append of bits, from the state `s`, and the capacity check on their result (R148, R159). -/
def bitsWork (bits : List Bool) (s : State) : Except ErrCode Work :=
  (appendBitSteps bits (silent s)).bind checkSession

/-- The work of APPEND_BIT (R147). -/
def appendBitWork (b : Bool) (s : State) : Except ErrCode Work :=
  bitsWork [b] s

/-- APPEND_BIT (R147). -/
def execAppendBit (b : Bool) (s : State) : Host.Outcome State Fault Refusal :=
  finish .appendBit s (appendBitWork b s)

/-- The work of APPEND_BITS (R148). -/
def appendBitsWork (bits : List Bool) (s : State) : Except ErrCode Work :=
  bitsWork bits s

/-- APPEND_BITS (R148). -/
def execAppendBits (bits : List Bool) (s : State) : Host.Outcome State Fault Refusal :=
  finish .appendBits s (appendBitsWork bits s)

/-- The work of APPEND_G4 (R149): most significant bit first. -/
def appendG4Work (g : BitVec 4) (s : State) : Except ErrCode Work :=
  bitsWork (bitsOf g) s

/-- APPEND_G4 (R149): most significant bit first. -/
def execAppendG4 (g : BitVec 4) (s : State) : Host.Outcome State Fault Refusal :=
  finish .appendG4 s (appendG4Work g s)

/-- The work of APPEND_G8 (R150): most significant bit first. -/
def appendG8Work (g : BitVec 8) (s : State) : Except ErrCode Work :=
  bitsWork (bitsOf g) s

/-- APPEND_G8 (R150): most significant bit first. -/
def execAppendG8 (g : BitVec 8) (s : State) : Host.Outcome State Fault Refusal :=
  finish .appendG8 s (appendG8Work g s)

/-- The entries of a frame after TERMINATE: the stop token, if any, then the padding (R153). -/
def terminated (spec : Spec) (entries : List Entry) : Build :=
  padClose (uqVal spec.frame) (appendTokens (uqVal spec.t) spec.stop.toList (entries, 0))

/-- The work of TERMINATE (R153). -/
def terminateWork (s : State) : Except ErrCode Work :=
  (curOpen s).bind fun f => checkSession (withCurrent s (terminated s.aspec f.entries) true)

/-- TERMINATE (R153). -/
def execTerminate (s : State) : Host.Outcome State Fault Refusal :=
  finish .terminate s (terminateWork s)

/-- The steps of a repeat, and the capacity check on their result (R155, R157, R159). -/
def repeatsWork (n : Nat) (s : State) : Except ErrCode Work :=
  (repeatSteps n (silent s)).bind checkSession

/-- The work of BEGIN_REPEAT (R156). -/
def beginRepeatWork (s : State) : Except ErrCode Work :=
  repeatsWork 1 s

/-- BEGIN_REPEAT (R156). -/
def execBeginRepeat (s : State) : Host.Outcome State Fault Refusal :=
  finish .beginRepeat s (beginRepeatWork s)

/-- The work of APPEND_REPEATS (R157). -/
def appendRepeatsWork (count : Half) (s : State) : Except ErrCode Work :=
  repeatsWork count.toNat s

/-- APPEND_REPEATS (R157). -/
def execAppendRepeats (count : Half) (s : State) : Host.Outcome State Fault Refusal :=
  finish .appendRepeats s (appendRepeatsWork count s)

end Sys2Proof.Machine
end

