-- ==== Sys2Proof/Machine/EncoderOutput.lean ====
section
/-! DEFINITION. The encoder output commands (`43_encoder_output.md` R170, R174). They change no encoder state. -/

namespace Sys2Proof.Machine

/-- A flat tick array as payload words (R75, R170). -/
def tickWords (ticks : List Nat) : List Word := ticks.map emitNat

/-- The envelope word (R174): format 1 in bits 31:24, 38 kHz in bits 23:16, the element count in bits 15:0. -/
def envelopeWord (count : Nat) : Word := emitNat ((1 <<< 24) ||| (carrierKhz <<< 16) ||| count)

/-- The work of TO_TICKS (R170). -/
def toTicksWork (s : State) : Except ErrCode Work :=
  .ok (emit s 0 (tickWords (flatten s.frames)))

/-- TO_TICKS (R170). -/
def execToTicks (s : State) : Host.Outcome State Fault Refusal :=
  finish .toTicks s (toTicksWork s)

/-- The work of TO_WIRE (R174). -/
def toWireWork (s : State) : Except ErrCode Work :=
  .ok (emit s 0 (envelopeWord (flatten s.frames).length :: tickWords (flatten s.frames)))

/-- TO_WIRE (R174). -/
def execToWire (s : State) : Host.Outcome State Fault Refusal :=
  finish .toWire s (toWireWork s)

end Sys2Proof.Machine
end

