-- ==== Sys2Proof/Machine/Dispatch.lean ====
section
/-! DEFINITION. One arm per command: its meaning. -/

namespace Sys2Proof.Machine

/-- The effect of a command whose packet has been taken off `CMD`. -/
def exec (i : Instr) (s : State) : Host.Outcome State Fault Refusal :=
  match i with
  | .rdStatus => Sys2Proof.Machine.execRdStatus s
  | .obsCtrl en => Sys2Proof.Machine.execObsCtrl en s
  | .rdHist => Sys2Proof.Machine.execRdHist s
  | .bitFrom v => Sys2Proof.Machine.execBitFrom v s
  | .g4FromInt v => Sys2Proof.Machine.execG4FromInt v s
  | .g4FromStr cs => Sys2Proof.Machine.execG4FromStr cs s
  | .g4FromArr bs => Sys2Proof.Machine.execG4FromArr bs s
  | .g8FromInt v => Sys2Proof.Machine.execG8FromInt v s
  | .g8FromStr cs => Sys2Proof.Machine.execG8FromStr cs s
  | .g8FromArr bs => Sys2Proof.Machine.execG8FromArr bs s
  | .toBits4 g => Sys2Proof.Machine.execToBits4 g s
  | .toBits8 g => Sys2Proof.Machine.execToBits8 g s
  | .reverse4 g => Sys2Proof.Machine.execReverse4 g s
  | .reverse8 g => Sys2Proof.Machine.execReverse8 g s
  | .flip4 g => Sys2Proof.Machine.execFlip4 g s
  | .flip8 g => Sys2Proof.Machine.execFlip8 g s
  | .pack4 bits => Sys2Proof.Machine.execPack4 bits s
  | .pack8 bits => Sys2Proof.Machine.execPack8 bits s
  | .specClear => Sys2Proof.Machine.execSpecClear s
  | .specT v => Sys2Proof.Machine.execSpecT v s
  | .specFrame v => Sys2Proof.Machine.execSpecFrame v s
  | .specStop tok => Sys2Proof.Machine.execSpecStop tok s
  | .specLeader toks => Sys2Proof.Machine.execSpecLeader toks s
  | .specBit1 toks => Sys2Proof.Machine.execSpecBit1 toks s
  | .specBit0 toks => Sys2Proof.Machine.execSpecBit0 toks s
  | .specRpt header target => Sys2Proof.Machine.execSpecRpt header target s
  | .begin => Sys2Proof.Machine.execBegin s
  | .appendTime toks => Sys2Proof.Machine.execAppendTime toks s
  | .appendBit b => Sys2Proof.Machine.execAppendBit b s
  | .appendBits bits => Sys2Proof.Machine.execAppendBits bits s
  | .appendG4 g => Sys2Proof.Machine.execAppendG4 g s
  | .appendG8 g => Sys2Proof.Machine.execAppendG8 g s
  | .terminate => Sys2Proof.Machine.execTerminate s
  | .beginRepeat => Sys2Proof.Machine.execBeginRepeat s
  | .appendRepeats count => Sys2Proof.Machine.execAppendRepeats count s
  | .toTicks => Sys2Proof.Machine.execToTicks s
  | .toWire => Sys2Proof.Machine.execToWire s
  | .classify ticks => Sys2Proof.Machine.execClassify ticks s
  | .decode ticks => Sys2Proof.Machine.execDecode ticks s

end Sys2Proof.Machine
end

