-- ==== Sys2Proof/Machine/Step.lean ====
section
/-! DEFINITION. One step: the reset input, or the next packet of `CMD` (`10_state.md` R22, `70_reset_and_hazards.md` R240). -/

namespace Sys2Proof.Machine

/-- One step. An asserted `reset` acts first (R240). With nothing on `CMD` the block waits and nothing changes (log entry 2).
Otherwise the next packet is taken and is run to its end (R22): a command by `exec`, any other packet by the error it raises. -/
def step (s : State) : Host.Outcome State Fault Refusal :=
  if s.resetPin then .next (applyReset s)
  else
    match s.cmd with
    | [] => .next s
    | p :: rest =>
      match decode p with
      | .ok i => exec i (withCmd s rest)
      | .error e => .next (rejectPacket p e (withCmd s rest))

/-- `s` with the packet of an opcode-table word at the front of `CMD` and the reset input released, so that the next step
runs it (log entry 3). -/
def State.withFetchWord (s : State) (nbits w : Nat) : State := presentNext (tablePacket nbits w) s

end Sys2Proof.Machine
end

