-- ==== Sys2Proof/Machine/Pseudo.lean ====
section
/-! DEFINITION. The one pseudo-instruction, `SPEC_NEC` (`30_encoding.md` R87), as the commands it expands to, and the spec
those commands leave. -/

namespace Sys2Proof.Machine

/-- The token fields of `<k>T` for a whole number `k` (R67, R86). -/
def multToken (k : Nat) : TokenField := { kind := 1, pol := 0, mag := BitVec.ofNat 28 (256 * k) }

/-- The magnitude of a whole number of microseconds (R68). -/
def wholeUs (k : Nat) : UQ := BitVec.ofNat 28 (256 * k)

/-- `SPEC_NEC` (R87), in its order. -/
def specNecCommands : List Instr :=
  [ .specClear
  , .specT (wholeUs 562)
  , .specLeader [multToken 16, multToken 8]
  , .specBit1 [multToken 1, multToken 3]
  , .specBit0 [multToken 1, multToken 1]
  , .specStop (some (multToken 1))
  , .specFrame (wholeUs 108000) ]

/-- The token `<k>T` (R23, R67). -/
def timesT (k : Nat) : Token := { kind := .multT, mag := BitVec.ofNat 28 (256 * k), pol := none }

/-- The spec that `SPEC_NEC` leaves in `SPEC` (R87). -/
def necSpec : Spec :=
  { t := wholeUs 562
    leader := [timesT 16, timesT 8]
    bit1 := [timesT 1, timesT 3]
    bit0 := [timesT 1, timesT 1]
    stop := some (timesT 1)
    frame := wholeUs 108000
    rpt := [] }

end Sys2Proof.Machine
end

