-- ==== Sys2Proof/Safety.lean ====
section
/-! DEFINITION. What counts as a good state of IRPC, and the words in which claims about a command are stated: the state
after a success response, and the bits an append command sends. -/

namespace Sys2Proof.Machine

/-- The state after a command that succeeded with diagnostics `diag` and the payload `payload` and left the other state as
in `s`: one response packet more (R74), its diagnostics ORed into `STATUS.DIAG` (R231). -/
def answered (op : Byte) (diag : BitVec 3) (payload : List Word) (s : State) : State :=
  { s with
    statusDiag := s.statusDiag ||| diag
    rsp := s.rsp ++ [{ head := respHeader op 0 diag payload.length, tail := payload }] }

/-- The state after a command that raised the error `e` and so left the other state as in `s` (R228). -/
def errored (op : Byte) (e : ErrCode) (s : State) : State :=
  { s with
    statusErr := s.statusErr ||| errFlag e
    lastErr := { code := errNumber e, opcode := op }
    rsp := s.rsp ++ [{ head := respHeader op (errNumber e) 0 0, tail := [] }] }

/-- A spec is within the capacities (R9, R23). -/
def specFits (c : Config) (p : Spec) : Bool :=
  fits c.maxTokens p.leader.length && fits c.maxTokens p.bit1.length && fits c.maxTokens p.bit0.length
    && fits c.maxRpt p.rpt.length && p.rpt.all fun r => fits c.maxTokens r.header.length

/-- Every list of the state is within its capacity (R9, R23 to R27, R226). -/
def capacitiesOk (s : State) : Bool := specFits s.cfg s.spec && specFits s.cfg s.aspec && sessionFits s

/-- Every entry's value is non-negative (R25). -/
def durationsOk (s : State) : Bool := s.frames.all fun f => f.entries.all fun e => decide (0 ≤ entryValue e)

/-- `STATUS.ERR` bit 0 is clear; `LASTERR` is `(0, 0)` with no flag set, or a code 1 to 7 whose flag is set (R30, R220). -/
def statusOk (s : State) : Bool :=
  !s.statusErr.getLsbD 0
    && (if s.lastErr.code = 0 then s.lastErr.opcode == 0 && s.statusErr == 0
        else decide (s.lastErr.code.toNat ≤ 7) && s.statusErr.getLsbD s.lastErr.code.toNat)

/-- A response packet has the form of R74: bit 16 is 0, `M` is the number of payload words, and an error response has code at
most 7, no diagnostics and no payload. -/
def responseOk (p : Packet) : Bool :=
  !p.head.getLsbD 16
    && (p.head.extractLsb' 0 16).toNat == p.tail.length
    && (p.head.extractLsb' 20 4 == 0#4
        || (decide ((p.head.extractLsb' 20 4).toNat ≤ 7) && p.head.extractLsb' 17 3 == 0#3 && p.tail.isEmpty))

/-- Every response packet has the form of R74. -/
def responsesOk (s : State) : Bool := s.rsp.all responseOk

/-- Every observer word has bits 31:17 zero (R146). -/
def observersOk (s : State) : Bool := s.obs.all fun w => w.extractLsb' 17 15 == 0#15

/-- The invariant: what every run from reset keeps, and every step keeps from any state that has it. -/
def stateOk (s : State) : Bool :=
  capacitiesOk s && durationsOk s && statusOk s && responsesOk s && observersOk s

/-- The opcode byte and the bits, element 0 first, of the commands that append bits (R147 to R150). -/
def appendedBits : Instr → Option (Byte × List Bool)
  | .appendBit b => some (0x32, [b])
  | .appendBits bits => some (0x33, bits)
  | .appendG4 g => some (0x34, [g.getLsbD 3, g.getLsbD 2, g.getLsbD 1, g.getLsbD 0])
  | .appendG8 g =>
    some (0x35, [g.getLsbD 7, g.getLsbD 6, g.getLsbD 5, g.getLsbD 4, g.getLsbD 3, g.getLsbD 2, g.getLsbD 1, g.getLsbD 0])
  | _ => none

/-- The frame entries and diagnostics after appending bits to a frame, shape by shape (R146). -/
def bitsBuilt (spec : Spec) (entries : List Entry) (bits : List Bool) : Build :=
  bits.foldl (fun b bit => appendTokens (uqVal spec.t) (if bit then spec.bit1 else spec.bit0) b) (entries, 0)

/-- The observer words of bits whose first gets index `start` in `HIST` (R146). -/
def bitObservers (start : Nat) (bits : List Bool) : List Word :=
  bits.zipIdx.map fun p => BitVec.ofNat 32 (p.1.toNat * 65536 + (start + p.2) % 65536)

/-- The frame and diagnostics of the repeat built from an entry with base unit `t` (R155). -/
def repeatBuilt (t : UQ) (e : RepeatEntry) : Build :=
  padClose (uqVal e.target) (appendTokens (uqVal t) e.header ([], 0))

/-- The commands that write `SPEC` (R120). -/
def isSpecCommand : Opcode → Bool
  | .specClear | .specT | .specFrame | .specStop | .specLeader | .specBit1 | .specBit0 | .specRpt => true
  | _ => false

/-- The commands that change no encoder state (R59, R100): the read-only ones and those of BGU and DEC. -/
def isPureCommand : Opcode → Bool
  | .rdStatus | .rdHist | .bitFrom | .g4From | .g8From | .toBits | .reverse | .flip | .pack
  | .toTicks | .toWire | .classify | .decode => true
  | _ => false

/-! ## Vocabulary of the statements -/

/-- The kind field of a token word (R67). -/
def kindCode : TokenKind → BitVec 2
  | .us => 0
  | .multT => 1
  | .ticks => 2

/-- The polarity field of a token word (R67). -/
def polCode : Option Level → BitVec 2
  | none => 0
  | some .high => 1
  | some .low => 2

/-- The fields of the token word that denotes a token (R67). -/
def tokenField (t : Token) : TokenField := { kind := kindCode t.kind, pol := polCode t.pol, mag := t.mag }

/-- A token word that denotes no token (R79 (1)). -/
def malformedToken (f : TokenField) : Bool := f.kind == 3 || f.pol == 3

/-- `sum over k of bits[k] * 2^(w-1-k)`, `w` the number of bits (R103, R104, R106, R108). -/
def groupSum (bits : List Bool) : Nat := (bits.zipIdx.map fun p => p.1.toNat * 2 ^ (bits.length - 1 - p.2)).sum

/-- Words carry a bit list by the packing of R56 and R73: enough words, element `k` in word `k / 32` at bit
`31 - k % 32`, and every other bit 0. -/
def carriesBits (ws : List Word) (bits : List Bool) : Prop :=
  ws.length = (bits.length + 31) / 32 ∧ ∀ k, k < 32 * ws.length → (ws.getD (k / 32) 0).getLsbD (31 - k % 32) = bits.getD k false

/-- The current frame is `f` and it is open (R25, R142). -/
def openFrame (s : State) (f : Frame) : Prop := s.frames.getLast? = some f ∧ f.closed = false

/-- There is no open current frame (R142). -/
def noOpenFrame (s : State) : Prop := ∀ f, s.frames.getLast? = some f → f.closed = true

/-- The opcode byte and the number of steps of the commands that append repeats (R156, R157). -/
def repeatCount : Instr → Option (Byte × Nat)
  | .beginRepeat => some (0x37, 1)
  | .appendRepeats n => some (0x38, n.toNat)
  | _ => none

/-- The repeat entry used `k` repeats from now: the last is reused, and the index saturates (R28, R155). -/
def repeatAt (s : State) (k : Nat) : RepeatEntry :=
  s.aspec.rpt.getD (min (min (s.rptIdx.toNat + k) 65535) (s.aspec.rpt.length - 1)) { header := [], target := 0 }

/-- The state after `n` repeats (R155). -/
def afterRepeats (n : Nat) (s : State) : State :=
  { s with
    frames :=
      s.frames ++ (List.range n).map fun k => { entries := (repeatBuilt s.aspec.t (repeatAt s k)).1, closed := true }
    rptIdx := BitVec.ofNat 16 (min (s.rptIdx.toNat + n) 65535) }

/-- The diagnostics of `n` repeats: the union over the steps (R157). -/
def repeatsDiag (n : Nat) (s : State) : BitVec 3 :=
  (List.range n).foldl (fun d k => d ||| (repeatBuilt s.aspec.t (repeatAt s k)).2) 0

/-- The state after bits were appended to the open frame `f` (R146). -/
def afterBits (f : Frame) (bits : List Bool) (s : State) : State :=
  { s with
    frames := s.frames.dropLast ++ [{ entries := (bitsBuilt s.aspec f.entries bits).1, closed := false }]
    hist := s.hist ++ bits
    obs := if s.ctrlObs then s.obs ++ bitObservers s.hist.length bits else s.obs }

/-- Commands run one after another. -/
def runCommands (is : List Instr) (s : State) : Host.Outcome State Fault Refusal :=
  is.foldl (fun r i => match r with | .next t => exec i t | .fault e => .fault e | .refused e => .refused e) (.next s)

/-- The `op` field of a header (R66, R74). -/
def packetOp (p : Packet) : Byte := p.head.extractLsb' 24 8

/-- The `err` field of a response (R74). -/
def responseErr (p : Packet) : BitVec 4 := p.head.extractLsb' 20 4

/-- The `diag` field of a response (R74). -/
def responseDiag (p : Packet) : BitVec 3 := p.head.extractLsb' 17 3

/-- Every open capacity is unbounded (R9). -/
def unbounded (c : Config) : Bool :=
  c.maxTokens.isNone && c.maxRpt.isNone && c.maxFrames.isNone && c.maxEntries.isNone && c.maxHist.isNone
    && c.maxDecTicks.isNone

/-- The command opcodes that may raise an error once their packet is well-formed (R220). -/
def mayRaise : ErrCode → Opcode → Bool
  | .malformedInput, o =>
    o ∈ [.g4From, .g8From, .specStop, .specLeader, .specBit1, .specBit0, .specRpt, .appendTime]
  | .frameClosed, o => o ∈ [.appendTime, .appendBit, .appendBits, .appendG4, .appendG8, .terminate]
  | .noRepeatConfigured, o => o ∈ [.beginRepeat, .appendRepeats]
  | .unknownProtocol, o => o == .classify
  | .notImplemented, o => o == .decode
  | .illegalCommand, _ => false
  | .capacity, o =>
    o ∈ [.specLeader, .specBit1, .specBit0, .specRpt, .begin, .appendTime, .appendBit, .appendBits, .appendG4, .appendG8,
      .terminate, .beginRepeat, .appendRepeats, .rdHist, .toTicks, .toWire, .classify, .decode]

end Sys2Proof.Machine
end

