-- ==== Sys2Proof/Certificates/Slice0/Obligations.lean ====
section
/-! DEFINITION. The statements for the provers. A statement `exec i s = .next t` with `t` written out from `s` also says which
fields of the state do not change. `answered` and `errored` are the two ways a command ends (`Sys2Proof/Safety.lean`). -/

open Sys2Proof Sys2Proof.Machine

/-! ## Encoding -/

/-- Decoding the packet of a well-formed command gives the command back (R65 to R73, R76, R77). -/
def Obligations.DecodeOfEncode : Prop := ∀ i : Instr, wellFormed i = true → decode (encode i) = .ok i

/-- Only the packets that the encoder writes are commands, so no must-be-zero bit is ignored (R78, R80). -/
def Obligations.OnlyEncodingsDecode : Prop :=
  ∀ (p : Packet) (i : Instr), decode p = .ok i → wellFormed i = true ∧ encode i = p

/-- A packet that encodes no command is rejected: with `MalformedInputError` when its header is a G4_FROM or G8_FROM header of
no recognised shape, whatever its length, and with `IllegalCommandError` otherwise; the received `op` is echoed and nothing
but the status, the response and the consumed packet changes (R77 to R80, R225, R228). -/
def Obligations.NoncommandsAreRejected : Prop :=
  ∀ (s : State) (p : Packet) (rest : List Packet),
    s.resetPin = false → s.cmd = p :: rest → (∀ i, wellFormed i = true → encode i ≠ p) →
    let op : Byte := p.head.extractLsb' 24 8
    let a : Byte := p.head.extractLsb' 16 8
    let n : Half := p.head.extractLsb' 0 16
    let noShape := (op = 0x11 ∨ op = 0x12) ∧ (3 ≤ a.toNat ∨ (a = 0 ∧ n ≠ 0))
    (noShape → step s = .next (errored op .malformedInput { s with cmd := rest }))
      ∧ (¬ noShape → step s = .next (errored op .illegalCommand { s with cmd := rest }))

/-- A few packets written out from the spec's examples decode to the commands they stand for. -/
def Obligations.WrittenOutPacketsDecode : Prop :=
  decode ⟨0x13080061, []⟩ = .ok (.toBits8 0x61)
    ∧ decode ⟨0x11020004, [0x101, 0x300, 0x102, 0x001]⟩ = .ok (.g4FromArr [.int 1, .other 0, .int 2, .bool true])
    ∧ decode ⟨0x21000000, [0x00023200]⟩ = .ok (.specT 0x23200)
    ∧ decode ⟨0x24000002, [0x40001000, 0x60000280]⟩ = .ok (.specLeader [⟨1, 0, 0x1000⟩, ⟨1, 2, 0x280⟩])
    ∧ decode ⟨0x33000008, [0x20000000]⟩ = .ok (.appendBits [false, false, true, false, false, false, false, false])
    ∧ decode ⟨0x38000002, []⟩ = .ok (.appendRepeats 2)
    ∧ decode ⟨0x3A000000, []⟩ = .ok .toWire
    ∧ decode ⟨0x40000002, [0x4640, 0x2320]⟩ = .ok (.classify [17984, 8992])
    ∧ decode ⟨0x01000000, []⟩ = .ok .rdStatus

/-- Packing (R73): a bit list is carried by its packed words, and packed operand words are read as the list they carry; words
with an unused low bit set are rejected. -/
def Obligations.PackedBitLists : Prop :=
  (∀ bits : List Bool, carriesBits (packBits bits) bits)
    ∧ (∀ (n : Nat) (ws : List Word), ws.length = (n + 31) / 32 →
        (∀ bits : List Bool, decodeBits n ws = .ok bits ↔ bits.length = n ∧ carriesBits ws bits)
          ∧ ((∀ bits : List Bool, bits.length = n → ¬ carriesBits ws bits) → decodeBits n ws = .error .badOperandWord))
    ∧ decodeErrCode .badOperandWord = .illegalCommand
    ∧ packBits [] = []
    ∧ packBits [false, true, true, false, false, false, false, true] = [0x61000000]

/-! ## Steps and errors -/

/-- A step runs the decoded command: a well-formed command whose packet is next on `CMD` runs, with its packet taken (R22). -/
def Obligations.StepRunsTheDecodedCommand : Prop :=
  ∀ (s : State) (p : Packet) (rest : List Packet) (i : Instr),
    s.resetPin = false → s.cmd = p :: rest → decode p = .ok i → step s = exec i { s with cmd := rest }

/-- Reset (R33): the state after reset, and after a step with the reset input asserted, has every value of R33's table. -/
def Obligations.ResetValues : Prop :=
  let empty : Spec := { t := 0, leader := [], bit1 := [], bit0 := [], stop := none, frame := 0, rpt := [] }
  let isReset (t : State) : Prop :=
    t.spec = empty ∧ t.aspec = empty ∧ t.frames = [] ∧ t.hist = [] ∧ t.rptIdx = 0 ∧ t.ctrlObs = false
      ∧ t.statusErr = 0 ∧ t.statusDiag = 0 ∧ t.lastErr = { code := 0, opcode := 0 } ∧ t.rsp = [] ∧ t.obs = []
  isReset State.reset ∧ ∀ s : State, s.resetPin = true → ∃ t, step s = .next t ∧ isReset t

/-- The response header (R74): `op`, `err`, `diag`, a zero bit, `M`. The error codes (R220). What an error leaves (R228): its sticky
bit, its code and opcode, one header word, and nothing else. -/
def Obligations.ResponseHeaderAndErrorCodes : Prop :=
  (∀ (op : Byte) (err : BitVec 4) (diag : BitVec 3) (m : Nat), m < 65536 →
    (respHeader op err diag m).toNat = op.toNat * 2 ^ 24 + err.toNat * 2 ^ 20 + diag.toNat * 2 ^ 17 + m)
  ∧ (List.map errNumber
      [.malformedInput, .frameClosed, .noRepeatConfigured, .unknownProtocol, .notImplemented, .illegalCommand, .capacity]
    = [1, 2, 3, 4, 5, 6, 7])
  ∧ ∀ (op : Byte) (e : ErrCode) (s : State),
      errored op e s
        = { s with
            statusErr := (errored op e s).statusErr
            lastErr := { code := errNumber e, opcode := op }
            rsp := s.rsp ++ [{ head := BitVec.ofNat 32 (op.toNat * 2 ^ 24 + (errNumber e).toNat * 2 ^ 20), tail := [] }] }
        ∧ ∀ k : Nat, k < 8 →
            (errored op e s).statusErr.getLsbD k = (s.statusErr.getLsbD k || decide (k = (errNumber e).toNat))

/-- Error entry (R228): every packet taken from `CMD` gets exactly one response, which echoes its `op`. When the response has
`err = c ≠ 0`, everything the command wrote is undone: the state is the one before it with sticky bit `c` set, `LASTERR` set to
`(c, op)` and a single header word with `diag = 0` and `M = 0` appended to `RSP`. -/
def Obligations.ErrorsUndoTheCommand : Prop :=
  ∀ (s : State) (p : Packet) (rest : List Packet), s.resetPin = false → s.cmd = p :: rest →
    ∃ t r, step s = .next t ∧ t.cmd = rest ∧ t.rsp = s.rsp ++ [r] ∧ packetOp r = packetOp p
      ∧ (responseErr r ≠ 0 →
          r = { head := respHeader (packetOp p) (responseErr r) 0 0, tail := [] }
            ∧ t = { s with
                    cmd := rest
                    statusErr := s.statusErr ||| (1#8 <<< (responseErr r).toNat)
                    lastErr := { code := responseErr r, opcode := packetOp p }
                    rsp := s.rsp ++ [r] })

/-- Success (R74, R231): a response with `err = 0` counts its payload in `M`, the error bookkeeping is unchanged, and the
command's diagnostics are ORed into `STATUS.DIAG`. -/
def Obligations.SuccessKeepsTheErrorState : Prop :=
  ∀ (i : Instr) (s : State),
    ∃ t r, exec i s = .next t ∧ t.rsp = s.rsp ++ [r] ∧ r.head.getLsbD 16 = false
      ∧ (r.head.extractLsb' 0 16).toNat = r.tail.length
      ∧ (responseErr r = 0 →
          t.statusErr = s.statusErr ∧ t.lastErr = s.lastErr ∧ t.statusDiag = s.statusDiag ||| responseDiag r)

/-- No step but a reset clears a sticky flag (R30, R229). -/
def Obligations.StickyFlagsStay : Prop :=
  ∀ s t : State, s.resetPin = false → step s = .next t →
    s.statusErr &&& t.statusErr = s.statusErr ∧ s.statusDiag &&& t.statusDiag = s.statusDiag

/-- Which commands raise which error (R220): a well-formed command whose response carries code `c ≠ 0` raised an error with that
code which the table allows it. -/
def Obligations.ErrorsComeFromTheirCommands : Prop :=
  ∀ (i : Instr) (s t : State) (r : Packet), wellFormed i = true → exec i s = .next t → t.rsp = s.rsp ++ [r] →
    responseErr r ≠ 0 → ∃ e, errNumber e = responseErr r ∧ mayRaise e i.opcode = true

/-- With every open capacity unbounded (R226), a command answers `CapacityError` exactly when it would emit a payload above
`MAX_RSP_WORDS`, 65535 words: a long history for RD_HIST, a long tick array for TO_TICKS and TO_WIRE, a long guess for DECODE (of an
array longer than any packet carries, so DECODE alone need not be well-formed here). -/
def Obligations.CapacityOnlyFromALongPayload : Prop :=
  ∀ (i : Instr) (s t : State) (r : Packet), unbounded s.cfg = true → (i.opcode ≠ .decode → wellFormed i = true) →
    exec i s = .next t → t.rsp = s.rsp ++ [r] →
    (responseErr r = 7 ↔
      (i = .rdHist ∧ 65535 < 1 + (s.hist.length + 31) / 32)
        ∨ (i = .toTicks ∧ 65535 < (flatten s.frames).length)
        ∨ (i = .toWire ∧ 65535 < 1 + (flatten s.frames).length)
        ∨ ∃ ks g, i = .decode ks ∧ decodeGuess s.cfg (ks.map fun k => (k.toNat : Rat) / 2) = .ok g
            ∧ 65535 < 2 + (g.frames.flatMap frameWords).length)

/-! ## System commands -/

/-- RD_STATUS (R210): its six words, and nothing else changes. The lengths are those the words can carry. -/
def Obligations.RdStatusWords : Prop :=
  ∀ s : State, s.frames.length < 65536 → s.hist.length < 2 ^ 32 →
    (∀ f, s.frames.getLast? = some f → f.entries.length < 2 ^ 32) →
    ∃ w0 w1 w2 w3 w4 w5 : Word,
      exec .rdStatus s = .next (answered 0x01 0 [w0, w1, w2, w3, w4, w5] s)
        ∧ w0.toNat = s.ctrlObs.toNat * 65536 + s.statusDiag.toNat * 256 + s.statusErr.toNat
        ∧ w1.toNat = s.lastErr.opcode.toNat * 256 + s.lastErr.code.toNat
        ∧ (∀ f, openFrame s f → w2.toNat = 65536 + s.frames.length)
        ∧ (noOpenFrame s → w2.toNat = s.frames.length)
        ∧ w3.toNat = s.rptIdx.toNat
        ∧ w4.toNat = s.hist.length
        ∧ (s.frames = [] → w5 = 0)
        ∧ ∀ f, s.frames.getLast? = some f → w5.toNat = f.entries.length

/-- OBS_CTRL (R130) writes `CTRL.OBS` and answers with an empty payload. -/
def Obligations.ObsCtrlWritesTheEnable : Prop :=
  ∀ (en : Bool) (s : State), exec (.obsCtrl en) s = .next (answered 0x02 0 [] { s with ctrlObs := en })

/-- RD_HIST (R160): the count, then the history packed oldest first; `CapacityError` when that exceeds `MAX_RSP_WORDS`. -/
def Obligations.RdHistReadsTheHistory : Prop :=
  decode ⟨0x03000000, []⟩ = .ok .rdHist
    ∧ ∀ s : State,
        (1 + (s.hist.length + 31) / 32 ≤ 65535 →
          ∃ ws, carriesBits ws s.hist
            ∧ exec .rdHist s = .next (answered 0x03 0 (BitVec.ofNat 32 s.hist.length :: ws) s))
        ∧ (65535 < 1 + (s.hist.length + 31) / 32 → exec .rdHist s = .next (errored 0x03 .capacity s))

/-! ## Bit-grouping -/

/-- BIT_FROM (R101): `true`, the integer 1 and the character `"1"` give 1, everything else 0. That `"1"` is 0x31 is marked by the
spec as general knowledge (log entry 13). -/
def Obligations.BitFromNormalises : Prop :=
  ∀ (v : BitLike) (s : State),
    ((v = .bool true ∨ v = .int 1 ∨ v = .char 0x31) → exec (.bitFrom v) s = .next (answered 0x10 0 [1] s))
      ∧ (¬ (v = .bool true ∨ v = .int 1 ∨ v = .char 0x31) → exec (.bitFrom v) s = .next (answered 0x10 0 [0] s))

/-- G4_FROM and G8_FROM of an integer discard the high bits without a diagnostic; of an array of bit-like values, element 0 is the
most significant bit and any other length is malformed (R103, R104). -/
def Obligations.GroupFromIntegerOrArray : Prop :=
  ∀ (v : Word) (elems : List BitLike) (s : State),
    exec (.g4FromInt v) s = .next (answered 0x11 0 [BitVec.ofNat 32 (v.toNat % 16)] s)
      ∧ exec (.g8FromInt v) s = .next (answered 0x12 0 [BitVec.ofNat 32 (v.toNat % 256)] s)
      ∧ (elems.length = 4 →
          exec (.g4FromArr elems) s = .next (answered 0x11 0 [BitVec.ofNat 32 (groupSum (elems.map bitFrom))] s))
      ∧ (elems.length ≠ 4 → exec (.g4FromArr elems) s = .next (errored 0x11 .malformedInput s))
      ∧ (elems.length = 8 →
          exec (.g8FromArr elems) s = .next (answered 0x12 0 [BitVec.ofNat 32 (groupSum (elems.map bitFrom))] s))
      ∧ (elems.length ≠ 8 → exec (.g8FromArr elems) s = .next (errored 0x12 .malformedInput s))

/-- G4_FROM and G8_FROM of a string: a binary string of the group's width, first character most significant; at width 8 also one
character, by its code; every other string is malformed (R103, R104; character codes: log entry 13). -/
def Obligations.GroupFromString : Prop :=
  let code (b : Bool) : Byte := if b then 0x31 else 0x30
  (∀ (bits : List Bool) (s : State),
    (bits.length = 4 → exec (.g4FromStr (bits.map code)) s = .next (answered 0x11 0 [BitVec.ofNat 32 (groupSum bits)] s))
      ∧ (bits.length = 8 → exec (.g8FromStr (bits.map code)) s = .next (answered 0x12 0 [BitVec.ofNat 32 (groupSum bits)] s)))
  ∧ (∀ (c : Byte) (s : State), exec (.g8FromStr [c]) s = .next (answered 0x12 0 [BitVec.ofNat 32 c.toNat] s))
  ∧ ∀ (chars : List Byte) (s : State),
      ((chars.length ≠ 4 ∨ ∃ c ∈ chars, c ≠ 0x30 ∧ c ≠ 0x31) →
        exec (.g4FromStr chars) s = .next (errored 0x11 .malformedInput s))
      ∧ (chars.length ≠ 1 → (chars.length ≠ 8 ∨ ∃ c ∈ chars, c ≠ 0x30 ∧ c ≠ 0x31) →
          exec (.g8FromStr chars) s = .next (errored 0x12 .malformedInput s))

/-- TO_BITS (R105): the count word, then the bits of the group, most significant first, in one packed word. -/
def Obligations.ToBitsExpands : Prop :=
  (∀ (g : BitVec 4) (s : State), ∃ w : Word,
    exec (.toBits4 g) s = .next (answered 0x13 0 [4, w] s)
      ∧ ∀ k, k < 32 → w.getLsbD (31 - k) = (decide (k < 4) && g.getLsbD (3 - k)))
  ∧ ∀ (g : BitVec 8) (s : State), ∃ w : Word,
      exec (.toBits8 g) s = .next (answered 0x13 0 [8, w] s)
        ∧ ∀ k, k < 32 → w.getLsbD (31 - k) = (decide (k < 8) && g.getLsbD (7 - k))

/-- REVERSE (R106): bit `k` of the result is bit `W-1-k` of the group. FLIP (R107): the result is `(2^W - 1) - g`. No bit above the
group is set. -/
def Obligations.ReverseAndFlip : Prop :=
  (∀ (g : BitVec 4) (s : State),
    exec (.flip4 g) s = .next (answered 0x15 0 [BitVec.ofNat 32 (15 - g.toNat)] s)
      ∧ ∃ w : Word, exec (.reverse4 g) s = .next (answered 0x14 0 [w] s)
          ∧ ∀ k, k < 32 → w.getLsbD k = (decide (k < 4) && g.getLsbD (3 - k)))
  ∧ ∀ (g : BitVec 8) (s : State),
      exec (.flip8 g) s = .next (answered 0x15 0 [BitVec.ofNat 32 (255 - g.toNat)] s)
        ∧ ∃ w : Word, exec (.reverse8 g) s = .next (answered 0x14 0 [w] s)
            ∧ ∀ k, k < 32 → w.getLsbD k = (decide (k < 8) && g.getLsbD (7 - k))

/-- PACK (R108): group `j` is the bits `j*W .. j*W + W-1`, zeros after the last bit, and `PADDED` when the bit count is no
multiple of the width. -/
def Obligations.PackBuildsGroups : Prop :=
  ∀ (bits : List Bool) (s : State), bits.length < 65536 →
    exec (.pack4 bits) s
      = .next (answered 0x16 (if bits.length % 4 = 0 then 0 else 1)
          ((List.range ((bits.length + 3) / 4)).map fun j =>
            BitVec.ofNat 32 (groupSum ((List.range 4).map fun k => bits.getD (4 * j + k) false))) s)
    ∧ exec (.pack8 bits) s
        = .next (answered 0x16 (if bits.length % 8 = 0 then 0 else 1)
            ((List.range ((bits.length + 7) / 8)).map fun j =>
              BitVec.ofNat 32 (groupSum ((List.range 8).map fun k => bits.getD (8 * j + k) false))) s)

/-- The law of R105: TO_BITS gives back the bits of the array that G4_FROM or G8_FROM was given. -/
def Obligations.ToBitsUndoesGroupFrom : Prop :=
  ∀ (bits : List Bool) (s : State),
    (bits.length = 4 → ∃ (g : BitVec 4) (w : Word),
      exec (.g4FromArr (bits.map .bool)) s = .next (answered 0x11 0 [g.setWidth 32] s)
        ∧ exec (.toBits4 g) s = .next (answered 0x13 0 [4, w] s) ∧ carriesBits [w] bits)
    ∧ (bits.length = 8 → ∃ (g : BitVec 8) (w : Word),
        exec (.g8FromArr (bits.map .bool)) s = .next (answered 0x12 0 [g.setWidth 32] s)
          ∧ exec (.toBits8 g) s = .next (answered 0x13 0 [8, w] s) ∧ carriesBits [w] bits)

/-! ## Encoder configuration -/

/-- Every token word denotes exactly one token or is malformed (R67, R79 (1)). -/
def Obligations.TokenWordsDenoteTokens : Prop :=
  ∀ w : Word,
    let f := decodeToken w
    f.kind = w.extractLsb' 30 2 ∧ f.pol = w.extractLsb' 28 2 ∧ f.mag = w.extractLsb' 0 28
      ∧ (malformedToken f = true → parseToken f = .error .malformedInput)
      ∧ (malformedToken f = false → ∃ t, parseToken f = .ok t ∧ tokenField t = f ∧ ∀ u, tokenField u = f → u = t)

/-- SPEC_CLEAR, SPEC_T, SPEC_FRAME and SPEC_STOP (R122 to R125) write their part of `SPEC`; a malformed stop token is an error. -/
def Obligations.SpecFieldsAndStop : Prop :=
  ∀ (v : UQ) (t : Token) (f : TokenField) (s : State),
    exec .specClear s
        = .next (answered 0x20 0 []
            { s with spec := { t := 0, leader := [], bit1 := [], bit0 := [], stop := none, frame := 0, rpt := [] } })
      ∧ exec (.specT v) s = .next (answered 0x21 0 [] { s with spec := { s.spec with t := v } })
      ∧ exec (.specFrame v) s = .next (answered 0x22 0 [] { s with spec := { s.spec with frame := v } })
      ∧ exec (.specStop none) s = .next (answered 0x23 0 [] { s with spec := { s.spec with stop := none } })
      ∧ exec (.specStop (some (tokenField t))) s
          = .next (answered 0x23 0 [] { s with spec := { s.spec with stop := some t } })
      ∧ (malformedToken f = true → exec (.specStop (some f)) s = .next (errored 0x23 .malformedInput s))

/-- SPEC_LEADER, SPEC_BIT1 and SPEC_BIT0 (R126 to R128, R121): the list is replaced when it is within `MAX_TOKENS`; a longer one
is `CapacityError`; a malformed token, checked first, is `MalformedInputError`. -/
def Obligations.SpecShapesReplaceTheirList : Prop :=
  ∀ (ts : List Token) (fs : List TokenField) (s : State),
    (fits s.cfg.maxTokens ts.length = true →
      exec (.specLeader (ts.map tokenField)) s = .next (answered 0x24 0 [] { s with spec := { s.spec with leader := ts } })
        ∧ exec (.specBit1 (ts.map tokenField)) s = .next (answered 0x25 0 [] { s with spec := { s.spec with bit1 := ts } })
        ∧ exec (.specBit0 (ts.map tokenField)) s = .next (answered 0x26 0 [] { s with spec := { s.spec with bit0 := ts } }))
    ∧ (fits s.cfg.maxTokens ts.length = false →
        exec (.specLeader (ts.map tokenField)) s = .next (errored 0x24 .capacity s)
          ∧ exec (.specBit1 (ts.map tokenField)) s = .next (errored 0x25 .capacity s)
          ∧ exec (.specBit0 (ts.map tokenField)) s = .next (errored 0x26 .capacity s))
    ∧ (fs.any malformedToken = true →
        exec (.specLeader fs) s = .next (errored 0x24 .malformedInput s)
          ∧ exec (.specBit1 fs) s = .next (errored 0x25 .malformedInput s)
          ∧ exec (.specBit0 fs) s = .next (errored 0x26 .malformedInput s))

/-- SPEC_RPT (R129, R121) appends one pair of a header and a target, within `MAX_TOKENS` and `MAX_RPT`. -/
def Obligations.SpecRptAppendsOneEntry : Prop :=
  ∀ (ts : List Token) (fs : List TokenField) (target : UQ) (s : State),
    (fits s.cfg.maxTokens ts.length = true → fits s.cfg.maxRpt (s.spec.rpt.length + 1) = true →
      exec (.specRpt (ts.map tokenField) target) s
        = .next (answered 0x27 0 []
            { s with spec := { s.spec with rpt := s.spec.rpt ++ [{ header := ts, target := target }] } }))
    ∧ ((fits s.cfg.maxTokens ts.length = false ∨ fits s.cfg.maxRpt (s.spec.rpt.length + 1) = false) →
        exec (.specRpt (ts.map tokenField) target) s = .next (errored 0x27 .capacity s))
    ∧ (fs.any malformedToken = true → exec (.specRpt fs target) s = .next (errored 0x27 .malformedInput s))

/-- The SPEC_* commands write `SPEC` and nothing else (R120), record no diagnostic and answer without payload. -/
def Obligations.SpecCommandsWriteSpecOnly : Prop :=
  ∀ (i : Instr) (s : State), isSpecCommand i.opcode = true →
    ∃ t r, exec i s = .next t ∧ r.tail = [] ∧ responseDiag r = 0
      ∧ t = { s with
              spec := t.spec
              statusErr := t.statusErr
              lastErr := t.lastErr
              rsp := s.rsp ++ [r] }

/-- `SPEC` is read only by BEGIN (R23, R248): no command other than BEGIN and the SPEC_* commands depends on it or changes it. -/
def Obligations.SpecIsReadOnlyByBegin : Prop :=
  ∀ (i : Instr) (p : Spec) (s : State), i.opcode ≠ .begin → isSpecCommand i.opcode = false →
    ∃ t, exec i s = .next t ∧ t.spec = s.spec ∧ exec i { s with spec := p } = .next { t with spec := p }

/-- `SPEC_NEC` (R87): its seven commands leave the NEC spec, whatever `SPEC` was. -/
def Obligations.SpecNecLeavesTheNecSpec : Prop :=
  ∀ s : State, fits s.cfg.maxTokens 2 = true →
    ∃ t, runCommands specNecCommands s = .next t
      ∧ t = { s with
              spec := necSpec
              rsp := s.rsp ++ [0x20000000, 0x21000000, 0x24000000, 0x25000000, 0x26000000, 0x23000000, 0x22000000].map
                fun h => { head := h, tail := [] } }

/-! ## Encoder frames -/

/-- `AppendToken` (R144), with `Resolve` (R143) written out: an untagged token of value 0 is dropped with `ZERODROP`; any other
untagged token is appended; a tagged token is appended in a slot of its polarity, after a filler where the next slot has the
other polarity. An empty frame's next slot is a pulse. -/
def Obligations.AppendTokenRule : Prop :=
  ∀ (t : Rat) (entries : List Entry) (d : BitVec 3) (mag : UQ) (kind : TokenKind),
    let m : Rat := (mag.toNat : Rat) / 256
    let v : Rat := if kind = .multT then m * t else m
    let e : Entry := if kind = .ticks then .tk v else .us v
    (v = 0 → appendToken t (entries, d) ⟨kind, mag, none⟩ = (entries, d ||| 0b010))
      ∧ (v ≠ 0 → appendToken t (entries, d) ⟨kind, mag, none⟩ = (entries ++ [e], d))
      ∧ (entries.length % 2 = 0 →
          appendToken t (entries, d) ⟨kind, mag, some .high⟩ = (entries ++ [e], d)
            ∧ appendToken t (entries, d) ⟨kind, mag, some .low⟩ = (entries ++ [.tk 0, e], d))
      ∧ (entries.length % 2 = 1 →
          appendToken t (entries, d) ⟨kind, mag, some .high⟩ = (entries ++ [.tk 0, e], d)
            ∧ appendToken t (entries, d) ⟨kind, mag, some .low⟩ = (entries ++ [e], d))

/-- Alternation (R158): building a frame never changes an entry already there, a tagged token lands in a slot of its tag, and
every non-zero padding entry lands in a space slot. -/
def Obligations.EntriesLandInTheirSlots : Prop :=
  ∀ (t : Rat) (entries : List Entry) (d : BitVec 3),
    (∀ toks : List Token, entries <+: (appendTokens t toks (entries, d)).1)
    ∧ (∀ (tok : Token) (p : Level), tok.pol = some p →
        ∃ k, (appendToken t (entries, d) tok).1[k]? = some (resolve t tok)
          ∧ k + 1 = (appendToken t (entries, d) tok).1.length ∧ k % 2 = (if p = .high then 0 else 1))
    ∧ ∀ target : Rat,
        entries <+: (padClose target (entries, d)).1
          ∧ ∀ (k : Nat) (e : Entry), entries.length ≤ k → (padClose target (entries, d)).1[k]? = some e →
              entryValue e ≠ 0 → k % 2 = 1

/-- BEGIN (R141): the spec is latched, the session is one open frame with the leader, the history and the repeat index are
cleared; `CapacityError` when that exceeds a capacity (R159). -/
def Obligations.BeginStartsASession : Prop :=
  ∀ s : State,
    let b := appendTokens (uqVal s.spec.t) s.spec.leader ([], 0)
    let ok := fits s.cfg.maxEntries b.1.length && fits s.cfg.maxFrames 1
    (ok = true →
      exec .begin s
        = .next (answered 0x30 b.2 []
            { s with aspec := s.spec, frames := [{ entries := b.1, closed := false }], hist := [], rptIdx := 0 }))
      ∧ (ok = false → exec .begin s = .next (errored 0x30 .capacity s))

/-- APPEND_TIME (R145): malformed tokens are reported first, then the missing open frame, then a capacity; otherwise the tokens
are appended to the current frame in order, with the base unit of `ASPEC`.
In a state where some other list is above a capacity, which no run reaches (`StepKeepsTheInvariant`), the capacity check of the
whole session is the model's reading of R159 (DEDUCED, log entry 10). -/
def Obligations.AppendTimeAppendsTokens : Prop :=
  ∀ (ts : List Token) (fs : List TokenField) (s : State),
    (∀ f, openFrame s f →
      let b := appendTokens (uqVal s.aspec.t) ts (f.entries, 0)
      let t := { s with frames := s.frames.dropLast ++ [{ entries := b.1, closed := false }] }
      (sessionFits t = true → exec (.appendTime (ts.map tokenField)) s = .next (answered 0x31 b.2 [] t))
        ∧ (sessionFits t = false → exec (.appendTime (ts.map tokenField)) s = .next (errored 0x31 .capacity s)))
    ∧ (noOpenFrame s → exec (.appendTime (ts.map tokenField)) s = .next (errored 0x31 .frameClosed s))
    ∧ (fs.any malformedToken = true → exec (.appendTime fs) s = .next (errored 0x31 .malformedInput s))

/-- APPEND_BIT, APPEND_BITS, APPEND_G4 and APPEND_G8 (R146 to R150): each bit, element 0 or the most significant first, appends
its shape to the open frame and itself to the history, and emits an observer word when `CTRL.OBS` is set; all or nothing.
In a state where some other list is above a capacity, which no run reaches (`StepKeepsTheInvariant`), the capacity check of the
whole session is the model's reading of R159 (DEDUCED, log entry 10); the clause for no bits
stays within the capacities for the same reason. -/
def Obligations.AppendBitCommandsAppendBits : Prop :=
  ∀ (i : Instr) (op : Byte) (bits : List Bool) (s : State), appendedBits i = some (op, bits) →
    (∀ f, openFrame s f →
      (sessionFits (afterBits f bits s) = true →
        exec i s = .next (answered op (bitsBuilt s.aspec f.entries bits).2 [] (afterBits f bits s)))
        ∧ (sessionFits (afterBits f bits s) = false → exec i s = .next (errored op .capacity s)))
    ∧ (noOpenFrame s → bits ≠ [] → exec i s = .next (errored op .frameClosed s))
    ∧ (bits = [] → sessionFits s = true → exec i s = .next (answered op 0 [] s))

/-- The order in which the append commands send bits (R147 to R150), and the observer words (R146): on an open frame, within the
capacities, the history grows by the bits sent, most significant first for a group; with `CTRL.OBS` set `OBS` grows by one word a
bit, bit 16 the bit, bits 15:0 the index it got in the history modulo 65536 and nothing above; with it clear `OBS` stays. -/
def Obligations.AppendedBitsAndObserverWords : Prop :=
  ∀ (s : State) (f : Frame), openFrame s f →
    let sends (i : Instr) (bits : List Bool) : Prop :=
      sessionFits (afterBits f bits s) = true →
        ∃ (t : State) (ws : List Word), exec i s = .next t ∧ t.hist = s.hist ++ bits ∧ t.obs = s.obs ++ ws
          ∧ (s.ctrlObs = false → ws = [])
          ∧ (s.ctrlObs = true → ws.length = bits.length
              ∧ ∀ k (h : k < bits.length), ∃ w, ws[k]? = some w
                  ∧ w.toNat = bits[k].toNat * 65536 + (s.hist.length + k) % 65536)
    (∀ b : Bool, sends (.appendBit b) [b])
      ∧ (∀ bits : List Bool, sends (.appendBits bits) bits)
      ∧ (∀ g : BitVec 4, sends (.appendG4 g) ((List.range 4).map fun k => g.getLsbD (3 - k)))
      ∧ ∀ g : BitVec 8, sends (.appendG8 g) ((List.range 8).map fun k => g.getLsbD (7 - k))

/-- `PadClose` (R151, R152) on a frame's entries: no padding without a target; a gap of `full * 65535 + rest` ticks becomes that
many full pieces, a filler after each, and the rest, behind a filler when the next slot is a pulse; a gap that rounds to 0 adds
nothing; an over-length frame keeps its content and records `OVERLEN`. -/
def Obligations.PadCloseRule : Prop :=
  ∀ (target : Rat) (entries : List Entry) (d : BitVec 3), 0 ≤ target →
    let total : Rat := (entries.map fun e => match e with | .us q => q | .tk q => q / 2).sum
    (target = 0 → padClose target (entries, d) = (entries, d))
    ∧ (target ≠ 0 → target = total → padClose target (entries, d) = (entries, d))
    ∧ (target ≠ 0 → target < total → padClose target (entries, d) = (entries, d ||| 0b100))
    ∧ (target ≠ 0 → total < target → rhu (2 * (target - total)) = 0 → padClose target (entries, d) = (entries, d))
    ∧ ∀ full rest : Nat, 1 ≤ rest → rest ≤ 65535 → target ≠ 0 → total < target →
        rhu (2 * (target - total)) = full * 65535 + rest →
        padClose target (entries, d)
          = (entries ++ (if entries.length % 2 = 0 then [.tk 0] else [])
              ++ (List.replicate full [Entry.tk 65535, Entry.tk 0]).flatten ++ [.tk (rest : Rat)], d)

/-- TERMINATE (R153): the stop token, then padding to the target, then closed; `FrameClosedError` without an open frame.
In a state where some other list is above a capacity, which no run reaches (`StepKeepsTheInvariant`), the capacity check of the
whole session is the model's reading of R159 (DEDUCED, log entry 10). -/
def Obligations.TerminateClosesTheFrame : Prop :=
  ∀ s : State,
    (∀ f, openFrame s f →
      let b := padClose (uqVal s.aspec.frame) (appendTokens (uqVal s.aspec.t) s.aspec.stop.toList (f.entries, 0))
      let t := { s with frames := s.frames.dropLast ++ [{ entries := b.1, closed := true }] }
      (sessionFits t = true → exec .terminate s = .next (answered 0x36 b.2 [] t))
        ∧ (sessionFits t = false → exec .terminate s = .next (errored 0x36 .capacity s)))
    ∧ (noOpenFrame s → exec .terminate s = .next (errored 0x36 .frameClosed s))

/-- Padding exactness (R154): a frame that TERMINATE closed, whose content was below the target, lasts the target to within a
quarter microsecond, and exactly when the gap is a whole number of ticks. -/
def Obligations.TerminatePadsToTheTarget : Prop :=
  ∀ (s t : State) (f g : Frame), openFrame s f → exec .terminate s = .next t → t.frames.getLast? = some g → g.closed = true →
    let target := uqVal s.aspec.frame
    let content := dur (appendTokens (uqVal s.aspec.t) s.aspec.stop.toList (f.entries, 0)).1
    0 < target → content < target →
      |target - dur g.entries| ≤ 1 / 4 ∧ ((∃ n : Nat, 2 * (target - content) = n) → dur g.entries = target)

/-- BEGIN_REPEAT and APPEND_REPEATS (R155 to R157): each step appends one closed frame built from the entry for its repeat index
(the last is reused) with no stop token, and advances the saturating index; all or nothing; `NoRepeatConfiguredError` without a
repeat entry. No step raises nothing.
In a state where some other list is above a capacity, which no run reaches (`StepKeepsTheInvariant`), the capacity check of the
whole session is the model's reading of R159 (DEDUCED, log entry 10); the clause for no step
stays within the capacities for the same reason. With more than 65536 repeat entries, where R28 and the pseudocode of R155 pull
apart, the saturated index that picks the entry is the model's reading (DEDUCED, unsafe there, log entry 17). -/
def Obligations.RepeatCommandsAppendFrames : Prop :=
  ∀ (i : Instr) (op : Byte) (n : Nat) (s : State), repeatCount i = some (op, n) →
    (s.aspec.rpt ≠ [] → sessionFits (afterRepeats n s) = true →
      exec i s = .next (answered op (repeatsDiag n s) [] (afterRepeats n s)))
    ∧ (s.aspec.rpt ≠ [] → sessionFits (afterRepeats n s) = false → exec i s = .next (errored op .capacity s))
    ∧ (s.aspec.rpt = [] → n ≠ 0 → exec i s = .next (errored op .noRepeatConfigured s))
    ∧ (s.aspec.rpt = [] → n = 0 → sessionFits s = true → exec i s = .next (answered op 0 [] s))

/-- What a session keeps until the next BEGIN (R24, R27 to R29, R245, R246): the active spec is as latched, the history and the
repeat index only grow, every frame but an open current one is as it was, an open current frame keeps its place and its entries
(more may follow them), `CTRL.OBS` is written only by OBS_CTRL, and no observer word appears while it is 0. -/
def Obligations.SessionsOnlyGrow : Prop :=
  ∀ (i : Instr) (s t : State), exec i s = .next t →
    (i ≠ .begin →
      t.aspec = s.aspec ∧ s.hist <+: t.hist ∧ s.rptIdx ≤ t.rptIdx ∧ s.frames.dropLast <+: t.frames
        ∧ (noOpenFrame s → s.frames <+: t.frames)
        ∧ ∀ f, openFrame s f → ∃ g, t.frames[s.frames.length - 1]? = some g ∧ f.entries <+: g.entries)
    ∧ (i.opcode ≠ .obsCtrl → t.ctrlObs = s.ctrlObs)
    ∧ s.obs <+: t.obs
    ∧ (s.ctrlObs = false → t.obs = s.obs)

/-! ## Encoder output -/

/-- Rounding (R12): `rhu` is `floor (x + 1/2)`, the nearest integer, the upper one at a tie. -/
def Obligations.RoundHalfUp : Prop :=
  ∀ x : Rat, 0 ≤ x →
    ((rhu x : Int) = ⌊x + 1 / 2⌋)
      ∧ ∀ n : Nat, |x - rhu x| ≤ |x - n| ∧ (|x - n| = |x - rhu x| → n ≤ rhu x)

/-- `ToTick` (R171): microseconds are doubled and rounded, ticks only rounded. `Split` (R172): greedy pieces of 65535, a zero after
each, the remainder last; the pieces at even positions sum to the value, no element exceeds 65535, and the length is odd.
`Flatten` (R173): every entry's pieces, frame after frame, open or closed, with nothing between. -/
def Obligations.FlattenRule : Prop :=
  (∀ q : Rat, toTick (.us q) = rhu (2 * q) ∧ toTick (.tk q) = rhu q)
  ∧ (∀ t : Nat,
      (t ≤ 65535 → split t = [t])
        ∧ (65535 < t → split t = 65535 :: 0 :: split (t - 65535))
        ∧ (((split t).zipIdx.filter fun p => p.2 % 2 == 0).map Prod.fst).sum = t
        ∧ (∀ k ∈ split t, k ≤ 65535)
        ∧ (split t).length % 2 = 1)
  ∧ ∀ (e : Entry) (es : List Entry) (closed : Bool) (fs : List Frame),
      flatten [] = []
        ∧ flatten ({ entries := [], closed := closed } :: fs) = flatten fs
        ∧ flatten ({ entries := e :: es, closed := closed } :: fs)
            = split (toTick e) ++ flatten ({ entries := es, closed := closed } :: fs)

/-- TO_TICKS (R170): the payload is the flat tick array, one word an element, every element at most 65535 (R175); `CapacityError`
above `MAX_RSP_WORDS`. -/
def Obligations.ToTicksEmitsTheFlatArray : Prop :=
  ∀ s : State,
    ((flatten s.frames).length ≤ 65535 →
      ∃ ws : List Word, ws.map (·.toNat) = flatten s.frames ∧ (∀ w ∈ ws, w.toNat ≤ 65535)
        ∧ exec .toTicks s = .next (answered 0x39 0 ws s))
    ∧ (65535 < (flatten s.frames).length → exec .toTicks s = .next (errored 0x39 .capacity s))
    ∧ ∀ k ∈ flatten s.frames, k ≤ 65535

/-- TO_WIRE (R174): the envelope word (format 1, 38 kHz, the element count), then the flat tick array. -/
def Obligations.ToWireWrapsTheFlatArray : Prop :=
  ∀ s : State,
    (1 + (flatten s.frames).length ≤ 65535 →
      ∃ (w : Word) (ws : List Word),
        w.toNat = 1 * 2 ^ 24 + 38 * 2 ^ 16 + (flatten s.frames).length ∧ ws.map (·.toNat) = flatten s.frames
          ∧ exec .toWire s = .next (answered 0x3A 0 (w :: ws) s))
    ∧ (65535 < 1 + (flatten s.frames).length → exec .toWire s = .next (errored 0x3A .capacity s))

/-- Parity of the output (R176, R247): the elements of an entry start at an offset of the entry's parity, so a frame gives an odd
number of elements exactly when it has an odd number of entries, and a frame closed with padding gives an even number. -/
def Obligations.OutputKeepsParity : Prop :=
  (∀ (es : List Entry) (e : Entry) (rest : List Entry) (c : Bool),
    (flattenFrame ⟨es, c⟩).length % 2 = es.length % 2
      ∧ flattenFrame ⟨es ++ e :: rest, c⟩ = flattenFrame ⟨es, c⟩ ++ split (toTick e) ++ flattenFrame ⟨rest, c⟩)
  ∧ ∀ (target : Rat) (es : List Entry) (d : BitVec 3) (c : Bool), 0 < target → dur es < target →
      0 < rhu (2 * (target - dur es)) → (flattenFrame ⟨(padClose target (es, d)).1, c⟩).length % 2 = 0

/-! ## Decoder and classifier -/

/-- The candidate base units (R183): 300 to 795 by 5, both ends included. The leader signatures (R184) for a candidate; a missing
element fails its test. -/
def Obligations.CandidatesAndSignatures : Prop :=
  ((∀ t : Nat, t ∈ candidates ↔ 300 ≤ t ∧ t ≤ 795 ∧ t % 5 = 0) ∧ candidates.length = 100 ∧ candidates.Nodup)
  ∧ ∀ (x y t : Rat) (rest : List Rat),
      (signature .aeha (x :: y :: rest) t = true ↔ mult x t = 8 ∧ mult y t = 4)
        ∧ (signature .nec (x :: y :: rest) t = true ↔ mult x t = 16 ∧ mult y t = 8)
        ∧ (signature .sony (x :: rest) t = true ↔ mult x t = 4)
        ∧ (signature .irisOyama (x :: y :: rest) t = true ↔ mult x t = 9 ∧ mult y t = 9)
        ∧ signature .aeha [x] t = false ∧ signature .nec [x] t = false ∧ signature .irisOyama [x] t = false
        ∧ signature .aeha [] t = false ∧ signature .nec [] t = false ∧ signature .sony [] t = false
        ∧ signature .irisOyama [] t = false

/-- Resolution (R185, R186): the qualifying set of a family is the candidates with its signature, the first family in the order
AEHA, NEC, Sony, Iris-Oyama with a non-empty set is chosen, and its estimate is the mean of that set. -/
def Obligations.ClassifierResolution : Prop :=
  ∀ d : List Rat,
    let S (f : Family) : List Nat := qualifying f d
    let mean (ts : List Nat) : Rat := (ts.sum : Rat) / (ts.length : Rat)
    (∀ f, S f = candidates.filter fun (t : Nat) => signature f d (t : Rat))
      ∧ (S .aeha ≠ [] → classifyTicks d = some (.aeha, mean (S .aeha)))
      ∧ (S .aeha = [] → S .nec ≠ [] → classifyTicks d = some (.nec, mean (S .nec)))
      ∧ (S .aeha = [] → S .nec = [] → S .sony ≠ [] → classifyTicks d = some (.sony, mean (S .sony)))
      ∧ (S .aeha = [] → S .nec = [] → S .sony = [] → S .irisOyama ≠ [] →
          classifyTicks d = some (.irisOyama, mean (S .irisOyama)))
      ∧ (S .aeha = [] → S .nec = [] → S .sony = [] → S .irisOyama = [] → classifyTicks d = none)

/-- Facts about the estimate (R188): it lies between 300 and 795, it is a multiple of 2.5, and it has itself the signature of the
family it was estimated for. -/
def Obligations.EstimateFacts : Prop :=
  ∀ (d : List Rat) (f : Family) (t : Rat), classifyTicks d = some (f, t) →
    300 ≤ t ∧ t ≤ 795 ∧ (∃ n : Nat, t = (n : Rat) * 5 / 2) ∧ signature f d t = true

/-- CLASSIFY (R181, R180): an over-long input is `CapacityError` before anything is classified; then the family code and the exact
estimate, or `UnknownProtocolError`. -/
def Obligations.ClassifyAnswersFamilyAndUnit : Prop :=
  let code : Family → Word
    | .aeha => 1
    | .nec => 2
    | .sony => 3
    | .irisOyama => 4
  ∀ (ks : List Half) (s : State),
    let d : List Rat := ks.map fun k => (k.toNat : Rat) / 2
    (fits s.cfg.maxDecTicks ks.length = false → exec (.classify ks) s = .next (errored 0x40 .capacity s))
    ∧ (fits s.cfg.maxDecTicks ks.length = true →
        (classifyTicks d = none → exec (.classify ks) s = .next (errored 0x40 .unknownProtocol s))
        ∧ ∀ f t, classifyTicks d = some (f, t) →
            ∃ w : Word, (w.toNat : Rat) = t * 256 ∧ exec (.classify ks) s = .next (answered 0x40 0 [code f, w] s))

/-- A first element below 2100 ticks, or none at all, matches no family (R188 (d)): CLASSIFY reports `UnknownProtocolError` and
DECODE answers the unknown guess. -/
def Obligations.ShortFirstElementIsUnknown : Prop :=
  ∀ (ks : List Half) (s : State), fits s.cfg.maxDecTicks ks.length = true → (∀ k, ks.head? = some k → k.toNat < 2100) →
    exec (.classify ks) s = .next (errored 0x40 .unknownProtocol s)
      ∧ exec (.decode ks) s = .next (answered 0x41 0 [0, 0] s)

/-- DECODE (R194 to R196, R180): the unknown guess when nothing qualifies; `NotImplementedError` for Sony; for NEC, AEHA and
Iris-Oyama (with `IRIS_DECODE = no_frames`: log entry 5) the frame count, the family and the exact estimate, then the frames. -/
def Obligations.DecodeAnswersTheGuess : Prop :=
  let code : Family → Nat
    | .aeha => 1
    | .nec => 2
    | .sony => 3
    | .irisOyama => 4
  ∀ (ks : List Half) (s : State),
    let d : List Rat := ks.map fun k => (k.toNat : Rat) / 2
    (fits s.cfg.maxDecTicks ks.length = false → exec (.decode ks) s = .next (errored 0x41 .capacity s))
    ∧ (fits s.cfg.maxDecTicks ks.length = true →
        (classifyTicks d = none → exec (.decode ks) s = .next (answered 0x41 0 [0, 0] s))
        ∧ (∀ t, classifyTicks d = some (.sony, t) → exec (.decode ks) s = .next (errored 0x41 .notImplemented s))
        ∧ (∀ t, classifyTicks d = some (.irisOyama, t) → s.cfg.irisDecode = .notImplemented →
            exec (.decode ks) s = .next (errored 0x41 .notImplemented s))
        ∧ ∀ (f : Family) (t : Rat) (frames : List DecFrame), classifyTicks d = some (f, t) →
            ((f = .nec ∧ frames = decodeNec t d) ∨ (f = .aeha ∧ frames = decodeAeha t d)
              ∨ (f = .irisOyama ∧ s.cfg.irisDecode = .noFrames ∧ frames = [])) →
            (2 + (frames.flatMap frameWords).length ≤ 65535 →
              ∃ w0 w1 : Word, w0.toNat = frames.length * 65536 + 256 + code f ∧ (w1.toNat : Rat) = t * 256
                ∧ exec (.decode ks) s = .next (answered 0x41 0 (w0 :: w1 :: frames.flatMap frameWords) s))
            ∧ (65535 < 2 + (frames.flatMap frameWords).length →
                exec (.decode ks) s = .next (errored 0x41 .capacity s)))

/-- The words of a decoded frame (R196, R75): bit 31 alone for a repeat marker; otherwise the number of symbols, then two bits a
symbol, `00`, `01` or `10`, symbol `k` in word `k / 16` from bit `31 - 2 * (k % 16)`, and zeros after the last. -/
def Obligations.DecodedFrameWords : Prop :=
  frameWords .repeated = [0x80000000]
    ∧ ∀ xs : List Symbol, xs.length < 65536 →
        ∃ ws : List Word, frameWords (.bits xs) = BitVec.ofNat 32 xs.length :: ws ∧ ws.length = (xs.length + 15) / 16
          ∧ (∀ k, k < xs.length →
              ((ws.getD (k / 16) 0).getLsbD (31 - 2 * (k % 16)) = decide (xs[k]? = some .unknown))
                ∧ ((ws.getD (k / 16) 0).getLsbD (30 - 2 * (k % 16)) = decide (xs[k]? = some .one)))
          ∧ ∀ k, xs.length ≤ k → k < 16 * ws.length →
              (ws.getD (k / 16) 0).getLsbD (31 - 2 * (k % 16)) = false
                ∧ (ws.getD (k / 16) 0).getLsbD (30 - 2 * (k % 16)) = false

/-- NEC decoding (R189 to R191) of an array with a leader at index 0: bit pairs before 108000 microseconds are decoded, other
pairs are `?`, the trailing `?` are stripped, and from the first pair boundary at or past 108000 on only repeat markers count. -/
def Obligations.DecodeNecFrame : Prop :=
  ∀ (t lp ls : Rat) (active after : List (Rat × Rat)) (lone : Option Rat),
    (mult lp t = 15 ∨ mult lp t = 16 ∨ mult lp t = 17) → (mult ls t = 7 ∨ mult ls t = 8 ∨ mult ls t = 9) →
    (∀ k, k < active.length → lp + ls + ((active.take k).map fun p => p.1 + p.2).sum < 108000) →
    (after ≠ [] → 108000 ≤ lp + ls + (active.map fun p => p.1 + p.2).sum) →
    let flat (ps : List (Rat × Rat)) : List Rat := ps.flatMap fun p => [p.1, p.2]
    let symbols : List Symbol := active.map fun p =>
      if mult p.1 t = 1 ∧ mult p.2 t = 1 then .zero else if mult p.1 t = 1 ∧ mult p.2 t = 3 then .one else .unknown
    let repeats := (after.filter fun p => decide (mult p.1 t = 16 ∧ mult p.2 t = 4)).length
    ∃ xs, decodeNec t (lp :: ls :: (flat active ++ flat after ++ lone.toList)) = .bits xs :: List.replicate repeats .repeated
      ∧ xs.getLast? ≠ some .unknown ∧ ∃ n, symbols = xs ++ List.replicate n .unknown

/-- AEHA decoding (R193): the walk starts after the initial leader. From position `j`, a pair whose space is at most 3T gives a
symbol and the walk goes on at `j + 2`; a tracer with a fresh leader after it closes the frame, also an empty one, and the
walk goes on at `j + 4`; a tracer without one outputs nothing and the walk goes on at `j + 1`; a lone last element, or none, ends
it, and the frame being built is recorded if it holds a symbol. So an array made of any number of runs of pairs, a tracer and a
fresh leader after every run but the last, decodes to one frame a run, the last only if it is not empty, whatever lone element or
tracer pair ends the array. -/
def Obligations.DecodeAehaFrames : Prop :=
  ∀ t : Rat,
    let symbol (s : Rat) : Symbol := if mult s t = 3 then .one else if mult s t = 1 then .zero else .unknown
    let last (cur : List Symbol) : List DecFrame := if cur = [] then [] else [.bits cur]
    let flat (ps : List (Rat × Rat)) : List Rat := ps.flatMap fun x => [x.1, x.2]
    let symbols (ps : List (Rat × Rat)) : List Symbol := ps.map fun x => symbol x.2
    (∀ d : List Rat, decodeAeha t d = aehaWalk t (d.drop 2) [])
    ∧ (∀ (d : List Rat) (j : Nat) (cur : List Symbol),
        let freshLeader : Prop := ∃ l0 l1, d[j + 2]? = some l0 ∧ d[j + 3]? = some l1 ∧ mult l0 t = 8 ∧ mult l1 t = 4
        (d.length ≤ j + 1 → aehaWalk t (d.drop j) cur = last cur)
        ∧ ∀ s, d[j + 1]? = some s →
            (mult s t ≤ 3 → aehaWalk t (d.drop j) cur = aehaWalk t (d.drop (j + 2)) (cur ++ [symbol s]))
            ∧ (3 < mult s t → freshLeader → aehaWalk t (d.drop j) cur = .bits cur :: aehaWalk t (d.drop (j + 4)) [])
            ∧ (3 < mult s t → ¬ freshLeader → aehaWalk t (d.drop j) cur = aehaWalk t (d.drop (j + 1)) cur))
    ∧ ∀ (l0 l1 : Rat) (runs : List (List (Rat × Rat) × (Rat × Rat) × Rat × Rat)) (final : List (Rat × Rat)) (rest : List Rat),
        (∀ g ∈ runs, (∀ x ∈ g.1, mult x.2 t ≤ 3) ∧ 3 < mult g.2.1.2 t ∧ mult g.2.2.1 t = 8 ∧ mult g.2.2.2 t = 4) →
        (∀ x ∈ final, mult x.2 t ≤ 3) →
        (rest.length ≤ 1 ∨ ∃ q r, rest = [q, r] ∧ 3 < mult r t) →
        decodeAeha t
            (l0 :: l1 :: ((runs.flatMap fun g => flat g.1 ++ [g.2.1.1, g.2.1.2, g.2.2.1, g.2.2.2]) ++ flat final ++ rest))
          = (runs.map fun g => .bits (symbols g.1)) ++ last (symbols final)

/-- Round trip (R197): 32 bits sent with the spec of `SPEC_NEC`, terminated, read with TO_TICKS and decoded with DECODE come back
as family NEC, `T = 562.5`, one frame with exactly those bits. The capacities hold the 70 entries, 70 ticks and 32 bits. -/
def Obligations.NecRoundTrip : Prop :=
  ∀ (bits : List Bool) (s : State), bits.length = 32 →
    fits s.cfg.maxTokens 2 = true → fits s.cfg.maxFrames 1 = true → fits s.cfg.maxEntries 70 = true →
    fits s.cfg.maxHist 32 = true → fits s.cfg.maxDecTicks 70 = true →
    ∃ (t : State) (ks : List Half) (w0 w1 : Word),
      runCommands (specNecCommands ++ [.begin, .appendBits bits, .terminate, .toTicks]) s = .next t
        ∧ t.hist = bits
        ∧ (t.rsp.getLast?.map Packet.tail) = some (ks.map fun k => k.setWidth 32)
        ∧ exec (.decode ks) t = .next (answered 0x41 0 [0x00010102, 0x00023280, 32, w0, w1] t)
        ∧ carriesBits [w0, w1] (bits.flatMap fun b => [false, b])

/-- The commands of BGU and DEC and the read-only commands (R59, R100) change nothing but the status and the responses. -/
def Obligations.PureCommandsKeepEncoderState : Prop :=
  ∀ (i : Instr) (s : State), isPureCommand i.opcode = true →
    ∃ t r, exec i s = .next t
      ∧ t = { s with
              statusErr := t.statusErr
              statusDiag := t.statusDiag
              lastErr := t.lastErr
              rsp := s.rsp ++ [r] }

/-- The commands of BGU and DEC read no state (R100, R181): with the same parameters they give the same response in any state. -/
def Obligations.BguAndDecoderReadNoState : Prop :=
  ∀ (i : Instr) (s u : State), isPureCommand i.opcode = true →
    i.opcode ≠ .rdStatus → i.opcode ≠ .rdHist → i.opcode ≠ .toTicks → i.opcode ≠ .toWire → s.cfg = u.cfg →
    ∃ t v r, exec i s = .next t ∧ exec i u = .next v ∧ t.rsp = s.rsp ++ [r] ∧ v.rsp = u.rsp ++ [r]

/-! ## Invariants -/

/-- Every step keeps the invariant (R23 to R30, R74, R220): lists within their capacities, durations non-negative, status flags and
`LASTERR` consistent, responses and observer words well-formed. -/
def Obligations.StepKeepsTheInvariant : Prop := ∀ s t : State, stateOk s = true → step s = .next t → stateOk t = true

/-- The state after reset has the invariant, whatever the parameters. -/
def Obligations.ResetHasTheInvariant : Prop := stateOk State.reset = true ∧ ∀ c : Config, stateOk (resetWith c) = true
end

