-- ==== Sys2Proof/Laws/Bits.lean ====
section
/-! SUPPORT. Lemmas about bit lists, groups and packed words. -/

namespace Sys2Proof.Machine

theorem bitsToNat_nil : bitsToNat [] = 0 := rfl

theorem bitsToNat_append_single (bs : List Bool) (b : Bool) :
    bitsToNat (bs ++ [b]) = 2 * bitsToNat bs + b.toNat := by
  simp [bitsToNat]

/-- Bit `i` of the number counts from the end of the list. -/
theorem bitsToNat_testBit (bs : List Bool) (i : Nat) (h : i < bs.length) :
    (bitsToNat bs).testBit i = bs.getD (bs.length - 1 - i) false := by
  induction bs using List.reverseRecOn generalizing i with
  | nil => simp at h
  | append_singleton bs b ih =>
    rw [bitsToNat_append_single]
    cases i with
    | zero =>
      cases b <;> simp [Nat.testBit_zero]
    | succ i =>
      have h1 : i < bs.length := by simp at h; omega
      have h2 : (2 * bitsToNat bs + b.toNat) / 2 = bitsToNat bs := by
        cases b <;> simp; omega
      rw [Nat.testBit_succ, h2, ih i h1]
      have h3 : (bs ++ [b]).length - 1 - (i + 1) = bs.length - 1 - i := by simp; omega
      rw [h3, List.getD_append _ _ _ _ (by omega)]

theorem bitsToNat_lt (bs : List Bool) : bitsToNat bs < 2 ^ bs.length := by
  induction bs using List.reverseRecOn with
  | nil => simp [bitsToNat]
  | append_singleton bs b ih =>
    rw [bitsToNat_append_single, List.length_append, List.length_singleton, pow_succ]
    cases b <;> simp <;> omega

theorem bitsOf_length {w : Nat} (g : BitVec w) : (bitsOf g).length = w := by simp [bitsOf]

theorem bitsOf_getElem {w : Nat} (g : BitVec w) (k : Nat) (h : k < (bitsOf g).length) :
    (bitsOf g)[k] = g.getMsbD k := by simp [bitsOf]

theorem bitsOf_getD {w : Nat} (g : BitVec w) (k : Nat) (h : k < w) : (bitsOf g).getD k false = g.getMsbD k := by
  rw [List.getD_eq_getElem _ _ (by simpa [bitsOf_length] using h), bitsOf_getElem]

/-- Element `k` of the bit list is bit `w-1-k` of the group (R56). -/
theorem groupOf_getMsbD {w : Nat} (bs : List Bool) (h : bs.length = w) (k : Nat) (hk : k < w) :
    (groupOf w bs).getMsbD k = bs.getD k false := by
  subst h
  rw [groupOf, BitVec.getMsbD_eq_getLsbD]
  simp only [hk, decide_true, Bool.true_and, BitVec.getLsbD_ofNat]
  rw [bitsToNat_testBit _ _ (by omega)]
  have h1 : bs.length - 1 - (bs.length - 1 - k) = k := by omega
  have h2 : bs.length - 1 - k < bs.length := by omega
  simp [h1, h2]

theorem groupOf_getLsbD {w : Nat} (bs : List Bool) (h : bs.length = w) (k : Nat) (hk : k < w) :
    (groupOf w bs).getLsbD k = bs.getD (w - 1 - k) false := by
  rw [BitVec.getLsbD_eq_getMsbD]
  simp only [hk, decide_true, Bool.true_and]
  rw [groupOf_getMsbD bs h _ (by omega)]

theorem bitsOf_groupOf {w : Nat} (bs : List Bool) (h : bs.length = w) : bitsOf (groupOf w bs) = bs := by
  apply List.ext_getElem
  · simp [bitsOf_length, h]
  · intro k h1 h2
    rw [bitsOf_getElem, groupOf_getMsbD bs h k (by omega), List.getD_eq_getElem _ _ h2]

theorem groupOf_bitsOf {w : Nat} (g : BitVec w) : groupOf w (bitsOf g) = g := by
  apply BitVec.eq_of_getMsbD_eq
  intro k hk
  rw [groupOf_getMsbD _ (bitsOf_length g) k hk, bitsOf_getD g k hk]

theorem packBits_length (bits : List Bool) : (packBits bits).length = packedWords bits.length := by simp [packBits]

theorem packedWord_getMsbD (bits : List Bool) (j i : Nat) (h : i < 32) :
    (packedWord bits j).getMsbD i = bits.getD (32 * j + i) false := by
  rw [packedWord, groupOf_getMsbD _ (by simp) i h]
  simp [List.getD_eq_getElem?_getD, h]

/-- What a packed word list reads back at any position: the bit of the list, or 0 past its end (R73). -/
theorem packedBit_packBits (bits : List Bool) (k : Nat) : packedBit (packBits bits) k = bits.getD k false := by
  have hm : k % 32 < 32 := Nat.mod_lt _ (by omega)
  have hk : 32 * (k / 32) + k % 32 = k := Nat.div_add_mod k 32
  unfold packedBit
  by_cases h : k / 32 < packedWords bits.length
  · have e : (packBits bits).getD (k / 32) 0 = packedWord bits (k / 32) := by
      simp [packBits, List.getD_eq_getElem?_getD, h]
    rw [e, packedWord_getMsbD _ _ _ hm, hk]
  · have e : (packBits bits).getD (k / 32) 0 = 0 := by
      rw [List.getD_eq_default _ _ (by rw [packBits_length]; omega)]
    rw [e, List.getD_eq_default _ _ (by simp [packedWords] at h; omega)]
    simp [BitVec.getMsbD]

theorem unpackBits_length (n : Nat) (ws : List Word) : (unpackBits n ws).length = n := by simp [unpackBits]

theorem unpackBits_packBits (bits : List Bool) : unpackBits bits.length (packBits bits) = bits := by
  apply List.ext_getElem
  · simp [unpackBits]
  · intro k h1 h2
    simp [unpackBits, packedBit_packBits, h2]

theorem spareBitsZero_packBits (bits : List Bool) : spareBitsZero bits.length (packBits bits) = true := by
  simp [spareBitsZero, packedBit_packBits]

theorem spareBitsZero_iff (n : Nat) (ws : List Word) :
    spareBitsZero n ws = true ↔ ∀ k, n ≤ k → k < 32 * ws.length → packedBit ws k = false := by
  simp only [spareBitsZero, List.all_eq_true, List.mem_range, Bool.not_eq_true']
  constructor
  · intro h k h1 h2
    have := h (k - n) (by omega)
    rwa [show n + (k - n) = k by omega] at this
  · intro h i hi
    exact h (n + i) (by omega) (by omega)

/-- Words that carry `n` bits with nothing in the spare positions are the packing of those bits (R73). -/
theorem packBits_unpackBits (n : Nat) (ws : List Word) (hl : ws.length = packedWords n) (hz : spareBitsZero n ws = true) :
    packBits (unpackBits n ws) = ws := by
  apply List.ext_getElem
  · rw [packBits_length, unpackBits_length, hl]
  · intro j h1 h2
    simp only [packBits, List.getElem_map, List.getElem_range]
    apply BitVec.eq_of_getMsbD_eq
    intro i hi
    rw [packedWord_getMsbD _ _ _ hi]
    have e : packedBit ws (32 * j + i) = ws[j].getMsbD i := by
      have h3 : (32 * j + i) / 32 = j := by omega
      have h4 : (32 * j + i) % 32 = i := by omega
      rw [packedBit, h3, h4, List.getD_eq_getElem _ _ h2]
    by_cases hn : 32 * j + i < n
    · simp [unpackBits, List.getD_eq_getElem?_getD, hn, e]
    · have := (spareBitsZero_iff n ws).1 hz (32 * j + i) (by omega) (by omega)
      rw [List.getD_eq_default _ _ (by rw [unpackBits_length]; omega), ← e, this]

end Sys2Proof.Machine
end

