-- ==== Sys2Proof/Laws/Encoding.lean ====
section
/-! SUPPORT. Lemmas about headers, operand words and the opcode map. -/

namespace Sys2Proof

/-- Two words are equal when their low `w` bits are, bit by bit. -/
theorem word_ext {w : Nat} {x y : BitVec w} (h : ∀ i, i < w → x.getLsbD i = y.getLsbD i) : x = y :=
  BitVec.eq_of_getLsbD_eq h

@[simp] theorem headerOp_mkHeader (op a : Byte) (n : Half) : headerOp (mkHeader op a n) = op := by
  apply word_ext
  intro i hi
  simp [headerOp, mkHeader, hi, show 24 + i < 32 by omega, show ¬ 24 + i < 24 by omega, show ¬ 24 + i < 16 by omega,
    show 24 + i - 24 = i by omega, BitVec.getLsbD_of_ge a (24 + i - 16) (by omega), BitVec.getLsbD_of_ge n (24 + i) (by omega)]

@[simp] theorem headerA_mkHeader (op a : Byte) (n : Half) : headerA (mkHeader op a n) = a := by
  apply word_ext
  intro i hi
  simp [headerA, mkHeader, hi, show 16 + i < 24 by omega, show 16 + i < 32 by omega]

@[simp] theorem headerN_mkHeader (op a : Byte) (n : Half) : headerN (mkHeader op a n) = n := by
  apply word_ext
  intro i hi
  simp [headerN, mkHeader, hi, show i < 24 by omega, show i < 32 by omega]

theorem mkHeader_fields (h : Word) : mkHeader (headerOp h) (headerA h) (headerN h) = h := by
  apply word_ext
  intro i hi
  simp only [mkHeader, headerOp, headerA, headerN, BitVec.getLsbD_or, BitVec.getLsbD_shiftLeft, BitVec.getLsbD_setWidth,
    BitVec.getLsbD_extractLsb', hi]
  by_cases h1 : i < 16
  · simp [h1, show i < 24 by omega]
  · by_cases h2 : i < 24
    · simp [h1, h2, show i - 16 < 32 by omega, show i - 16 < 8 by omega, show 16 + (i - 16) = i by omega]
    · simp [h1, h2, show i - 24 < 32 by omega, show i - 24 < 8 by omega, show 24 + (i - 24) = i by omega,
        show ¬ i - 16 < 8 by omega]

theorem opcodeOf_opcodeByte (o : Opcode) : opcodeOf (opcodeByte o) = some o := by cases o <;> decide

theorem opcodeByte_of_opcodeOf {b : Byte} {o : Opcode} (h : opcodeOf b = some o) : opcodeByte o = b := by
  have := List.find?_some h
  simpa using this

theorem opcodeByte_injective {o o' : Opcode} (h : opcodeByte o = opcodeByte o') : o = o' := by
  have := congrArg opcodeOf h
  simpa [opcodeOf_opcodeByte] using this

@[simp] theorem decodeToken_encodeToken (t : TokenField) : decodeToken (encodeToken t) = t := by
  obtain ⟨k, p, m⟩ := t
  simp only [decodeToken, encodeToken, TokenField.mk.injEq]
  refine ⟨?_, ?_, ?_⟩ <;> apply word_ext <;> intro i hi
  · simp [hi, show 30 + i < 32 by omega, show ¬ 30 + i < 28 by omega, show 30 + i - 30 = i by omega,
      BitVec.getLsbD_of_ge p (30 + i - 28) (by omega), BitVec.getLsbD_of_ge m (30 + i) (by omega)]
  · simp [hi, show 28 + i < 32 by omega, show 28 + i < 30 by omega]
  · simp [hi, show i < 32 by omega, show i < 30 by omega]

@[simp] theorem encodeToken_decodeToken (w : Word) : encodeToken (decodeToken w) = w := by
  apply word_ext
  intro i hi
  simp only [decodeToken, encodeToken, BitVec.getLsbD_or, BitVec.getLsbD_shiftLeft, BitVec.getLsbD_setWidth,
    BitVec.getLsbD_extractLsb', hi]
  by_cases h1 : i < 28
  · simp [h1, show i < 30 by omega]
  · by_cases h2 : i < 30
    · simp [h1, h2, show i - 28 < 32 by omega, show i - 28 < 2 by omega, show 28 + (i - 28) = i by omega]
    · simp [h1, h2, show i - 30 < 32 by omega, show i - 30 < 2 by omega, show 30 + (i - 30) = i by omega,
        show ¬ i - 28 < 2 by omega]

/-- A narrow field in the low bits of a word: it reads back, and the bits above it are zero. -/
theorem extract_low_setWidth {b : Nat} (hb : b ≤ 32) (x : BitVec b) : ((x.setWidth 32).extractLsb' 0 b : BitVec b) = x := by
  apply word_ext
  intro i hi
  simp [hi, show i < 32 by omega]

theorem extract_high_setWidth {b : Nat} (x : BitVec b) (a : Nat) : (x.setWidth 32).extractLsb' b a = 0 := by
  apply word_ext
  intro i hi
  simp

theorem setWidth_of_high_zero {a b : Nat} (hab : a + b = 32) (w : Word) (h : w.extractLsb' b a = 0) :
    (w.extractLsb' 0 b).setWidth 32 = w := by
  apply word_ext
  intro i hi
  simp only [BitVec.getLsbD_setWidth, BitVec.getLsbD_extractLsb', hi]
  by_cases h1 : i < b
  · simp [h1]
  · have h2 := congrArg (fun v => BitVec.getLsbD v (i - b)) h
    simpa [h1, show i - b < a by omega, show b + (i - b) = i by omega] using h2.symm

@[simp] theorem decodeValue_encodeValue (m : UQ) : decodeValue (encodeValue m) = .ok m := by
  simp only [decodeValue, encodeValue]
  simp [extract_high_setWidth, extract_low_setWidth]

theorem encodeValue_of_decodeValue {w : Word} {m : UQ} (h : decodeValue w = .ok m) : encodeValue m = w := by
  unfold decodeValue at h
  split at h
  · rename_i hz
    cases h
    exact setWidth_of_high_zero (by omega) w hz
  · cases h

@[simp] theorem decodeTick_encodeTick (t : Half) : decodeTick (encodeTick t) = .ok t := by
  simp only [decodeTick, encodeTick]
  simp [extract_high_setWidth, extract_low_setWidth]

theorem encodeTick_of_decodeTick {w : Word} {t : Half} (h : decodeTick w = .ok t) : encodeTick t = w := by
  unfold decodeTick at h
  split at h
  · rename_i hz
    cases h
    exact setWidth_of_high_zero (by omega) w hz
  · cases h

@[simp] theorem decodeChar_encodeChar (c : Byte) : decodeChar (encodeChar c) = .ok c := by
  simp only [decodeChar, encodeChar]
  simp [extract_high_setWidth, extract_low_setWidth]

theorem encodeChar_of_decodeChar {w : Word} {c : Byte} (h : decodeChar w = .ok c) : encodeChar c = w := by
  unfold decodeChar at h
  split at h
  · rename_i hz
    cases h
    exact setWidth_of_high_zero (by omega) w hz
  · cases h

theorem mkBitLike_high (tag : BitVec 2) (p : Byte) : (mkBitLike tag p).extractLsb' 10 22 = 0 := by
  apply word_ext
  intro i hi
  simp [mkBitLike, BitVec.getLsbD_of_ge p (10 + i) (by omega), BitVec.getLsbD_of_ge tag (10 + i - 8) (by omega)]

theorem mkBitLike_tag (tag : BitVec 2) (p : Byte) : (mkBitLike tag p).extractLsb' 8 2 = tag := by
  apply word_ext
  intro i hi
  simp [mkBitLike, hi, show 8 + i < 32 by omega]

theorem mkBitLike_payload (tag : BitVec 2) (p : Byte) : (mkBitLike tag p).extractLsb' 0 8 = p := by
  apply word_ext
  intro i hi
  simp [mkBitLike, hi, show i < 32 by omega]

theorem mkBitLike_fields (w : Word) (h : w.extractLsb' 10 22 = 0) :
    mkBitLike (w.extractLsb' 8 2) (w.extractLsb' 0 8) = w := by
  apply word_ext
  intro i hi
  simp only [mkBitLike, BitVec.getLsbD_or, BitVec.getLsbD_shiftLeft, BitVec.getLsbD_setWidth, BitVec.getLsbD_extractLsb', hi]
  by_cases h1 : i < 8
  · simp [h1]
  · by_cases h2 : i < 10
    · simp [h1, show i - 8 < 32 by omega, show i - 8 < 2 by omega, show 8 + (i - 8) = i by omega]
    · have h3 := congrArg (fun v => BitVec.getLsbD v (i - 10)) h
      simpa [h1, show ¬ i - 8 < 2 by omega, show i - 10 < 22 by omega, show 10 + (i - 10) = i by omega] using h3.symm

@[simp] theorem decodeBitLike_encodeBitLike (b : BitLike) : decodeBitLike (encodeBitLike b) = .ok b := by
  cases b with
  | bool b => cases b <;> decide
  | int v => simp [decodeBitLike, encodeBitLike, mkBitLike_high, mkBitLike_tag, mkBitLike_payload]
  | char c => simp [decodeBitLike, encodeBitLike, mkBitLike_high, mkBitLike_tag, mkBitLike_payload]
  | other p => simp [decodeBitLike, encodeBitLike, mkBitLike_high, mkBitLike_tag, mkBitLike_payload]

theorem bitVec2_cases (x : BitVec 2) : x = 0 ∨ x = 1 ∨ x = 2 ∨ x = 3 := by
  revert x; decide

theorem encodeBitLike_of_decodeBitLike {w : Word} {b : BitLike} (h : decodeBitLike w = .ok b) : encodeBitLike b = w := by
  unfold decodeBitLike at h
  split at h
  case isFalse => cases h
  case isTrue hz =>
    have hw := mkBitLike_fields w hz
    simp only at h
    rcases bitVec2_cases (w.extractLsb' 8 2) with t | t | t | t <;> simp only [t] at h hw
    · simp only [if_true] at h
      split at h
      · rename_i hp; cases h; rw [← hw, hp]; rfl
      · split at h
        · rename_i hp; cases h; rw [← hw, hp]; rfl
        · cases h
    · cases h; exact hw
    · cases h; exact hw
    · cases h; exact hw

theorem decodeAll_map {α : Type} (f : Word → Except DecodeError α) (g : α → Word) (hfg : ∀ x, f (g x) = .ok x)
    (xs : List α) : decodeAll f (xs.map g) = .ok xs := by
  induction xs with
  | nil => rfl
  | cons x xs ih => simp [decodeAll, hfg, ih]

theorem map_of_decodeAll {α : Type} (f : Word → Except DecodeError α) (g : α → Word)
    (hgf : ∀ w x, f w = .ok x → g x = w) {ws : List Word} {xs : List α} (h : decodeAll f ws = .ok xs) :
    xs.map g = ws := by
  induction ws generalizing xs with
  | nil => cases h; rfl
  | cons w ws ih =>
    unfold decodeAll at h
    split at h
    · cases h
    · rename_i x hx
      split at h
      · cases h
      · rename_i ys hys
        cases h
        simp [hgf _ _ hx, ih hys]

theorem decodeRepeat_encode (ts : List TokenField) (m : UQ) :
    decodeRepeat (ts.map encodeToken ++ [encodeValue m]) = .ok (ts, m) := by
  induction ts with
  | nil => simp [decodeRepeat, Except.map]
  | cons t ts ih =>
    have hne : ts.map encodeToken ++ [encodeValue m] ≠ [] := by simp
    rw [List.map_cons, List.cons_append]
    cases hc : ts.map encodeToken ++ [encodeValue m] with
    | nil => exact absurd hc hne
    | cons w ws => rw [hc] at ih; simp [decodeRepeat, ih, Except.map]

theorem encode_of_decodeRepeat {ws : List Word} {ts : List TokenField} {m : UQ} (h : decodeRepeat ws = .ok (ts, m)) :
    ts.map encodeToken ++ [encodeValue m] = ws := by
  induction ws generalizing ts with
  | nil => cases h
  | cons w ws ih =>
    cases ws with
    | nil =>
      simp only [decodeRepeat] at h
      cases hv : decodeValue w with
      | error e => simp [hv, Except.map] at h
      | ok v =>
        simp only [hv, Except.map, Except.ok.injEq, Prod.mk.injEq] at h
        obtain ⟨rfl, rfl⟩ := h
        simp [encodeValue_of_decodeValue hv]
    | cons w' ws =>
      rw [decodeRepeat] at h
      · cases hr : decodeRepeat (w' :: ws) with
        | error e => simp [hr, Except.map] at h
        | ok r =>
          obtain ⟨ts', m'⟩ := r
          simp only [hr, Except.map, Except.ok.injEq, Prod.mk.injEq] at h
          obtain ⟨rfl, rfl⟩ := h
          simp [ih hr]
      · simp

theorem decodeBits_packBits (bits : List Bool) : decodeBits bits.length (Machine.packBits bits) = .ok bits := by
  simp [decodeBits, Machine.spareBitsZero_packBits, Machine.unpackBits_packBits]

theorem packBits_of_decodeBits {n : Nat} {ws : List Word} {bits : List Bool} (hl : ws.length = Machine.packedWords n)
    (h : decodeBits n ws = .ok bits) : bits.length = n ∧ Machine.packBits bits = ws := by
  unfold decodeBits at h
  split at h
  · rename_i hz
    cases h
    exact ⟨Machine.unpackBits_length n ws, Machine.packBits_unpackBits n ws hl hz⟩
  · cases h

theorem countField_toNat {len : Nat} (h : len < 65536) : (countField len).toNat = len := by
  simp [countField]; omega

theorem countField_of_toNat (n : Half) : countField n.toNat = n := by simp [countField]

end Sys2Proof
end

