-- ==== Sys2Proof/Laws/Numbers.lean ====
section
/-! SUPPORT. Lemmas about the exact arithmetic of durations. -/

namespace Sys2Proof.Machine

theorem uqVal_nonneg (m : UQ) : 0 ≤ uqVal m := by unfold uqVal; positivity

/-- `rhu` is the floor of Mathlib. -/
theorem rhu_eq (x : Rat) : rhu x = ⌊x + 1 / 2⌋.toNat := rfl

/-- `rhu x = k` for a positive `k` says that `x` lies within a half of `k`, the lower end included (R12). -/
theorem rhu_eq_iff (x : Rat) (k : Nat) (hk : 0 < k) : rhu x = k ↔ (k : Rat) - 1 / 2 ≤ x ∧ x < (k : Rat) + 1 / 2 := by
  rw [rhu_eq]
  have h1 : ⌊x + 1 / 2⌋.toNat = k ↔ ⌊x + 1 / 2⌋ = (k : Int) := by omega
  rw [h1, Int.floor_eq_iff]
  push_cast
  constructor <;> rintro ⟨h2, h3⟩ <;> constructor <;> linarith

/-- A non-negative rational is within a half of its rounding (R12). -/
theorem rhu_bounds (x : Rat) (hx : 0 ≤ x) : (rhu x : Rat) - 1 / 2 ≤ x ∧ x < (rhu x : Rat) + 1 / 2 := by
  rw [rhu_eq]
  have h0 : 0 ≤ ⌊x + 1 / 2⌋ := Int.floor_nonneg.2 (by linarith)
  have h1 : ((⌊x + 1 / 2⌋.toNat : Nat) : Rat) = ((⌊x + 1 / 2⌋ : Int) : Rat) := by
    have : ((⌊x + 1 / 2⌋.toNat : Nat) : Int) = ⌊x + 1 / 2⌋ := Int.toNat_of_nonneg h0
    exact_mod_cast this
  rw [h1]
  have h2 := Int.floor_le (x + 1 / 2)
  have h3 := Int.lt_floor_add_one (x + 1 / 2)
  constructor <;> linarith

theorem rhu_natCast (n : Nat) : rhu (n : Rat) = n := by
  rcases Nat.eq_zero_or_pos n with rfl | h
  · decide +kernel
  · exact (rhu_eq_iff _ _ h).2 ⟨by linarith, by linarith⟩

/-- `mult d T = k` as an interval of `d` (R14). -/
theorem mult_eq_iff (d t : Rat) (ht : 0 < t) (k : Nat) (hk : 0 < k) :
    mult d t = k ↔ ((k : Rat) - 1 / 2) * t ≤ d ∧ d < ((k : Rat) + 1 / 2) * t := by
  rw [mult, rhu_eq_iff _ _ hk, le_div_iff₀ ht, div_lt_iff₀ ht]

end Sys2Proof.Machine
end

