-- ==== Sys2Proof/Laws/State.lean ====
section
/-! SUPPORT. One lemma per field per update of the state, each true by definition. -/

namespace Sys2Proof.Machine

/-! ## Raising an error -/

@[simp] theorem raiseError_cfg (op : Byte) (e : ErrCode) (s : State) : (raiseError op e s).cfg = s.cfg := rfl
@[simp] theorem raiseError_resetPin (op : Byte) (e : ErrCode) (s : State) : (raiseError op e s).resetPin = s.resetPin := rfl
@[simp] theorem raiseError_cmd (op : Byte) (e : ErrCode) (s : State) : (raiseError op e s).cmd = s.cmd := rfl
@[simp] theorem raiseError_spec (op : Byte) (e : ErrCode) (s : State) : (raiseError op e s).spec = s.spec := rfl
@[simp] theorem raiseError_aspec (op : Byte) (e : ErrCode) (s : State) : (raiseError op e s).aspec = s.aspec := rfl
@[simp] theorem raiseError_frames (op : Byte) (e : ErrCode) (s : State) : (raiseError op e s).frames = s.frames := rfl
@[simp] theorem raiseError_hist (op : Byte) (e : ErrCode) (s : State) : (raiseError op e s).hist = s.hist := rfl
@[simp] theorem raiseError_rptIdx (op : Byte) (e : ErrCode) (s : State) : (raiseError op e s).rptIdx = s.rptIdx := rfl
@[simp] theorem raiseError_ctrlObs (op : Byte) (e : ErrCode) (s : State) : (raiseError op e s).ctrlObs = s.ctrlObs := rfl
@[simp] theorem raiseError_statusErr (op : Byte) (e : ErrCode) (s : State) : (raiseError op e s).statusErr = s.statusErr ||| errFlag e := rfl
@[simp] theorem raiseError_statusDiag (op : Byte) (e : ErrCode) (s : State) : (raiseError op e s).statusDiag = s.statusDiag := rfl
@[simp] theorem raiseError_lastErr (op : Byte) (e : ErrCode) (s : State) : (raiseError op e s).lastErr = ⟨errNumber e, op⟩ := rfl
@[simp] theorem raiseError_rsp (op : Byte) (e : ErrCode) (s : State) : (raiseError op e s).rsp = s.rsp ++ [⟨respHeader op (errNumber e) 0 0, []⟩] := rfl
@[simp] theorem raiseError_obs (op : Byte) (e : ErrCode) (s : State) : (raiseError op e s).obs = s.obs := rfl

/-! ## Answering -/

@[simp] theorem reply_cfg (op : Byte) (w : Work) : (reply op w).cfg = w.state.cfg := rfl
@[simp] theorem reply_resetPin (op : Byte) (w : Work) : (reply op w).resetPin = w.state.resetPin := rfl
@[simp] theorem reply_cmd (op : Byte) (w : Work) : (reply op w).cmd = w.state.cmd := rfl
@[simp] theorem reply_spec (op : Byte) (w : Work) : (reply op w).spec = w.state.spec := rfl
@[simp] theorem reply_aspec (op : Byte) (w : Work) : (reply op w).aspec = w.state.aspec := rfl
@[simp] theorem reply_frames (op : Byte) (w : Work) : (reply op w).frames = w.state.frames := rfl
@[simp] theorem reply_hist (op : Byte) (w : Work) : (reply op w).hist = w.state.hist := rfl
@[simp] theorem reply_rptIdx (op : Byte) (w : Work) : (reply op w).rptIdx = w.state.rptIdx := rfl
@[simp] theorem reply_ctrlObs (op : Byte) (w : Work) : (reply op w).ctrlObs = w.state.ctrlObs := rfl
@[simp] theorem reply_statusErr (op : Byte) (w : Work) : (reply op w).statusErr = w.state.statusErr := rfl
@[simp] theorem reply_statusDiag (op : Byte) (w : Work) : (reply op w).statusDiag = w.state.statusDiag ||| w.diag := rfl
@[simp] theorem reply_lastErr (op : Byte) (w : Work) : (reply op w).lastErr = w.state.lastErr := rfl
@[simp] theorem reply_rsp (op : Byte) (w : Work) : (reply op w).rsp = w.state.rsp ++ [⟨respHeader op 0 w.diag w.payload.length, w.payload⟩] := rfl
@[simp] theorem reply_obs (op : Byte) (w : Work) : (reply op w).obs = w.state.obs := rfl

/-! ## Taking a packet -/

@[simp] theorem withCmd_cfg (s : State) (c : List Packet) : (withCmd s c).cfg = s.cfg := rfl
@[simp] theorem withCmd_resetPin (s : State) (c : List Packet) : (withCmd s c).resetPin = s.resetPin := rfl
@[simp] theorem withCmd_cmd (s : State) (c : List Packet) : (withCmd s c).cmd = c := rfl
@[simp] theorem withCmd_spec (s : State) (c : List Packet) : (withCmd s c).spec = s.spec := rfl
@[simp] theorem withCmd_aspec (s : State) (c : List Packet) : (withCmd s c).aspec = s.aspec := rfl
@[simp] theorem withCmd_frames (s : State) (c : List Packet) : (withCmd s c).frames = s.frames := rfl
@[simp] theorem withCmd_hist (s : State) (c : List Packet) : (withCmd s c).hist = s.hist := rfl
@[simp] theorem withCmd_rptIdx (s : State) (c : List Packet) : (withCmd s c).rptIdx = s.rptIdx := rfl
@[simp] theorem withCmd_ctrlObs (s : State) (c : List Packet) : (withCmd s c).ctrlObs = s.ctrlObs := rfl
@[simp] theorem withCmd_statusErr (s : State) (c : List Packet) : (withCmd s c).statusErr = s.statusErr := rfl
@[simp] theorem withCmd_statusDiag (s : State) (c : List Packet) : (withCmd s c).statusDiag = s.statusDiag := rfl
@[simp] theorem withCmd_lastErr (s : State) (c : List Packet) : (withCmd s c).lastErr = s.lastErr := rfl
@[simp] theorem withCmd_rsp (s : State) (c : List Packet) : (withCmd s c).rsp = s.rsp := rfl
@[simp] theorem withCmd_obs (s : State) (c : List Packet) : (withCmd s c).obs = s.obs := rfl

/-! ## Writing the staging spec -/

@[simp] theorem withSpec_cfg (s : State) (p : Spec) : (withSpec s p).cfg = s.cfg := rfl
@[simp] theorem withSpec_resetPin (s : State) (p : Spec) : (withSpec s p).resetPin = s.resetPin := rfl
@[simp] theorem withSpec_cmd (s : State) (p : Spec) : (withSpec s p).cmd = s.cmd := rfl
@[simp] theorem withSpec_spec (s : State) (p : Spec) : (withSpec s p).spec = p := rfl
@[simp] theorem withSpec_aspec (s : State) (p : Spec) : (withSpec s p).aspec = s.aspec := rfl
@[simp] theorem withSpec_frames (s : State) (p : Spec) : (withSpec s p).frames = s.frames := rfl
@[simp] theorem withSpec_hist (s : State) (p : Spec) : (withSpec s p).hist = s.hist := rfl
@[simp] theorem withSpec_rptIdx (s : State) (p : Spec) : (withSpec s p).rptIdx = s.rptIdx := rfl
@[simp] theorem withSpec_ctrlObs (s : State) (p : Spec) : (withSpec s p).ctrlObs = s.ctrlObs := rfl
@[simp] theorem withSpec_statusErr (s : State) (p : Spec) : (withSpec s p).statusErr = s.statusErr := rfl
@[simp] theorem withSpec_statusDiag (s : State) (p : Spec) : (withSpec s p).statusDiag = s.statusDiag := rfl
@[simp] theorem withSpec_lastErr (s : State) (p : Spec) : (withSpec s p).lastErr = s.lastErr := rfl
@[simp] theorem withSpec_rsp (s : State) (p : Spec) : (withSpec s p).rsp = s.rsp := rfl
@[simp] theorem withSpec_obs (s : State) (p : Spec) : (withSpec s p).obs = s.obs := rfl

/-! ## Presenting a packet -/

@[simp] theorem presentNext_cfg (p : Packet) (s : State) : (presentNext p s).cfg = s.cfg := rfl
@[simp] theorem presentNext_resetPin (p : Packet) (s : State) : (presentNext p s).resetPin = false := rfl
@[simp] theorem presentNext_cmd (p : Packet) (s : State) : (presentNext p s).cmd = p :: s.cmd := rfl
@[simp] theorem presentNext_spec (p : Packet) (s : State) : (presentNext p s).spec = s.spec := rfl
@[simp] theorem presentNext_aspec (p : Packet) (s : State) : (presentNext p s).aspec = s.aspec := rfl
@[simp] theorem presentNext_frames (p : Packet) (s : State) : (presentNext p s).frames = s.frames := rfl
@[simp] theorem presentNext_hist (p : Packet) (s : State) : (presentNext p s).hist = s.hist := rfl
@[simp] theorem presentNext_rptIdx (p : Packet) (s : State) : (presentNext p s).rptIdx = s.rptIdx := rfl
@[simp] theorem presentNext_ctrlObs (p : Packet) (s : State) : (presentNext p s).ctrlObs = s.ctrlObs := rfl
@[simp] theorem presentNext_statusErr (p : Packet) (s : State) : (presentNext p s).statusErr = s.statusErr := rfl
@[simp] theorem presentNext_statusDiag (p : Packet) (s : State) : (presentNext p s).statusDiag = s.statusDiag := rfl
@[simp] theorem presentNext_lastErr (p : Packet) (s : State) : (presentNext p s).lastErr = s.lastErr := rfl
@[simp] theorem presentNext_rsp (p : Packet) (s : State) : (presentNext p s).rsp = s.rsp := rfl
@[simp] theorem presentNext_obs (p : Packet) (s : State) : (presentNext p s).obs = s.obs := rfl

/-! ## The reset input -/

@[simp] theorem applyReset_cfg (s : State) : (applyReset s).cfg = s.cfg := rfl
@[simp] theorem applyReset_resetPin (s : State) : (applyReset s).resetPin = false := rfl
@[simp] theorem applyReset_cmd (s : State) : (applyReset s).cmd = s.cmd := rfl
@[simp] theorem applyReset_spec (s : State) : (applyReset s).spec = emptySpec := rfl
@[simp] theorem applyReset_aspec (s : State) : (applyReset s).aspec = emptySpec := rfl
@[simp] theorem applyReset_frames (s : State) : (applyReset s).frames = [] := rfl
@[simp] theorem applyReset_hist (s : State) : (applyReset s).hist = [] := rfl
@[simp] theorem applyReset_rptIdx (s : State) : (applyReset s).rptIdx = 0 := rfl
@[simp] theorem applyReset_ctrlObs (s : State) : (applyReset s).ctrlObs = false := rfl
@[simp] theorem applyReset_statusErr (s : State) : (applyReset s).statusErr = 0 := rfl
@[simp] theorem applyReset_statusDiag (s : State) : (applyReset s).statusDiag = 0 := rfl
@[simp] theorem applyReset_lastErr (s : State) : (applyReset s).lastErr = ⟨0, 0⟩ := rfl
@[simp] theorem applyReset_rsp (s : State) : (applyReset s).rsp = [] := rfl
@[simp] theorem applyReset_obs (s : State) : (applyReset s).obs = [] := rfl

/-! ## Replacing the current frame -/

@[simp] theorem withCurrent_cfg (s : State) (b : Build) (c : Bool) : ((withCurrent s b c).state).cfg = s.cfg := rfl
@[simp] theorem withCurrent_resetPin (s : State) (b : Build) (c : Bool) : ((withCurrent s b c).state).resetPin = s.resetPin := rfl
@[simp] theorem withCurrent_cmd (s : State) (b : Build) (c : Bool) : ((withCurrent s b c).state).cmd = s.cmd := rfl
@[simp] theorem withCurrent_spec (s : State) (b : Build) (c : Bool) : ((withCurrent s b c).state).spec = s.spec := rfl
@[simp] theorem withCurrent_aspec (s : State) (b : Build) (c : Bool) : ((withCurrent s b c).state).aspec = s.aspec := rfl
@[simp] theorem withCurrent_frames (s : State) (b : Build) (c : Bool) : ((withCurrent s b c).state).frames = setLast s.frames ⟨b.1, c⟩ := rfl
@[simp] theorem withCurrent_hist (s : State) (b : Build) (c : Bool) : ((withCurrent s b c).state).hist = s.hist := rfl
@[simp] theorem withCurrent_rptIdx (s : State) (b : Build) (c : Bool) : ((withCurrent s b c).state).rptIdx = s.rptIdx := rfl
@[simp] theorem withCurrent_ctrlObs (s : State) (b : Build) (c : Bool) : ((withCurrent s b c).state).ctrlObs = s.ctrlObs := rfl
@[simp] theorem withCurrent_statusErr (s : State) (b : Build) (c : Bool) : ((withCurrent s b c).state).statusErr = s.statusErr := rfl
@[simp] theorem withCurrent_statusDiag (s : State) (b : Build) (c : Bool) : ((withCurrent s b c).state).statusDiag = s.statusDiag := rfl
@[simp] theorem withCurrent_lastErr (s : State) (b : Build) (c : Bool) : ((withCurrent s b c).state).lastErr = s.lastErr := rfl
@[simp] theorem withCurrent_rsp (s : State) (b : Build) (c : Bool) : ((withCurrent s b c).state).rsp = s.rsp := rfl
@[simp] theorem withCurrent_obs (s : State) (b : Build) (c : Bool) : ((withCurrent s b c).state).obs = s.obs := rfl

/-! ## Starting a session -/

@[simp] theorem beginSession_cfg (s : State) : ((beginSession s).state).cfg = s.cfg := rfl
@[simp] theorem beginSession_resetPin (s : State) : ((beginSession s).state).resetPin = s.resetPin := rfl
@[simp] theorem beginSession_cmd (s : State) : ((beginSession s).state).cmd = s.cmd := rfl
@[simp] theorem beginSession_spec (s : State) : ((beginSession s).state).spec = s.spec := rfl
@[simp] theorem beginSession_aspec (s : State) : ((beginSession s).state).aspec = s.spec := rfl
@[simp] theorem beginSession_frames (s : State) : ((beginSession s).state).frames = [⟨(appendTokens (uqVal s.spec.t) s.spec.leader ([], 0)).1, false⟩] := rfl
@[simp] theorem beginSession_hist (s : State) : ((beginSession s).state).hist = [] := rfl
@[simp] theorem beginSession_rptIdx (s : State) : ((beginSession s).state).rptIdx = 0 := rfl
@[simp] theorem beginSession_ctrlObs (s : State) : ((beginSession s).state).ctrlObs = s.ctrlObs := rfl
@[simp] theorem beginSession_statusErr (s : State) : ((beginSession s).state).statusErr = s.statusErr := rfl
@[simp] theorem beginSession_statusDiag (s : State) : ((beginSession s).state).statusDiag = s.statusDiag := rfl
@[simp] theorem beginSession_lastErr (s : State) : ((beginSession s).state).lastErr = s.lastErr := rfl
@[simp] theorem beginSession_rsp (s : State) : ((beginSession s).state).rsp = s.rsp := rfl
@[simp] theorem beginSession_obs (s : State) : ((beginSession s).state).obs = s.obs := rfl

/-! ## Recording a bit -/

@[simp] theorem recordBit_cfg (b : Bool) (f : Frame) (w : Work) : ((recordBit b f w).state).cfg = w.state.cfg := rfl
@[simp] theorem recordBit_resetPin (b : Bool) (f : Frame) (w : Work) : ((recordBit b f w).state).resetPin = w.state.resetPin := rfl
@[simp] theorem recordBit_cmd (b : Bool) (f : Frame) (w : Work) : ((recordBit b f w).state).cmd = w.state.cmd := rfl
@[simp] theorem recordBit_spec (b : Bool) (f : Frame) (w : Work) : ((recordBit b f w).state).spec = w.state.spec := rfl
@[simp] theorem recordBit_aspec (b : Bool) (f : Frame) (w : Work) : ((recordBit b f w).state).aspec = w.state.aspec := rfl
@[simp] theorem recordBit_frames (b : Bool) (f : Frame) (w : Work) : ((recordBit b f w).state).frames = setLast w.state.frames
      ⟨(appendTokens (uqVal w.state.aspec.t) (bitShape w.state.aspec b) (f.entries, w.diag)).1, f.closed⟩ := rfl
@[simp] theorem recordBit_hist (b : Bool) (f : Frame) (w : Work) : ((recordBit b f w).state).hist = w.state.hist ++ [b] := rfl
@[simp] theorem recordBit_rptIdx (b : Bool) (f : Frame) (w : Work) : ((recordBit b f w).state).rptIdx = w.state.rptIdx := rfl
@[simp] theorem recordBit_ctrlObs (b : Bool) (f : Frame) (w : Work) : ((recordBit b f w).state).ctrlObs = w.state.ctrlObs := rfl
@[simp] theorem recordBit_statusErr (b : Bool) (f : Frame) (w : Work) : ((recordBit b f w).state).statusErr = w.state.statusErr := rfl
@[simp] theorem recordBit_statusDiag (b : Bool) (f : Frame) (w : Work) : ((recordBit b f w).state).statusDiag = w.state.statusDiag := rfl
@[simp] theorem recordBit_lastErr (b : Bool) (f : Frame) (w : Work) : ((recordBit b f w).state).lastErr = w.state.lastErr := rfl
@[simp] theorem recordBit_rsp (b : Bool) (f : Frame) (w : Work) : ((recordBit b f w).state).rsp = w.state.rsp := rfl
@[simp] theorem recordBit_obs (b : Bool) (f : Frame) (w : Work) : ((recordBit b f w).state).obs = if w.state.ctrlObs then w.state.obs ++ [obsWord b w.state.hist.length] else w.state.obs := rfl

/-! ## Opening a repeat frame -/

@[simp] theorem openRepeat_cfg (e : RepeatEntry) (w : Work) : ((openRepeat e w).state).cfg = w.state.cfg := rfl
@[simp] theorem openRepeat_resetPin (e : RepeatEntry) (w : Work) : ((openRepeat e w).state).resetPin = w.state.resetPin := rfl
@[simp] theorem openRepeat_cmd (e : RepeatEntry) (w : Work) : ((openRepeat e w).state).cmd = w.state.cmd := rfl
@[simp] theorem openRepeat_spec (e : RepeatEntry) (w : Work) : ((openRepeat e w).state).spec = w.state.spec := rfl
@[simp] theorem openRepeat_aspec (e : RepeatEntry) (w : Work) : ((openRepeat e w).state).aspec = w.state.aspec := rfl
@[simp] theorem openRepeat_frames (e : RepeatEntry) (w : Work) : ((openRepeat e w).state).frames = w.state.frames ++
      [⟨(padClose (uqVal e.target) (appendTokens (uqVal w.state.aspec.t) e.header ([], w.diag))).1, true⟩] := rfl
@[simp] theorem openRepeat_hist (e : RepeatEntry) (w : Work) : ((openRepeat e w).state).hist = w.state.hist := rfl
@[simp] theorem openRepeat_rptIdx (e : RepeatEntry) (w : Work) : ((openRepeat e w).state).rptIdx = if w.state.rptIdx = 65535 then 65535 else w.state.rptIdx + 1 := rfl
@[simp] theorem openRepeat_ctrlObs (e : RepeatEntry) (w : Work) : ((openRepeat e w).state).ctrlObs = w.state.ctrlObs := rfl
@[simp] theorem openRepeat_statusErr (e : RepeatEntry) (w : Work) : ((openRepeat e w).state).statusErr = w.state.statusErr := rfl
@[simp] theorem openRepeat_statusDiag (e : RepeatEntry) (w : Work) : ((openRepeat e w).state).statusDiag = w.state.statusDiag := rfl
@[simp] theorem openRepeat_lastErr (e : RepeatEntry) (w : Work) : ((openRepeat e w).state).lastErr = w.state.lastErr := rfl
@[simp] theorem openRepeat_rsp (e : RepeatEntry) (w : Work) : ((openRepeat e w).state).rsp = w.state.rsp := rfl
@[simp] theorem openRepeat_obs (e : RepeatEntry) (w : Work) : ((openRepeat e w).state).obs = w.state.obs := rfl

/-! ## Commands under way -/

@[simp] theorem emit_state (s : State) (d : BitVec 3) (p : List Word) : (emit s d p).state = s := rfl
@[simp] theorem emit_diag (s : State) (d : BitVec 3) (p : List Word) : (emit s d p).diag = d := rfl
@[simp] theorem emit_payload (s : State) (d : BitVec 3) (p : List Word) : (emit s d p).payload = p := rfl
@[simp] theorem silent_state (s : State) : (silent s).state = s := rfl
@[simp] theorem silent_diag (s : State) : (silent s).diag = 0 := rfl
@[simp] theorem silent_payload (s : State) : (silent s).payload = [] := rfl
@[simp] theorem withCurrent_diag (s : State) (b : Build) (c : Bool) : (withCurrent s b c).diag = b.2 := rfl
@[simp] theorem withCurrent_payload (s : State) (b : Build) (c : Bool) : (withCurrent s b c).payload = [] := rfl
@[simp] theorem beginSession_payload (s : State) : (beginSession s).payload = [] := rfl
@[simp] theorem recordBit_payload (b : Bool) (f : Frame) (w : Work) : (recordBit b f w).payload = w.payload := rfl
@[simp] theorem openRepeat_payload (e : RepeatEntry) (w : Work) : (openRepeat e w).payload = w.payload := rfl

/-! ## The forms in which claims name a result -/

theorem errored_eq (op : Byte) (e : ErrCode) (s : State) : errored op e s = raiseError op e s := rfl

theorem answered_emit (op : Byte) (d : BitVec 3) (p : List Word) (s : State) :
    answered op d p s = reply op (emit s d p) := rfl

theorem reply_eq_answered (op : Byte) (w : Work) : reply op w = answered op w.diag w.payload w.state := rfl

end Sys2Proof.Machine
end

