-- ==== Sys2Proof/Laws/Ops.lean ====
section
/-! SUPPORT. For each shared operation, one lemma that says what it can do. -/

namespace Sys2Proof.Machine

/-! ## Ending a command -/

theorem finish_error (o : Opcode) (s : State) (e : ErrCode) :
    finish o s (.error e) = .next (raiseError (opcodeByte o) e s) := rfl

theorem finish_ok (o : Opcode) (s : State) (w : Work) (h : w.payload.length ≤ maxRspWords) :
    finish o s (.ok w) = .next (reply (opcodeByte o) w) := by
  simp [finish, Nat.not_lt.2 h]

theorem finish_too_long (o : Opcode) (s : State) (w : Work) (h : maxRspWords < w.payload.length) :
    finish o s (.ok w) = .next (raiseError (opcodeByte o) .capacity s) := by
  simp [finish, h]

/-- A command answers a next state, always: an error entry from the state before it, or its reply. -/
theorem finish_next (o : Opcode) (s : State) (r : Except ErrCode Work) :
    (∃ e, finish o s r = .next (raiseError (opcodeByte o) e s))
      ∨ ∃ w, r = .ok w ∧ w.payload.length ≤ maxRspWords ∧ finish o s r = .next (reply (opcodeByte o) w) := by
  cases r with
  | error e => exact .inl ⟨e, rfl⟩
  | ok w =>
    by_cases h : maxRspWords < w.payload.length
    · exact .inl ⟨.capacity, finish_too_long o s w h⟩
    · exact .inr ⟨w, rfl, Nat.not_lt.1 h, finish_ok o s w (Nat.not_lt.1 h)⟩

/-! ## The current frame -/

theorem curOpen_eq_ok (s : State) (f : Frame) : curOpen s = .ok f ↔ s.frames.getLast? = some f ∧ f.closed = false := by
  unfold curOpen
  cases h : s.frames.getLast? with
  | none => simp
  | some g =>
    cases hc : g.closed <;> simp [hc]
    · rintro rfl; exact hc
    · rintro rfl; exact hc

theorem curOpen_eq_error (s : State) (e : ErrCode) :
    curOpen s = .error e ↔ e = .frameClosed ∧ ∀ f, s.frames.getLast? = some f → f.closed = true := by
  unfold curOpen
  cases h : s.frames.getLast? with
  | none => simp; exact eq_comm
  | some g => cases hc : g.closed <;> simp [hc]; exact eq_comm

@[simp] theorem setLast_getLast? (fs : List Frame) (f : Frame) : (setLast fs f).getLast? = some f := by simp [setLast]

@[simp] theorem setLast_setLast (fs : List Frame) (f g : Frame) : setLast (setLast fs f) g = setLast fs g := by simp [setLast]

theorem setLast_length (fs : List Frame) (f : Frame) (h : fs ≠ []) : (setLast fs f).length = fs.length := by
  have := List.length_pos_iff.2 h
  simp [setLast]; omega

theorem setLast_same (fs : List Frame) (f : Frame) (h : fs.getLast? = some f) : setLast fs f = fs := by
  simp only [setLast]
  obtain ⟨ys, rfl⟩ := List.getLast?_eq_some_iff.1 h
  simp

theorem mem_setLast {fs : List Frame} {f g : Frame} (h : g ∈ setLast fs f) : g ∈ fs ∨ g = f := by
  simp only [setLast, List.mem_append, List.mem_singleton] at h
  exact h.imp_left (List.mem_of_mem_dropLast ·)

/-! ## Tokens -/

theorem appendTokens_nil (t : Rat) (b : Build) : appendTokens t [] b = b := rfl

theorem appendTokens_cons (t : Rat) (tok : Token) (toks : List Token) (b : Build) :
    appendTokens t (tok :: toks) b = appendTokens t toks (appendToken t b tok) := rfl

theorem appendTokens_append (t : Rat) (xs ys : List Token) (b : Build) :
    appendTokens t (xs ++ ys) b = appendTokens t ys (appendTokens t xs b) := by simp [appendTokens]

/-- A token appends nothing and records `ZERODROP`, or appends itself, or a filler and itself (R144). -/
theorem appendToken_cases (t : Rat) (b : Build) (tok : Token) :
    appendToken t b tok = (b.1, b.2 ||| diagZeroDrop)
      ∨ appendToken t b tok = (b.1 ++ [resolve t tok], b.2)
      ∨ appendToken t b tok = (b.1 ++ [filler, resolve t tok], b.2) := by
  unfold appendToken
  cases tok.pol with
  | none => dsimp only; split <;> simp
  | some p => dsimp only; split <;> simp

theorem entryValue_resolve_nonneg (t : Rat) (ht : 0 ≤ t) (tok : Token) : 0 ≤ entryValue (resolve t tok) := by
  unfold resolve
  cases tok.kind <;> simp [entryValue, uqVal_nonneg, mul_nonneg, ht]

/-! ## Bits -/

/-- One bit appended to an open current frame; the frame stays the current frame and stays open (R146). -/
theorem appendBitStep_ok (b : Bool) (w w' : Work) (h : appendBitStep b w = .ok w') :
    ∃ f, curOpen w.state = .ok f ∧ w' = recordBit b f w := by
  unfold appendBitStep at h
  split at h
  · cases h
  · rename_i f hf; cases h; exact ⟨f, hf, rfl⟩

theorem curOpen_recordBit (b : Bool) (f : Frame) (w : Work) (h : f.closed = false) :
    curOpen (recordBit b f w).state
      = .ok ⟨(appendTokens (uqVal w.state.aspec.t) (bitShape w.state.aspec b) (f.entries, w.diag)).1, f.closed⟩ := by
  rw [curOpen_eq_ok]; simp [h]

/-- The fields no command writes while it is under way: the parameters, the reset input, the streams `CMD` and `RSP`, and the
status. -/
structure KeepsOuter (s t : State) : Prop where
  cfg : t.cfg = s.cfg
  resetPin : t.resetPin = s.resetPin
  cmd : t.cmd = s.cmd
  statusErr : t.statusErr = s.statusErr
  statusDiag : t.statusDiag = s.statusDiag
  lastErr : t.lastErr = s.lastErr
  rsp : t.rsp = s.rsp

theorem KeepsOuter.refl (s : State) : KeepsOuter s s := ⟨rfl, rfl, rfl, rfl, rfl, rfl, rfl⟩

theorem KeepsOuter.trans {s t u : State} (h : KeepsOuter s t) (k : KeepsOuter t u) : KeepsOuter s u :=
  ⟨k.cfg.trans h.cfg, k.resetPin.trans h.resetPin, k.cmd.trans h.cmd, k.statusErr.trans h.statusErr,
    k.statusDiag.trans h.statusDiag, k.lastErr.trans h.lastErr, k.rsp.trans h.rsp⟩

theorem recordBit_keepsOuter (b : Bool) (f : Frame) (w : Work) : KeepsOuter w.state (recordBit b f w).state :=
  ⟨rfl, rfl, rfl, rfl, rfl, rfl, rfl⟩

theorem openRepeat_keepsOuter (e : RepeatEntry) (w : Work) : KeepsOuter w.state (openRepeat e w).state :=
  ⟨rfl, rfl, rfl, rfl, rfl, rfl, rfl⟩

theorem appendBitSteps_keepsOuter (bits : List Bool) (w w' : Work) (h : appendBitSteps bits w = .ok w') :
    KeepsOuter w.state w'.state ∧ w'.payload = w.payload := by
  induction bits generalizing w with
  | nil => cases h; exact ⟨.refl _, rfl⟩
  | cons b bs ih =>
    unfold appendBitSteps at h
    split at h
    · cases h
    · rename_i v hv
      obtain ⟨f, -, rfl⟩ := appendBitStep_ok b w v hv
      exact ⟨(recordBit_keepsOuter b f w).trans (ih _ h).1, (ih _ h).2⟩

/-! ## Repeats -/

theorem repeatStep_ok (w w' : Work) (h : repeatStep w = .ok w') :
    ∃ e, repeatEntry w.state = some e ∧ fits w.state.cfg.maxFrames (w.state.frames.length + 1) = true
      ∧ w' = openRepeat e w := by
  unfold repeatStep at h
  split at h
  · cases h
  · rename_i e he
    split at h
    · rename_i hf; cases h; exact ⟨e, he, hf, rfl⟩
    · cases h

theorem repeatSteps_keepsOuter (n : Nat) (w w' : Work) (h : repeatSteps n w = .ok w') :
    KeepsOuter w.state w'.state ∧ w'.payload = w.payload := by
  induction n generalizing w with
  | zero => cases h; exact ⟨.refl _, rfl⟩
  | succ n ih =>
    unfold repeatSteps at h
    split at h
    · cases h
    · rename_i v hv
      obtain ⟨e, -, -, rfl⟩ := repeatStep_ok w v hv
      exact ⟨(openRepeat_keepsOuter e w).trans (ih _ h).1, (ih _ h).2⟩

theorem checkSession_ok (w w' : Work) : checkSession w = .ok w' ↔ w' = w ∧ sessionFits w.state = true := by
  unfold checkSession
  split
  · rename_i h; simp [h]; exact eq_comm
  · rename_i h; simp [h]

/-! ## Decoding -/

theorem decodeCommand_ok {o : Opcode} {a : Byte} {n : Half} {ws : List Word} {i : Instr}
    (h : decodeCommand o a n ws = .ok i) :
    subFieldOk o a = true ∧ countFieldOk o a n = true ∧ operandCount o a n = some ws.length
      ∧ decodeOperands o a n ws = .ok i := by
  unfold decodeCommand at h
  split at h
  · rename_i h1
    split at h
    · rename_i h2
      split at h
      · cases h
      · rename_i l hl
        split at h
        · rename_i h3; exact ⟨h1, h2, by rw [hl, h3], h⟩
        · cases h
    · cases h
  · cases h

theorem decode_ok {p : Packet} {i : Instr} (h : decode p = .ok i) :
    ∃ o, opcodeOf (headerOp p.head) = some o
      ∧ decodeCommand o (headerA p.head) (headerN p.head) p.tail = .ok i := by
  unfold decode at h
  split at h
  · cases h
  · rename_i o ho; exact ⟨o, ho, h⟩

theorem decode_mkPacket (o : Opcode) (a : Byte) (n : Half) (ws : List Word) :
    decode (mkPacket o a n ws) = decodeCommand o a n ws := by
  simp [decode, mkPacket, opcodeOf_opcodeByte]

/-! ## Commands -/

/-- The work that each command hands to `finish`. -/
def commandWork (i : Instr) (s : State) : Except ErrCode Work :=
  match i with
  | .rdStatus => rdStatusWork s
  | .obsCtrl en => obsCtrlWork en s
  | .rdHist => rdHistWork s
  | .bitFrom value => bitFromWork value s
  | .g4FromInt value => g4FromIntWork value s
  | .g4FromStr chars => g4FromStrWork chars s
  | .g4FromArr elems => g4FromArrWork elems s
  | .g8FromInt value => g8FromIntWork value s
  | .g8FromStr chars => g8FromStrWork chars s
  | .g8FromArr elems => g8FromArrWork elems s
  | .toBits4 g => toBits4Work g s
  | .toBits8 g => toBits8Work g s
  | .reverse4 g => reverse4Work g s
  | .reverse8 g => reverse8Work g s
  | .flip4 g => flip4Work g s
  | .flip8 g => flip8Work g s
  | .pack4 bits => pack4Work bits s
  | .pack8 bits => pack8Work bits s
  | .specClear => specClearWork s
  | .specT value => specTWork value s
  | .specFrame value => specFrameWork value s
  | .specStop tok => specStopWork tok s
  | .specLeader toks => specLeaderWork toks s
  | .specBit1 toks => specBit1Work toks s
  | .specBit0 toks => specBit0Work toks s
  | .specRpt header target => specRptWork header target s
  | .begin => beginWork s
  | .appendTime toks => appendTimeWork toks s
  | .appendBit b => appendBitWork b s
  | .appendBits bits => appendBitsWork bits s
  | .appendG4 g => appendG4Work g s
  | .appendG8 g => appendG8Work g s
  | .terminate => terminateWork s
  | .beginRepeat => beginRepeatWork s
  | .appendRepeats count => appendRepeatsWork count s
  | .toTicks => toTicksWork s
  | .toWire => toWireWork s
  | .classify ticks => classifyWork ticks s
  | .decode ticks => decodeWork ticks s

/-- Every command ends in `finish`. -/
theorem exec_eq_finish (i : Instr) (s : State) : exec i s = finish i.opcode s (commandWork i s) := by
  cases i <;> rfl

/-- A command answers a next state, always: the entry of an error, or its reply. -/
theorem exec_next (i : Instr) (s : State) :
    (∃ e, exec i s = .next (raiseError (opcodeByte i.opcode) e s))
      ∨ ∃ w, commandWork i s = .ok w ∧ w.payload.length ≤ maxRspWords
          ∧ exec i s = .next (reply (opcodeByte i.opcode) w) := by
  rw [exec_eq_finish]; exact finish_next _ _ _

/-- The work of a command keeps the fields outside the encoder state. -/
theorem commandWork_keepsOuter (i : Instr) (s : State) (w : Work) (h : commandWork i s = .ok w) : KeepsOuter s w.state := by
  revert w
  have same : ∀ {r : Except ErrCode Work} {d : BitVec 3} {p : List Word},
      r = .ok (emit s d p) → ∀ w, r = .ok w → KeepsOuter s w.state := by
    rintro r d p rfl w h; cases h; exact .refl s
  have mapped : ∀ {α : Type} (x : Except ErrCode α) (g : α → Work), (∀ a, KeepsOuter s (g a).state) →
      ∀ w, x.map g = .ok w → KeepsOuter s w.state := by
    intro α x g hg w h; cases x with
    | error e => cases h
    | ok a => cases h; exact hg a
  have bound : ∀ {α : Type} (x : Except ErrCode α) (g : α → Except ErrCode Work),
      (∀ a w, g a = .ok w → KeepsOuter s w.state) → ∀ w, x.bind g = .ok w → KeepsOuter s w.state := by
    intro α x g hg w h; cases x with
    | error e => cases h
    | ok a => exact hg a w h
  have checked : ∀ v : Work, KeepsOuter s v.state → ∀ w, checkSession v = .ok w → KeepsOuter s w.state := by
    intro v hv w h; rw [(checkSession_ok v w).1 h |>.1]; exact hv
  have bits : ∀ bs : List Bool, ∀ w, bitsWork bs s = .ok w → KeepsOuter s w.state := by
    intro bs w h
    unfold bitsWork at h
    cases hb : appendBitSteps bs (silent s) with
    | error e => rw [hb] at h; cases h
    | ok v => rw [hb] at h; exact checked v (appendBitSteps_keepsOuter bs _ _ hb).1 w h
  have reps : ∀ n : Nat, ∀ w, repeatsWork n s = .ok w → KeepsOuter s w.state := by
    intro n w h
    unfold repeatsWork at h
    cases hb : repeatSteps n (silent s) with
    | error e => rw [hb] at h; cases h
    | ok v => rw [hb] at h; exact checked v (repeatSteps_keepsOuter n _ _ hb).1 w h
  have now : ∀ {r : Except ErrCode Work} {v : Work}, r = .ok v → KeepsOuter s v.state →
      ∀ w, r = .ok w → KeepsOuter s w.state := by
    rintro r v rfl hv w h; cases h; exact hv
  have k : ∀ t : State, t.cfg = s.cfg → t.resetPin = s.resetPin → t.cmd = s.cmd → t.statusErr = s.statusErr →
      t.statusDiag = s.statusDiag → t.lastErr = s.lastErr → t.rsp = s.rsp → KeepsOuter s t :=
    fun t h1 h2 h3 h4 h5 h6 h7 => ⟨h1, h2, h3, h4, h5, h6, h7⟩
  cases i with
  | rdStatus => exact same rfl
  | obsCtrl en => exact now rfl (k _ rfl rfl rfl rfl rfl rfl rfl)
  | rdHist => exact same rfl
  | bitFrom v => exact same rfl
  | g4FromInt v => exact same rfl
  | g4FromStr cs => exact mapped _ _ fun a => .refl s
  | g4FromArr bs => exact mapped _ _ fun a => .refl s
  | g8FromInt v => exact same rfl
  | g8FromStr cs => exact mapped _ _ fun a => .refl s
  | g8FromArr bs => exact mapped _ _ fun a => .refl s
  | toBits4 g => exact same rfl
  | toBits8 g => exact same rfl
  | reverse4 g => exact same rfl
  | reverse8 g => exact same rfl
  | flip4 g => exact same rfl
  | flip8 g => exact same rfl
  | pack4 bs => exact same rfl
  | pack8 bs => exact same rfl
  | specClear => exact now rfl (k _ rfl rfl rfl rfl rfl rfl rfl)
  | specT v => exact now rfl (k _ rfl rfl rfl rfl rfl rfl rfl)
  | specFrame v => exact now rfl (k _ rfl rfl rfl rfl rfl rfl rfl)
  | specStop tok => exact mapped _ _ fun a => k _ rfl rfl rfl rfl rfl rfl rfl
  | specLeader toks => exact mapped _ _ fun a => k _ rfl rfl rfl rfl rfl rfl rfl
  | specBit1 toks => exact mapped _ _ fun a => k _ rfl rfl rfl rfl rfl rfl rfl
  | specBit0 toks => exact mapped _ _ fun a => k _ rfl rfl rfl rfl rfl rfl rfl
  | specRpt header target =>
    refine bound _ _ fun ts w h => ?_
    unfold addRepeat at h
    split at h
    · cases h; exact k _ rfl rfl rfl rfl rfl rfl rfl
    · cases h
  | begin => exact checked _ (k _ rfl rfl rfl rfl rfl rfl rfl)
  | appendTime toks =>
    exact bound _ _ fun ts => bound _ _ fun f => checked _ (k _ rfl rfl rfl rfl rfl rfl rfl)
  | appendBit b => exact bits _
  | appendBits bs => exact bits _
  | appendG4 g => exact bits _
  | appendG8 g => exact bits _
  | terminate => exact bound _ _ fun f => checked _ (k _ rfl rfl rfl rfl rfl rfl rfl)
  | beginRepeat => exact reps _
  | appendRepeats n => exact reps _
  | toTicks => exact same rfl
  | toWire => exact same rfl
  | classify ks => exact bound _ _ fun d => mapped _ _ fun a => .refl s
  | decode ks => exact bound _ _ fun d => mapped _ _ fun a => .refl s

end Sys2Proof.Machine
end

