-- ==== Sys2Proof/Laws/Frames.lean ====
section
/-! SUPPORT. What the token parser, the emitter and the frame-building operations can do. -/

namespace Sys2Proof.Machine

/-! ## Tokens -/

@[simp] theorem parseToken_tokenField (t : Token) : parseToken (tokenField t) = .ok t := by
  rcases t with ⟨k, m, p⟩
  cases k <;> rcases p with _ | _ | _ <;> rfl

@[simp] theorem parseTokens_map_tokenField (ts : List Token) : parseTokens (ts.map tokenField) = .ok ts := by
  induction ts with
  | nil => rfl
  | cons t ts ih => simp [parseTokens, ih]

@[simp] theorem parseOptToken_some_tokenField (t : Token) : parseOptToken (some (tokenField t)) = .ok (some t) := by
  simp [parseOptToken, Except.map]

theorem parseToken_of_malformed {f : TokenField} (h : malformedToken f = true) : parseToken f = .error .malformedInput := by
  rcases f with ⟨k, p, m⟩
  simp only [malformedToken, Bool.or_eq_true, beq_iff_eq] at h
  unfold parseToken
  rcases h with rfl | rfl
  · rfl
  · cases parseKind k <;> rfl

/-- A token word is malformed or denotes a token (R67). -/
theorem malformed_or_tokenField (f : TokenField) : malformedToken f = true ∨ ∃ t, tokenField t = f := by
  rcases f with ⟨k, p, m⟩
  rcases bitVec2_cases k with rfl | rfl | rfl | rfl <;> rcases bitVec2_cases p with rfl | rfl | rfl | rfl <;>
    first
    | exact .inl rfl
    | exact .inr ⟨⟨.us, m, none⟩, rfl⟩
    | exact .inr ⟨⟨.us, m, some .high⟩, rfl⟩
    | exact .inr ⟨⟨.us, m, some .low⟩, rfl⟩
    | exact .inr ⟨⟨.multT, m, none⟩, rfl⟩
    | exact .inr ⟨⟨.multT, m, some .high⟩, rfl⟩
    | exact .inr ⟨⟨.multT, m, some .low⟩, rfl⟩
    | exact .inr ⟨⟨.ticks, m, none⟩, rfl⟩
    | exact .inr ⟨⟨.ticks, m, some .high⟩, rfl⟩
    | exact .inr ⟨⟨.ticks, m, some .low⟩, rfl⟩

/-- One malformed token word decides for the whole packet (R121). -/
theorem parseTokens_of_malformed {fs : List TokenField} (h : fs.any malformedToken = true) :
    parseTokens fs = .error .malformedInput := by
  induction fs with
  | nil => cases h
  | cons f fs ih =>
    unfold parseTokens
    rcases malformed_or_tokenField f with hf | ⟨t, rfl⟩
    · rw [parseToken_of_malformed hf]
    · have ht : malformedToken (tokenField t) = false := by
        rcases t with ⟨k, m, p⟩
        cases k <;> rcases p with _ | _ | _ <;> rfl
      rw [List.any_cons, ht, Bool.false_or] at h
      rw [parseToken_tokenField, ih h]

/-! ## Emitting -/

theorem emitNat_of_lt {v : Nat} (h : v < 2 ^ 32) : emitNat v = BitVec.ofNat 32 v := if_pos h

theorem emitNat_toNat {v : Nat} (h : v < 2 ^ 32) : (emitNat v).toNat = v := by
  rw [emitNat_of_lt h, BitVec.toNat_ofNat, Nat.mod_eq_of_lt h]

/-! ## Capacities -/

theorem fits_mono {cap : Option Nat} {m n : Nat} (h : fits cap n = true) (hmn : m ≤ n) : fits cap m = true := by
  cases cap with
  | none => rfl
  | some k => simp only [fits, decide_eq_true_eq] at h ⊢; omega

/-! ## Building a frame -/

theorem appendToken_diag (t : Rat) (es : List Entry) (d : BitVec 3) (tok : Token) :
    appendToken t (es, d) tok = ((appendToken t (es, 0) tok).1, d ||| (appendToken t (es, 0) tok).2) := by
  unfold appendToken
  cases tok.pol with
  | none => dsimp only; split <;> simp
  | some p => dsimp only; split <;> simp

/-- The entries built do not depend on the diagnostics so far, and the new diagnostics are ORed into them. -/
theorem appendTokens_diag (t : Rat) (toks : List Token) (es : List Entry) (d : BitVec 3) :
    appendTokens t toks (es, d) = ((appendTokens t toks (es, 0)).1, d ||| (appendTokens t toks (es, 0)).2) := by
  induction toks generalizing es d with
  | nil => simp [appendTokens_nil]
  | cons tok toks ih =>
    rw [appendTokens_cons, appendTokens_cons, appendToken_diag, ih, ih _ (appendToken t (es, 0) tok).2]
    simp [BitVec.or_assoc]

theorem appendTokens_prefix_of (t : Rat) (toks : List Token) (b : Build) : b.1 <+: (appendTokens t toks b).1 := by
  induction toks generalizing b with
  | nil => exact List.prefix_refl _
  | cons tok toks ih =>
    rw [appendTokens_cons]
    refine List.IsPrefix.trans ?_ (ih _)
    rcases appendToken_cases t b tok with h | h | h <;> rw [h] <;> simp

/-- Padding adds nothing, or the padding of a positive number of ticks, or records `OVERLEN` (R152). -/
theorem padClose_cases (target : Rat) (b : Build) :
    padClose target b = b
      ∨ (dur b.1 < target ∧ padClose target b = (pad (rhu (2 * (target - dur b.1))) b.1, b.2))
      ∨ padClose target b = (b.1, b.2 ||| diagOverLen) := by
  unfold padClose
  split
  · exact .inl rfl
  · split
    · rename_i h; exact .inr (.inl ⟨h, rfl⟩)
    · split
      · exact .inr (.inr rfl)
      · exact .inl rfl

theorem padClose_diag (target : Rat) (es : List Entry) (d : BitVec 3) :
    padClose target (es, d) = ((padClose target (es, 0)).1, d ||| (padClose target (es, 0)).2) := by
  unfold padClose
  split
  · simp
  · dsimp only
    split
    · simp
    · split <;> simp

/-! ## Splitting -/

theorem tickMax_eq : tickMax = 65535 := rfl

theorem split_of_le {t : Nat} (h : t ≤ tickMax) : split t = [t] := by
  have h0 : (t - 1) / tickMax = 0 := by rw [tickMax_eq] at *; omega
  rw [split, h0, Nat.mul_zero, List.replicate_zero, List.flatten_nil, List.nil_append, Nat.sub_zero]

theorem split_of_lt {t : Nat} (h : tickMax < t) : split t = tickMax :: 0 :: split (t - tickMax) := by
  obtain ⟨k, hk⟩ : ∃ k, (t - 1) / tickMax = k + 1 := ⟨(t - 1) / tickMax - 1, by rw [tickMax_eq] at *; omega⟩
  have hk' : (t - tickMax - 1) / tickMax = k := by rw [tickMax_eq] at *; omega
  have hr : t - tickMax * (k + 1) = t - tickMax - tickMax * k := by rw [tickMax_eq] at *; omega
  rw [split, split, hk, hk', hr, List.replicate_succ, List.flatten_cons, List.append_assoc]
  rfl

theorem sub_tickMax_lt {t : Nat} (h : ¬ t ≤ tickMax) : t - tickMax < t := by rw [tickMax_eq] at *; omega

/-- An element of a split is at most `TICK_MAX` (R172). -/
theorem le_of_mem_split {t k : Nat} (h : k ∈ split t) : k ≤ tickMax := by
  generalize hm : tickMax = m at *
  induction t using Nat.strongRecOn with
  | ind t ih =>
    by_cases ht : t ≤ tickMax
    · rw [split_of_le ht, List.mem_singleton] at h
      rw [h, ← hm]; exact ht
    · rw [split_of_lt (Nat.not_le.1 ht)] at h
      rcases List.mem_cons.1 h with h | h
      · rw [h, hm]
      · rcases List.mem_cons.1 h with h | h
        · rw [h]; exact Nat.zero_le _
        · exact ih _ (sub_tickMax_lt ht) h

theorem split_length_odd (t : Nat) : (split t).length % 2 = 1 := by
  induction t using Nat.strongRecOn with
  | ind t ih =>
    by_cases ht : t ≤ tickMax
    · rw [split_of_le ht]; rfl
    · rw [split_of_lt (Nat.not_le.1 ht)]
      rw [List.length_cons, List.length_cons, Nat.add_assoc, Nat.add_mod_right]
      exact ih (t - tickMax) (sub_tickMax_lt ht)

/-! ## Sequences of bits and of repeats -/

/-- What appending bits to the open frame `f` does (R146, R148). -/
theorem appendBitSteps_of_open (bits : List Bool) (w : Work) (f : Frame) (h : openFrame w.state f) :
    appendBitSteps bits w
      = .ok { w with
              state := afterBits f bits w.state
              diag := w.diag ||| (bitsBuilt w.state.aspec f.entries bits).2 } := by
  have build : ∀ (spec : Spec) (bs : List Bool) (es : List Entry) (d : BitVec 3),
      bs.foldl (fun b bit => appendTokens (uqVal spec.t) (if bit then spec.bit1 else spec.bit0) b) (es, d)
        = ((bitsBuilt spec es bs).1, d ||| (bitsBuilt spec es bs).2) := by
    intro spec bs
    induction bs with
    | nil => intro es d; simp [bitsBuilt]
    | cons b bs ih =>
      intro es d
      rw [bitsBuilt, List.foldl_cons, List.foldl_cons, appendTokens_diag, ih, ih _ (appendTokens _ _ (es, 0)).2,
        BitVec.or_assoc]
  induction bits generalizing w f with
  | nil =>
    obtain ⟨hl, hc⟩ := h
    have h1 : w.state.frames.dropLast ++ [{ entries := f.entries, closed := false }] = w.state.frames := by
      have := setLast_same _ _ hl
      rw [setLast, show f = { entries := f.entries, closed := false } by rw [← hc]] at this
      exact this
    have h2 : afterBits f [] w.state = w.state := by
      unfold afterBits bitsBuilt bitObservers
      simp only [List.foldl_nil, h1]
      simp
    simp [appendBitSteps, h2, bitsBuilt]
  | cons b bs ih =>
    have ho := (curOpen_eq_ok w.state f).2 h
    have hn := (curOpen_eq_ok _ _).1 (curOpen_recordBit b f w h.2)
    rw [appendBitSteps, appendBitStep, ho]
    dsimp only
    rw [ih _ _ hn]
    rcases w with ⟨s, d, p⟩
    have hb := build s.aspec bs (appendTokens (uqVal s.aspec.t) (bitShape s.aspec b) (f.entries, 0)).1
      (appendTokens (uqVal s.aspec.t) (bitShape s.aspec b) (f.entries, 0)).2
    have hbits : bitsBuilt s.aspec f.entries (b :: bs)
        = ((bitsBuilt s.aspec (appendTokens (uqVal s.aspec.t) (bitShape s.aspec b) (f.entries, 0)).1 bs).1,
            (appendTokens (uqVal s.aspec.t) (bitShape s.aspec b) (f.entries, 0)).2
              ||| (bitsBuilt s.aspec (appendTokens (uqVal s.aspec.t) (bitShape s.aspec b) (f.entries, 0)).1 bs).2) := hb
    have hd := appendTokens_diag (uqVal s.aspec.t) (bitShape s.aspec b) f.entries d
    have hobs : bitObservers s.hist.length (b :: bs) = obsWord b s.hist.length :: bitObservers (s.hist.length + 1) bs := by
      have e1 : ∀ n : Nat, obsWord b n = BitVec.ofNat 32 (b.toNat * 65536 + n % 65536) := by
        intro n
        have : (b.toNat <<< 16) ||| (n % 65536) = b.toNat * 65536 + n % 65536 := by
          rw [← Nat.shiftLeft_add_eq_or_of_lt (i := 16) (by omega), Nat.shiftLeft_eq]
        rw [obsWord, this]
      rw [e1]
      unfold bitObservers
      rw [List.zipIdx_cons, List.map_cons, List.zipIdx_succ]
      simp [Nat.add_assoc, Nat.add_comm 1]
    simp only [recordBit, afterBits, hd, hbits, hobs, setLast, List.dropLast_concat, List.append_assoc, List.singleton_append,
      BitVec.or_assoc, List.length_append, List.length_singleton]
    by_cases hc : s.ctrlObs <;> simp [hc]

/-- Appending bits without an open frame: nothing for no bits, otherwise the error (R148). -/
theorem appendBitSteps_of_noOpen (bits : List Bool) (w : Work) (h : noOpenFrame w.state) :
    appendBitSteps bits w = if bits = [] then .ok w else .error .frameClosed := by
  cases bits with
  | nil => rfl
  | cons b bs => rw [appendBitSteps, appendBitStep, (curOpen_eq_error w.state .frameClosed).2 ⟨rfl, h⟩]; rfl

theorem repeatEntry_eq (s : State) (h : s.aspec.rpt ≠ []) : repeatEntry s = some (repeatAt s 0) := by
  have hl := List.length_pos_iff.2 h
  have hi : min s.rptIdx.toNat (s.aspec.rpt.length - 1) < s.aspec.rpt.length := by omega
  have h0 : min (s.rptIdx.toNat + 0) 65535 = s.rptIdx.toNat := by have := s.rptIdx.isLt; omega
  rw [repeatEntry, repeatAt, h0, List.getD_eq_getElem?_getD, List.getElem?_eq_getElem hi]
  rfl

theorem repeatStep_none (w : Work) (h : w.state.aspec.rpt = []) : repeatStep w = .error .noRepeatConfigured := by
  simp [repeatStep, repeatEntry, h]

/-- One repeat, as the state `afterRepeats 1` (R155). -/
theorem repeatStep_some (w : Work) (h : w.state.aspec.rpt ≠ []) :
    repeatStep w
      = if fits w.state.cfg.maxFrames (w.state.frames.length + 1) = true then
          .ok { w with
                state := afterRepeats 1 w.state
                diag := w.diag ||| (repeatBuilt w.state.aspec.t (repeatAt w.state 0)).2 }
        else .error .capacity := by
  rw [repeatStep, repeatEntry_eq _ h]
  dsimp only
  split
  · congr 1
    rcases w with ⟨s, d, p⟩
    have hr : padClose (uqVal (repeatAt s 0).target) (appendTokens (uqVal s.aspec.t) (repeatAt s 0).header ([], d))
        = ((repeatBuilt s.aspec.t (repeatAt s 0)).1, d ||| (repeatBuilt s.aspec.t (repeatAt s 0)).2) := by
      have h1 := padClose_diag (uqVal (repeatAt s 0).target)
        (appendTokens (uqVal s.aspec.t) (repeatAt s 0).header ([], 0)).1
      rw [repeatBuilt, appendTokens_diag, h1,
        show appendTokens (uqVal s.aspec.t) (repeatAt s 0).header ([], 0)
          = ((appendTokens (uqVal s.aspec.t) (repeatAt s 0).header ([], 0)).1,
              (appendTokens (uqVal s.aspec.t) (repeatAt s 0).header ([], 0)).2) from rfl,
        h1 (appendTokens (uqVal s.aspec.t) (repeatAt s 0).header ([], 0)).2]
      simp only [BitVec.or_assoc]
    have hi : (if s.rptIdx = 65535 then (65535 : Half) else s.rptIdx + 1) = BitVec.ofNat 16 (min (s.rptIdx.toNat + 1) 65535) := by
      have := s.rptIdx.isLt
      apply BitVec.eq_of_toNat_eq
      split
      · rename_i h; rw [h]; rfl
      · rename_i h
        have h1 : s.rptIdx.toNat ≠ 65535 := fun e => h (BitVec.eq_of_toNat_eq e)
        rw [BitVec.toNat_add, BitVec.toNat_ofNat]
        show (s.rptIdx.toNat + 1) % 65536 = min (s.rptIdx.toNat + 1) 65535 % 65536
        omega
    simp only [openRepeat, afterRepeats, hr, hi]
    rfl
  · rfl

end Sys2Proof.Machine
end

