-- ==== Sys2Proof/Laws/PerInstr.lean ====
section
/-! SUPPORT. Families of statements about every command, one lemma per constructor of `Instr`.
`HeaderRow`: the header a command encodes to is in its row of `spec/opcode_table.json`. -/

namespace Sys2Proof.Laws.HeaderRow

/-- The `mask` of a command's row. -/
def rowMask : Instr → Word
  | .rdStatus => 0xFFFFFFFF
  | .obsCtrl _ => 0xFFFFFFFE
  | .rdHist => 0xFFFFFFFF
  | .bitFrom _ => 0xFFFFFFFF
  | .g4FromInt _ => 0xFFFFFFFF
  | .g4FromStr _ => 0xFFFF0000
  | .g4FromArr _ => 0xFFFF0000
  | .g8FromInt _ => 0xFFFFFFFF
  | .g8FromStr _ => 0xFFFF0000
  | .g8FromArr _ => 0xFFFF0000
  | .toBits4 _ => 0xFFFFFFF0
  | .toBits8 _ => 0xFFFFFF00
  | .reverse4 _ => 0xFFFFFFF0
  | .reverse8 _ => 0xFFFFFF00
  | .flip4 _ => 0xFFFFFFF0
  | .flip8 _ => 0xFFFFFF00
  | .pack4 _ => 0xFFFF0000
  | .pack8 _ => 0xFFFF0000
  | .specClear => 0xFFFFFFFF
  | .specT _ => 0xFFFFFFFF
  | .specFrame _ => 0xFFFFFFFF
  | .specStop _ => 0xFFFFFFFE
  | .specLeader _ => 0xFFFF0000
  | .specBit1 _ => 0xFFFF0000
  | .specBit0 _ => 0xFFFF0000
  | .specRpt _ _ => 0xFFFF0000
  | .begin => 0xFFFFFFFF
  | .appendTime _ => 0xFFFF0000
  | .appendBit _ => 0xFFFFFFFE
  | .appendBits _ => 0xFFFF0000
  | .appendG4 _ => 0xFFFFFFF0
  | .appendG8 _ => 0xFFFFFF00
  | .terminate => 0xFFFFFFFF
  | .beginRepeat => 0xFFFFFFFF
  | .appendRepeats _ => 0xFFFF0000
  | .toTicks => 0xFFFFFFFF
  | .toWire => 0xFFFFFFFF
  | .classify _ => 0xFFFF0000
  | .decode _ => 0xFFFF0000

/-- The `match` of a command's row. -/
def rowMatch : Instr → Word
  | .rdStatus => 0x01000000
  | .obsCtrl _ => 0x02000000
  | .rdHist => 0x03000000
  | .bitFrom _ => 0x10000000
  | .g4FromInt _ => 0x11000000
  | .g4FromStr _ => 0x11010000
  | .g4FromArr _ => 0x11020000
  | .g8FromInt _ => 0x12000000
  | .g8FromStr _ => 0x12010000
  | .g8FromArr _ => 0x12020000
  | .toBits4 _ => 0x13040000
  | .toBits8 _ => 0x13080000
  | .reverse4 _ => 0x14040000
  | .reverse8 _ => 0x14080000
  | .flip4 _ => 0x15040000
  | .flip8 _ => 0x15080000
  | .pack4 _ => 0x16040000
  | .pack8 _ => 0x16080000
  | .specClear => 0x20000000
  | .specT _ => 0x21000000
  | .specFrame _ => 0x22000000
  | .specStop _ => 0x23000000
  | .specLeader _ => 0x24000000
  | .specBit1 _ => 0x25000000
  | .specBit0 _ => 0x26000000
  | .specRpt _ _ => 0x27000000
  | .begin => 0x30000000
  | .appendTime _ => 0x31000000
  | .appendBit _ => 0x32000000
  | .appendBits _ => 0x33000000
  | .appendG4 _ => 0x34000000
  | .appendG8 _ => 0x35000000
  | .terminate => 0x36000000
  | .beginRepeat => 0x37000000
  | .appendRepeats _ => 0x38000000
  | .toTicks => 0x39000000
  | .toWire => 0x3A000000
  | .classify _ => 0x40000000
  | .decode _ => 0x41000000

/-- The header of the command's packet lies in the command's row of the table. -/
def Statement (i : Instr) : Prop := (encode i).head &&& rowMask i = rowMatch i

/-- A header whose `op` and `a` are kept whole by a mask and whose `n` is dropped by it. -/
theorem mask_count (o : Opcode) (a : Byte) (n : Half) :
    mkHeader (opcodeByte o) a n &&& 0xFFFF0000 = mkHeader (opcodeByte o) a 0 := by
  apply word_ext
  intro i hi
  have hm : BitVec.getLsbD (0xFFFF0000 : Word) i = decide (16 ≤ i) := by revert i; decide
  simp only [mkHeader, BitVec.getLsbD_and, BitVec.getLsbD_or, BitVec.getLsbD_shiftLeft, BitVec.getLsbD_setWidth, hi, hm]
  by_cases h : 16 ≤ i
  · simp [h]
  · simp [h, show i < 24 by omega, show i < 16 by omega]

theorem rdStatus : Statement .rdStatus := rfl
theorem obsCtrl (en : Bool) : Statement (.obsCtrl en) := by cases en <;> rfl
theorem rdHist : Statement .rdHist := rfl
theorem bitFrom (v : BitLike) : Statement (.bitFrom v) := by
  change mkHeader (opcodeByte .bitFrom) 0 0 &&& (0xFFFFFFFF : Word) = 0x10000000; decide
theorem g4FromInt (v : Word) : Statement (.g4FromInt v) := by
  change mkHeader (opcodeByte .g4From) 0 0 &&& (0xFFFFFFFF : Word) = 0x11000000; decide
theorem g4FromStr (cs : List Byte) : Statement (.g4FromStr cs) := (mask_count _ _ _).trans rfl
theorem g4FromArr (bs : List BitLike) : Statement (.g4FromArr bs) := (mask_count _ _ _).trans rfl
theorem g8FromInt (v : Word) : Statement (.g8FromInt v) := by
  change mkHeader (opcodeByte .g8From) 0 0 &&& (0xFFFFFFFF : Word) = 0x12000000; decide
theorem g8FromStr (cs : List Byte) : Statement (.g8FromStr cs) := (mask_count _ _ _).trans rfl
theorem g8FromArr (bs : List BitLike) : Statement (.g8FromArr bs) := (mask_count _ _ _).trans rfl
theorem toBits4 (g : BitVec 4) : Statement (.toBits4 g) := by revert g; unfold Statement; decide
theorem toBits8 (g : BitVec 8) : Statement (.toBits8 g) := by revert g; unfold Statement; decide +kernel
theorem reverse4 (g : BitVec 4) : Statement (.reverse4 g) := by revert g; unfold Statement; decide
theorem reverse8 (g : BitVec 8) : Statement (.reverse8 g) := by revert g; unfold Statement; decide +kernel
theorem flip4 (g : BitVec 4) : Statement (.flip4 g) := by revert g; unfold Statement; decide
theorem flip8 (g : BitVec 8) : Statement (.flip8 g) := by revert g; unfold Statement; decide +kernel
theorem pack4 (bits : List Bool) : Statement (.pack4 bits) := (mask_count _ _ _).trans rfl
theorem pack8 (bits : List Bool) : Statement (.pack8 bits) := (mask_count _ _ _).trans rfl
theorem specClear : Statement .specClear := rfl
theorem specT (v : UQ) : Statement (.specT v) := by
  change mkHeader (opcodeByte .specT) 0 0 &&& (0xFFFFFFFF : Word) = 0x21000000; decide
theorem specFrame (v : UQ) : Statement (.specFrame v) := by
  change mkHeader (opcodeByte .specFrame) 0 0 &&& (0xFFFFFFFF : Word) = 0x22000000; decide
theorem specStop (tok : Option TokenField) : Statement (.specStop tok) := by
  cases tok with
  | none => rfl
  | some t => change mkHeader (opcodeByte .specStop) 0 1 &&& (0xFFFFFFFE : Word) = 0x23000000; decide
theorem specLeader (toks : List TokenField) : Statement (.specLeader toks) := (mask_count _ _ _).trans rfl
theorem specBit1 (toks : List TokenField) : Statement (.specBit1 toks) := (mask_count _ _ _).trans rfl
theorem specBit0 (toks : List TokenField) : Statement (.specBit0 toks) := (mask_count _ _ _).trans rfl
theorem specRpt (header : List TokenField) (target : UQ) : Statement (.specRpt header target) :=
  (mask_count _ _ _).trans rfl
theorem begin : Statement .begin := rfl
theorem appendTime (toks : List TokenField) : Statement (.appendTime toks) := (mask_count _ _ _).trans rfl
theorem appendBit (b : Bool) : Statement (.appendBit b) := by cases b <;> rfl
theorem appendBits (bits : List Bool) : Statement (.appendBits bits) := (mask_count _ _ _).trans rfl
theorem appendG4 (g : BitVec 4) : Statement (.appendG4 g) := by revert g; unfold Statement; decide
theorem appendG8 (g : BitVec 8) : Statement (.appendG8 g) := by revert g; unfold Statement; decide +kernel
theorem terminate : Statement .terminate := rfl
theorem beginRepeat : Statement .beginRepeat := rfl
theorem appendRepeats (count : Half) : Statement (.appendRepeats count) := (mask_count _ _ _).trans rfl
theorem toTicks : Statement .toTicks := rfl
theorem toWire : Statement .toWire := rfl
theorem classify (ticks : List Half) : Statement (.classify ticks) := (mask_count _ _ _).trans rfl
theorem decode (ticks : List Half) : Statement (.decode ticks) := (mask_count _ _ _).trans rfl

end Sys2Proof.Laws.HeaderRow
end

