-- ==== Sys2Proof/Tests/Slice0.lean ====
section
/-! SUPPORT. Tests: the well-formedness checks, one written-out packet per command, steps from the vectors of
`spec/95_test_vectors.md` (V, P) and the examples of the rules (R), and a witness for the hypotheses of each statement. -/

namespace Sys2Proof.Tests

open Sys2Proof Sys2Proof.Machine

/-! ## Well-formedness: each check refuses a list that the count field cannot hold -/

theorem refuse {α : Type} (x : α) : countFits (List.replicate 65536 x).length = false :=
  (congrArg countFits List.length_replicate).trans (by decide)

theorem test_wf_g4FromStr : wellFormed (.g4FromStr (List.replicate 65536 0)) = false := refuse _
theorem test_wf_g4FromArr : wellFormed (.g4FromArr (List.replicate 65536 (.int 0))) = false := refuse _
theorem test_wf_g8FromStr : wellFormed (.g8FromStr (List.replicate 65536 0)) = false := refuse _
theorem test_wf_g8FromArr : wellFormed (.g8FromArr (List.replicate 65536 (.int 0))) = false := refuse _
theorem test_wf_pack4 : wellFormed (.pack4 (List.replicate 65536 true)) = false := refuse _
theorem test_wf_pack8 : wellFormed (.pack8 (List.replicate 65536 true)) = false := refuse _
theorem test_wf_specLeader : wellFormed (.specLeader (List.replicate 65536 ⟨0, 0, 0⟩)) = false := refuse _
theorem test_wf_specBit1 : wellFormed (.specBit1 (List.replicate 65536 ⟨0, 0, 0⟩)) = false := refuse _
theorem test_wf_specBit0 : wellFormed (.specBit0 (List.replicate 65536 ⟨0, 0, 0⟩)) = false := refuse _
theorem test_wf_specRpt : wellFormed (.specRpt (List.replicate 65536 ⟨0, 0, 0⟩) 0) = false := refuse _
theorem test_wf_appendTime : wellFormed (.appendTime (List.replicate 65536 ⟨0, 0, 0⟩)) = false := refuse _
theorem test_wf_appendBits : wellFormed (.appendBits (List.replicate 65536 true)) = false := refuse _
theorem test_wf_classify : wellFormed (.classify (List.replicate 65536 0)) = false := refuse _
theorem test_wf_decode : wellFormed (.decode (List.replicate 65536 0)) = false := refuse _
theorem test_wf_longest : wellFormed (.decode (List.replicate 65535 0)) = true :=
  (congrArg countFits List.length_replicate).trans (by decide)

/-! ## Decoding: one packet per command, its words from the rule's encoding and example -/

theorem test_decode_rdStatus : decode ⟨0x01000000, []⟩ = .ok .rdStatus := by decide
theorem test_decode_obsCtrl : decode ⟨0x02000001, []⟩ = .ok (.obsCtrl true) := by decide
theorem test_decode_rdHist : decode ⟨0x03000000, []⟩ = .ok .rdHist := by decide
theorem test_decode_bitFrom : decode ⟨0x10000000, [0x00000231]⟩ = .ok (.bitFrom (.char 0x31)) := by decide
theorem test_decode_g4FromInt : decode ⟨0x11000000, [0x0000000A]⟩ = .ok (.g4FromInt 10) := by decide
theorem test_decode_g4FromStr :
    decode ⟨0x11010004, [0x31, 0x30, 0x31, 0x30]⟩ = .ok (.g4FromStr [0x31, 0x30, 0x31, 0x30]) := by decide
theorem test_decode_g4FromArr :
    decode ⟨0x11020004, [0x101, 0x300, 0x102, 0x001]⟩ = .ok (.g4FromArr [.int 1, .other 0, .int 2, .bool true]) := by decide
theorem test_decode_g8FromInt : decode ⟨0x12000000, [0x00000161]⟩ = .ok (.g8FromInt 353) := by decide
theorem test_decode_g8FromStr : decode ⟨0x12010001, [0x00000061]⟩ = .ok (.g8FromStr [0x61]) := by decide
theorem test_decode_g8FromArr : decode ⟨0x12020002, [0x100, 0x230]⟩ = .ok (.g8FromArr [.int 0, .char 0x30]) := by decide
theorem test_decode_toBits4 : decode ⟨0x1304000A, []⟩ = .ok (.toBits4 0xA) := by decide
theorem test_decode_toBits8 : decode ⟨0x13080061, []⟩ = .ok (.toBits8 0x61) := by decide
theorem test_decode_reverse4 : decode ⟨0x14040001, []⟩ = .ok (.reverse4 1) := by decide
theorem test_decode_reverse8 : decode ⟨0x140800FB, []⟩ = .ok (.reverse8 0xFB) := by decide
theorem test_decode_flip4 : decode ⟨0x15040005, []⟩ = .ok (.flip4 5) := by decide
theorem test_decode_flip8 : decode ⟨0x15080020, []⟩ = .ok (.flip8 0x20) := by decide
theorem test_decode_pack4 : decode ⟨0x16040003, [0xA0000000]⟩ = .ok (.pack4 [true, false, true]) := by decide
theorem test_decode_pack8 :
    decode ⟨0x1608000A, [0x61400000]⟩
      = .ok (.pack8 [false, true, true, false, false, false, false, true, false, true]) := by decide
theorem test_decode_specClear : decode ⟨0x20000000, []⟩ = .ok .specClear := by decide
theorem test_decode_specT : decode ⟨0x21000000, [0x00023200]⟩ = .ok (.specT 0x23200) := by decide
theorem test_decode_specFrame : decode ⟨0x22000000, [0x01A5E000]⟩ = .ok (.specFrame 0x1A5E000) := by decide
theorem test_decode_specStop : decode ⟨0x23000001, [0x40000100]⟩ = .ok (.specStop (some ⟨1, 0, 0x100⟩)) := by decide
theorem test_decode_specStop_none : decode ⟨0x23000000, []⟩ = .ok (.specStop none) := by decide
theorem test_decode_specLeader :
    decode ⟨0x24000002, [0x40001000, 0x40000800]⟩ = .ok (.specLeader [⟨1, 0, 0x1000⟩, ⟨1, 0, 0x800⟩]) := by decide
theorem test_decode_specBit1 :
    decode ⟨0x25000002, [0xA0001E00, 0x60000280]⟩ = .ok (.specBit1 [⟨2, 2, 0x1E00⟩, ⟨1, 2, 0x280⟩]) := by decide
theorem test_decode_specBit0 : decode ⟨0x26000001, [0x10023200]⟩ = .ok (.specBit0 [⟨0, 1, 0x23200⟩]) := by decide
theorem test_decode_specRpt :
    decode ⟨0x27000003, [0x40001000, 0x40000400, 0x40000100, 0x01A5E000]⟩
      = .ok (.specRpt [⟨1, 0, 0x1000⟩, ⟨1, 0, 0x400⟩, ⟨1, 0, 0x100⟩] 0x1A5E000) := by decide
theorem test_decode_begin : decode ⟨0x30000000, []⟩ = .ok .begin := by decide
theorem test_decode_appendTime : decode ⟨0x31000001, [0x20006400]⟩ = .ok (.appendTime [⟨0, 2, 0x6400⟩]) := by decide
theorem test_decode_appendBit : decode ⟨0x32000001, []⟩ = .ok (.appendBit true) := by decide
theorem test_decode_appendBits :
    decode ⟨0x33000008, [0x20000000]⟩
      = .ok (.appendBits [false, false, true, false, false, false, false, false]) := by decide
theorem test_decode_appendG4 : decode ⟨0x3400000A, []⟩ = .ok (.appendG4 0xA) := by decide
theorem test_decode_appendG8 : decode ⟨0x35000020, []⟩ = .ok (.appendG8 0x20) := by decide
theorem test_decode_terminate : decode ⟨0x36000000, []⟩ = .ok .terminate := by decide
theorem test_decode_beginRepeat : decode ⟨0x37000000, []⟩ = .ok .beginRepeat := by decide
theorem test_decode_appendRepeats : decode ⟨0x38000002, []⟩ = .ok (.appendRepeats 2) := by decide
theorem test_decode_toTicks : decode ⟨0x39000000, []⟩ = .ok .toTicks := by decide
theorem test_decode_toWire : decode ⟨0x3A000000, []⟩ = .ok .toWire := by decide
theorem test_decode_classify : decode ⟨0x40000002, [0x4640, 0x2320]⟩ = .ok (.classify [17984, 8992]) := by decide
theorem test_decode_decode : decode ⟨0x41000001, [0xD2C]⟩ = .ok (.decode [3372]) := by decide

/-! ## Decoding: the five checks of R78 in their order, and the unrecognised shape of R79 (2) -/

theorem test_reject_zero_word : decode ⟨0, []⟩ = .error .unknownOpcode := by decide
theorem test_reject_width5 : decode ⟨0x13050001, []⟩ = .error .badSubField := by decide
theorem test_reject_group_too_wide : decode ⟨0x13040010, []⟩ = .error .badCountField := by decide
theorem test_reject_stop_count : decode ⟨0x23000002, [0x40000100, 0x40000100]⟩ = .error .badCountField := by decide
theorem test_reject_surplus_word : decode ⟨0x30000000, [5]⟩ = .error .wrongLength := by decide
theorem test_reject_value_bits : decode ⟨0x21000000, [0x10000000]⟩ = .error .badOperandWord := by decide
theorem test_reject_tick_bits : decode ⟨0x40000001, [0x10000]⟩ = .error .badOperandWord := by decide
theorem test_reject_char_bits : decode ⟨0x12010001, [0x100]⟩ = .error .badOperandWord := by decide
theorem test_reject_bool_two : decode ⟨0x10000000, [2]⟩ = .error .badOperandWord := by decide
theorem test_reject_spare_bits : decode ⟨0x16040003, [0xA1000000]⟩ = .error .badOperandWord := by decide
theorem test_reject_shape : decode ⟨0x11030000, []⟩ = .error .unrecognisedShape := by decide
theorem test_reject_int_count : decode ⟨0x11000001, [5]⟩ = .error .unrecognisedShape := by decide

/-! ## Steps -/

/-- The words of the last response after one step on a packet. -/
def answer (head : Word) (tail : List Word) (s : State) : List Word :=
  match step (presentNext ⟨head, tail⟩ s) with
  | .next t => match t.rsp.getLast? with | some r => r.head :: r.tail | none => []
  | _ => []

/-- The frames after one step on a packet. -/
def framesAfter (head : Word) (tail : List Word) (s : State) : List Frame :=
  match step (presentNext ⟨head, tail⟩ s) with
  | .next t => t.frames
  | _ => []

/-- A session with base unit 100, a stop pulse `1T`, a target of 1000, a repeat of `16T, 4T` to 3000, and one frame. -/
def session (entries : List Entry) (closed : Bool) : State :=
  { State.reset with
    aspec :=
      { t := 25600, leader := [], bit1 := [timesT 1, timesT 3], bit0 := [timesT 1, timesT 1], stop := some (timesT 1)
        frame := wholeUs 1000, rpt := [{ header := [timesT 16, timesT 4], target := wholeUs 3000 }] }
    frames := [{ entries := entries, closed := closed }]
    ctrlObs := true }

/-- R210: RD_STATUS directly after reset. -/
theorem test_rdStatus_reset : answer 0x01000000 [] .reset = [0x01000006, 0, 0, 0, 0, 0, 0] := by decide
/-- R210: one open frame of two entries, the observer enabled. -/
theorem test_rdStatus_open : answer 0x01000000 [] (session [.us 200, .us 100] false) = [0x01000006, 0x10000, 0, 0x10001, 0, 0, 2] := by decide
/-- R130, V22. -/
theorem test_obsCtrl : answer 0x02000001 [] .reset = [0x02000000] := by decide
/-- R160: the history `00100000`. -/
theorem test_rdHist : answer 0x03000000 [] { State.reset with hist := bitsOf 0x20#8 } = [0x03000002, 8, 0x20000000] := by decide
/-- V8. -/
theorem test_bitFrom_two : answer 0x10000000 [0x102] .reset = [0x10000001, 0] := by decide
theorem test_bitFrom_char : answer 0x10000000 [0x231] .reset = [0x10000001, 1] := by decide
/-- V9, V11, V12. -/
theorem test_g4FromInt_31 : answer 0x11000000 [0x1F] .reset = [0x11000001, 0xF] := by decide
theorem test_g4FromStr : answer 0x11010004 [0x31, 0x30, 0x31, 0x30] .reset = [0x11000001, 0xA] := by decide
theorem test_g4FromStr_two : answer 0x11010004 [0x31, 0x30, 0x32, 0x31] .reset = [0x11100000] := by decide
theorem test_g4FromArr : answer 0x11020004 [0x101, 0x300, 0x102, 0x001] .reset = [0x11000001, 9] := by decide
theorem test_g8FromInt : answer 0x12000000 [0x161] .reset = [0x12000001, 0x61] := by decide
theorem test_g8FromStr_one : answer 0x12010001 [0x31] .reset = [0x12000001, 0x31] := by decide
theorem test_g8FromStr_eight :
    answer 0x12010008 [0x30, 0x31, 0x31, 0x30, 0x30, 0x30, 0x30, 0x31] .reset = [0x12000001, 0x61] := by decide
theorem test_g8FromArr :
    answer 0x12020008 [0x100, 0x101, 0x101, 0x100, 0x100, 0x100, 0x100, 0x101] .reset = [0x12000001, 0x61] := by decide
/-- V13, V14, V15. -/
theorem test_toBits4 : answer 0x1304000A [] .reset = [0x13000002, 4, 0xA0000000] := by decide
theorem test_toBits8 : answer 0x13080061 [] .reset = [0x13000002, 8, 0x61000000] := by decide
theorem test_reverse4 : answer 0x14040001 [] .reset = [0x14000001, 8] := by decide
theorem test_reverse8 : answer 0x140800FB [] .reset = [0x14000001, 0xDF] := by decide
theorem test_flip4 : answer 0x15040005 [] .reset = [0x15000001, 0xA] := by decide
theorem test_flip8 : answer 0x15080020 [] .reset = [0x15000001, 0xDF] := by decide
theorem test_pack4 : answer 0x16040003 [0xA0000000] .reset = [0x16020001, 0xA] := by decide
theorem test_pack8 : answer 0x1608000A [0x61400000] .reset = [0x16020002, 0x61, 0x40] := by decide
/-- V20, V21. -/
theorem test_specClear : answer 0x20000000 [] (session [] false) = [0x20000000] := by decide
theorem test_specT : answer 0x21000000 [0x23200] .reset = [0x21000000] := by decide
theorem test_specFrame : answer 0x22000000 [0x1A5E000] .reset = [0x22000000] := by decide
theorem test_specStop : answer 0x23000001 [0x40000100] .reset = [0x23000000] := by decide
theorem test_specLeader_malformed : answer 0x24000002 [0x40001000, 0xF0000000] .reset = [0x24100000] := by decide
theorem test_specLeader_long : answer 0x24000011 (List.replicate 17 0x100) .reset = [0x24700000] := by decide
theorem test_specBit1 : answer 0x25000002 [0x40000100, 0x40000300] .reset = [0x25000000] := by decide
theorem test_specBit0 : answer 0x26000002 [0x40000100, 0x40000100] .reset = [0x26000000] := by decide
theorem test_specRpt_target_first : answer 0x27000001 [0xF0000000, 0x10000000] .reset = [0x27600000] := by decide
theorem test_specRpt_fifth :
    answer 0x27000000 [0] { State.reset with spec := { emptySpec with rpt := List.replicate 4 ⟨[], 0⟩ } } = [0x27700000] := by
  decide
/-- R141: BEGIN with the NEC spec. -/
theorem test_begin :
    framesAfter 0x30000000 [] { State.reset with spec := necSpec } = [⟨[.us 8992, .us 4496], false⟩] := by decide +kernel
/-- V50, V54. -/
theorem test_appendTime_low : framesAfter 0x31000001 [0x20006400] (session [] false) = [⟨[.tk 0, .us 100], false⟩] := by
  decide +kernel
theorem test_appendTime_zero : answer 0x31000001 [0] (session [] false) = [0x31040000] := by decide +kernel
/-- R146, R147, R149, R150: the shapes at T = 100, most significant bit first. -/
theorem test_appendBit : framesAfter 0x32000001 [] (session [] false) = [⟨[.us 100, .us 300], false⟩] := by decide +kernel
theorem test_appendBits_closed : answer 0x33000001 [0x80000000] (session [] true) = [0x33200000] := by decide +kernel
theorem test_appendBits_none : answer 0x33000000 [] (session [] true) = [0x33000000] := by decide +kernel
theorem test_appendG4 :
    framesAfter 0x34000008 [] (session [] false)
      = [⟨[.us 100, .us 300, .us 100, .us 100, .us 100, .us 100, .us 100, .us 100], false⟩] := by decide +kernel
theorem test_appendG8_closed : answer 0x35000001 [] .reset = [0x35200000] := by decide +kernel
/-- V58, V60. -/
theorem test_terminate :
    framesAfter 0x36000000 [] (session [.us 200, .us 100] false)
      = [⟨[.us 200, .us 100, .us 100, .tk 1200], true⟩] := by decide +kernel
theorem test_terminate_over : answer 0x36000000 [] (session [.us 900, .us 300] false) = [0x36080000] := by decide +kernel
/-- R155: a repeat of 1600 and 400 padded by 1000 microseconds behind a filler; R156: no repeat configured. -/
theorem test_beginRepeat :
    framesAfter 0x37000000 [] (session [.us 200] true)
      = [⟨[.us 200], true⟩, ⟨[.us 1600, .us 400, .tk 0, .tk 2000], true⟩] := by decide +kernel
theorem test_beginRepeat_none : answer 0x37000000 [] .reset = [0x37300000] := by decide +kernel
theorem test_appendRepeats : (framesAfter 0x38000002 [] (session [.us 200] true)).length = 3 := by decide +kernel
theorem test_appendRepeats_zero : answer 0x38000000 [] .reset = [0x38000000] := by decide +kernel
/-- R170, R174: 400, 200, 200, 1200; V6: 80000 ticks are split. -/
theorem test_toTicks :
    answer 0x39000000 [] (session [.us 200, .us 100, .us 100, .tk 1200] true) = [0x39000004, 400, 200, 200, 1200] := by
  decide +kernel
theorem test_toTicks_split : answer 0x39000000 [] (session [.us 40000] false) = [0x39000003, 65535, 0, 14465] := by
  decide +kernel
theorem test_toWire :
    answer 0x3A000000 [] (session [.us 200, .us 100, .us 100, .tk 1200] true)
      = [0x3A000005, 0x01260004, 400, 200, 200, 1200] := by decide +kernel
/-- V3, V5. -/
theorem test_classify_nec :
    answer 0x40000006 [0x4640, 0x2320, 0x464, 0x464, 0x464, 0xD2C] .reset = [0x40000002, 2, 0x23280] := by decide +kernel
theorem test_classify_unknown : answer 0x40000002 [0, 0] .reset = [0x40400000] := by decide +kernel
/-- V4, R195 (c). -/
theorem test_decode_nec :
    answer 0x41000006 [0x4640, 0x2320, 0x464, 0x464, 0x464, 0xD2C] .reset
      = [0x41000004, 0x00010102, 0x00023280, 2, 0x10000000] := by decide +kernel
theorem test_decode_sony : answer 0x41000002 [4800, 1200] .reset = [0x41500000] := by decide +kernel

/-- An opcode-table word placed for the next step is what that step runs. -/
theorem test_withFetchWord : (answer 0x13080061 [] .reset) = [0x13000002, 8, 0x61000000]
    ∧ ((State.reset.withFetchWord 32 0x13080061).cmd = [⟨0x13080061, []⟩]) := by decide

/-! ## Witnesses: concrete states and operands that meet the hypotheses of the statements, clause by clause -/

/-- A check on the next state of an outcome. -/
def nextHas (p : State → Bool) : Host.Outcome State Fault Refusal → Bool
  | .next t => p t
  | _ => false

theorem nextHas_elim {p : State → Bool} {o : Host.Outcome State Fault Refusal} (h : nextHas p o = true) :
    ∃ t, o = .next t ∧ p t = true := by
  cases o with
  | next t => exact ⟨t, rfl, h⟩
  | fault e => cases e
  | refused r => cases h

/-- The `err` field of the last response, 0 when there is none. -/
def lastErrField (t : State) : Nat := match t.rsp.getLast? with | some r => (responseErr r).toNat | none => 0

/-- A state with one packet on `CMD`. -/
def presented (head : Word) (tail : List Word) : State := { State.reset with cmd := [⟨head, tail⟩] }

/-- The parameters with every capacity unbounded. -/
def noCaps : Config := ⟨none, none, none, none, none, none, .noFrames⟩

theorem witness_DecodeOfEncode : wellFormed (.appendTime [⟨3, 3, 0xFFFFFFF⟩]) = true := by decide
theorem witness_DecodeOfEncode_longest : wellFormed (.classify (List.replicate 65535 65535)) = true :=
  (congrArg countFits List.length_replicate).trans (by decide)
theorem witness_OnlyEncodingsDecode : decode ⟨0x24000001, [0xF0000000]⟩ = .ok (.specLeader [⟨3, 3, 0⟩]) := by decide

theorem encode_op (i : Instr) : headerOp (encode i).head = opcodeByte i.opcode := by
  cases i with
  | specStop t => cases t <;> simp [encode, mkPacket, Instr.opcode]
  | _ => simp [encode, mkPacket, Instr.opcode]

theorem witness_NoncommandsAreRejected_illegal :
    (presented 0 []).resetPin = false ∧ (presented 0 []).cmd = [⟨0, []⟩]
      ∧ (∀ i, wellFormed i = true → encode i ≠ ⟨0, []⟩) := by
  refine ⟨rfl, rfl, fun i _ h => ?_⟩
  have h1 := encode_op i
  rw [h] at h1
  revert h1; generalize i.opcode = o; cases o <;> decide

theorem witness_NoncommandsAreRejected_shape :
    (presented 0x11000001 [5]).cmd = [⟨0x11000001, [5]⟩]
      ∧ (∀ i, wellFormed i = true → encode i ≠ ⟨0x11000001, [5]⟩)
      ∧ headerA 0x11000001 = 0 ∧ headerN 0x11000001 ≠ 0 := by
  refine ⟨rfl, fun i _ h => ?_, by decide, by decide⟩
  have h1 := encode_op i
  have h2 := congrArg (fun p => headerA p.head) h
  have h3 := congrArg (fun p => headerN p.head) h
  rw [h] at h1
  have h4 : i.opcode = .g4From := opcodeByte_injective (h1.symm.trans (by decide))
  cases i <;> simp [Instr.opcode] at h4 <;> simp only [encode, mkPacket, headerA_mkHeader, headerN_mkHeader] at h2 h3
  · exact absurd h3 (by decide)
  · exact absurd h2 (by decide)
  · exact absurd h2 (by decide)

theorem witness_PackedBitLists_boundary :
    [0xFFFFFFFF].length = (32 + 31) / 32 ∧ [0xFFFFFFFF, 0x80000000].length = (33 + 31) / 32
      ∧ decodeBits 33 [0xFFFFFFFF, 0x80000000] = .ok (List.replicate 33 true) := by decide
theorem witness_PackedBitLists_spare :
    [0xA1000000].length = (3 + 31) / 32 ∧ ∀ bits : List Bool, bits.length = 3 → ¬ carriesBits [0xA1000000] bits := by
  refine ⟨by decide, fun bits h hc => ?_⟩
  have h1 := hc.2 7 (by simp)
  rw [show bits.getD 7 false = false from List.getD_eq_default _ _ (by omega)] at h1
  revert h1; decide

theorem witness_StepRunsTheDecodedCommand :
    (presented 0x32000001 []).resetPin = false ∧ (presented 0x32000001 []).cmd = [⟨0x32000001, []⟩]
      ∧ decode ⟨0x32000001, []⟩ = .ok (.appendBit true) := ⟨rfl, rfl, by decide⟩
theorem witness_ResetValues : { session [.us 200] true with resetPin := true }.resetPin = true := rfl
theorem witness_ErrorsUndoTheCommand :
    ∃ t, step (presented 0x36000000 []) = .next t ∧ (decide (lastErrField t = 2)) = true := nextHas_elim (by decide)
theorem witness_SuccessKeepsTheErrorState :
    ∃ t, exec (.pack4 [true]) .reset = .next t ∧ (decide (lastErrField t = 0 ∧ t.statusDiag = 1)) = true :=
  nextHas_elim (by decide)
theorem witness_StickyFlagsStay :
    ∃ t, step { presented 0x36000000 [] with statusErr := 0x80, statusDiag := 7 } = .next t
      ∧ (decide (t.statusErr = 0x84 ∧ t.statusDiag = 7)) = true := nextHas_elim (by decide)
theorem witness_ErrorsComeFromTheirCommands :
    wellFormed .beginRepeat = true ∧ ∃ t, exec .beginRepeat .reset = .next t
      ∧ (decide (t.rsp = State.reset.rsp ++ [⟨0x37300000, []⟩] ∧ responseErr ⟨0x37300000, []⟩ ≠ 0)) = true :=
  ⟨rfl, nextHas_elim (by decide)⟩

/-- The least history whose RD_HIST payload exceeds 65535 words. -/
def longHistory : State := { resetWith noCaps with hist := List.replicate (65534 * 32 + 1) true }

theorem longHistory_length : longHistory.hist.length = 65534 * 32 + 1 := List.length_replicate

theorem rdHist_too_long (s : State) (h : 65534 * 32 < s.hist.length) :
    exec .rdHist s = .next (raiseError 0x03 .capacity s) := by
  refine finish_too_long .rdHist s _ ?_
  show 65535 < (packBits s.hist).length + 1
  rw [packBits_length, packedWords]; omega

theorem witness_CapacityOnlyFromALongPayload :
    unbounded longHistory.cfg = true ∧ ((Instr.rdHist).opcode ≠ .decode → wellFormed .rdHist = true)
      ∧ exec .rdHist longHistory = .next (raiseError 0x03 .capacity longHistory)
      ∧ responseErr ⟨respHeader 0x03 (errNumber .capacity) 0 0, []⟩ = 7 ∧ 65535 < 1 + (longHistory.hist.length + 31) / 32 :=
  ⟨by rw [longHistory]; rfl, fun _ => rfl, rdHist_too_long _ (by rw [longHistory_length]; decide), by decide,
    by rw [longHistory_length]; decide⟩

theorem witness_RdStatusWords :
    State.reset.frames.length < 65536 ∧ State.reset.hist.length < 2 ^ 32 ∧ State.reset.frames = [] ∧ noOpenFrame State.reset :=
  ⟨by decide, by decide, rfl, fun f h => by cases h⟩
theorem witness_RdStatusWords_open :
    openFrame (session [.us 200] false) ⟨[.us 200], false⟩ ∧ (session [.us 200] false).frames.length < 65536 :=
  ⟨⟨rfl, rfl⟩, by decide⟩
theorem witness_RdStatusWords_most : (List.replicate 65535 ({ entries := [], closed := true } : Frame)).length < 65536 := by
  rw [List.length_replicate]; decide

theorem witness_RdHistReadsTheHistory :
    1 + ((List.replicate (65534 * 32) true).length + 31) / 32 ≤ 65535
      ∧ 65535 < 1 + (longHistory.hist.length + 31) / 32 := by
  rw [List.length_replicate, longHistory_length]; decide

theorem witness_BitFromNormalises :
    (BitLike.char 0x31 = .bool true ∨ BitLike.char 0x31 = .int 1 ∨ BitLike.char 0x31 = .char 0x31)
      ∧ ¬ (BitLike.other 1 = .bool true ∨ BitLike.other 1 = .int 1 ∨ BitLike.other 1 = .char 0x31) := by decide
theorem witness_GroupFromIntegerOrArray :
    (List.replicate 4 (BitLike.int 1)).length = 4 ∧ (List.replicate 8 (BitLike.int 1)).length = 8
      ∧ (List.replicate 5 (BitLike.int 1)).length ≠ 4 ∧ (List.replicate 9 (BitLike.int 1)).length ≠ 8 := by decide
theorem witness_GroupFromString :
    [true, false, true, false].length = 4 ∧ (List.replicate 8 true).length = 8 ∧ ([] : List Byte).length ≠ 4
      ∧ (∃ c ∈ [0x31, 0x30, 0x32, 0x31], c ≠ (0x30 : Byte) ∧ c ≠ 0x31)
      ∧ ([0x31, 0x30] : List Byte).length ≠ 1 ∧ ([0x31, 0x30] : List Byte).length ≠ 8 := by decide
theorem witness_PackBuildsGroups : (List.replicate 65535 true).length < 65536 := by rw [List.length_replicate]; decide
theorem witness_ToBitsUndoesGroupFrom :
    [true, false, true, true].length = 4 ∧ [false, true, true, false, false, false, false, true].length = 8 := by decide

theorem witness_TokenWordsDenoteTokens :
    malformedToken (decodeToken 0xC0000000) = true ∧ malformedToken (decodeToken 0x30000000) = true
      ∧ malformedToken (decodeToken 0xAFFFFFFF) = false := by decide
theorem witness_SpecFieldsAndStop : malformedToken ⟨3, 0, 0⟩ = true := by decide
theorem witness_SpecShapesReplaceTheirList :
    fits State.reset.cfg.maxTokens (List.replicate 16 (timesT 1)).length = true
      ∧ fits State.reset.cfg.maxTokens (List.replicate 17 (timesT 1)).length = false
      ∧ (List.replicate 20 (⟨1, 3, 0⟩ : TokenField)).any malformedToken = true := by decide
theorem witness_SpecRptAppendsOneEntry :
    fits State.reset.cfg.maxTokens ([] : List Token).length = true ∧ fits State.reset.cfg.maxRpt (3 + 1) = true
      ∧ fits State.reset.cfg.maxRpt (4 + 1) = false ∧ [(⟨3, 0, 0⟩ : TokenField)].any malformedToken = true := by decide
theorem witness_SpecCommandsWriteSpecOnly : isSpecCommand (Instr.specRpt [] 0).opcode = true := by decide
theorem witness_SpecIsReadOnlyByBegin :
    (Instr.appendBit true).opcode ≠ .begin ∧ isSpecCommand (Instr.appendBit true).opcode = false := by decide
theorem witness_SpecNecLeavesTheNecSpec :
    fits State.reset.cfg.maxTokens 2 = true ∧ fits (some 2) 2 = true := by decide

theorem witness_AppendTokenRule :
    ((0#28).toNat : Rat) / 256 = 0 ∧ ((1#28).toNat : Rat) / 256 ≠ 0
      ∧ ([] : List Entry).length % 2 = 0 ∧ [Entry.us 1].length % 2 = 1 := by decide +kernel
theorem witness_EntriesLandInTheirSlots :
    (⟨.us, 0, some .low⟩ : Token).pol = some .low
      ∧ (padClose 100 ([], 0)).1[1]? = some (.tk 200) ∧ entryValue (.tk 200) ≠ 0 := by decide +kernel

theorem witness_BeginStartsASession :
    (fits State.reset.cfg.maxEntries 0 && fits State.reset.cfg.maxFrames 1) = true
      ∧ (fits (some 1) (appendTokens (uqVal necSpec.t) necSpec.leader ([], 0)).1.length) = false
      ∧ fits (some 0) 1 = false := by decide +kernel
theorem witness_AppendTimeAppendsTokens :
    openFrame (session [] false) ⟨[], false⟩ ∧ sessionFits (session [.us 1] false) = true
      ∧ noOpenFrame (session [] true) ∧ noOpenFrame State.reset ∧ [(⟨3, 0, 0⟩ : TokenField)].any malformedToken = true := by
  exact ⟨⟨rfl, rfl⟩, by decide, fun f h => by cases h; rfl, fun f h => (by cases h), by decide⟩
theorem witness_AppendTimeAppendsTokens_full :
    sessionFits { session [.us 1, .us 1] false with cfg := { noCaps with maxEntries := some 1 } } = false := by decide
theorem witness_AppendBitCommandsAppendBits :
    appendedBits (.appendG4 5) = some (0x34, [false, true, false, true])
      ∧ openFrame (session [] false) ⟨[], false⟩
      ∧ sessionFits (afterBits ⟨[], false⟩ [false, true, false, true] (session [] false)) = true
      ∧ sessionFits (afterBits ⟨[], false⟩ [false, true, false, true]
          { session [] false with cfg := { noCaps with maxEntries := some 7 } }) = false :=
  ⟨by decide, ⟨rfl, rfl⟩, by decide +kernel, by decide +kernel⟩
theorem witness_AppendBitCommandsAppendBits_closed :
    appendedBits (.appendBit true) = some (0x32, [true]) ∧ [true] ≠ [] ∧ noOpenFrame (session [] true) :=
  ⟨rfl, by decide, fun f h => by cases h; rfl⟩
theorem witness_AppendBitCommandsAppendBits_none :
    appendedBits (.appendBits []) = some (0x33, []) ∧ sessionFits (session [] true) = true := by decide
theorem witness_AppendBitCommandsAppendBits_forms :
    appendedBits (.appendBits [true]) = some (0x33, [true])
      ∧ appendedBits (.appendG8 1) = some (0x35, [false, false, false, false, false, false, false, true]) := by decide
/-- An open frame, `CTRL.OBS` set, and a history of 65535 bits: the next two bits get the observer indices 65535 and 0. -/
def observed : State := { session [] false with cfg := noCaps, hist := List.replicate 65535 true }

/-- The same with `CTRL.OBS` clear. -/
def unobserved : State := { observed with ctrlObs := false }

theorem witness_AppendedBitsAndObserverWords :
    openFrame observed ⟨[], false⟩ ∧ observed.ctrlObs = true
      ∧ sessionFits (afterBits ⟨[], false⟩ [true, false] observed) = true
      ∧ openFrame unobserved ⟨[], false⟩ ∧ unobserved.ctrlObs = false
      ∧ sessionFits (afterBits ⟨[], false⟩ [true, false] unobserved) = true
      ∧ obsWord true 65535 = 0x1FFFF ∧ obsWord false 65536 = 0 := by
  have h : ∀ s : State, s.cfg = noCaps → sessionFits s = true := by intro s h; simp [sessionFits, h, noCaps, fits]
  exact ⟨⟨rfl, rfl⟩, rfl, h _ rfl, ⟨rfl, rfl⟩, rfl, h _ rfl, by decide, by decide⟩

theorem witness_PadCloseRule :
    (0 : Rat) ≤ 0 ∧ (100 : Rat) ≠ 0 ∧ (100 : Rat) = ([Entry.us 100].map fun e => match e with | .us q => q | .tk q => q / 2).sum
      ∧ (50 : Rat) < ([Entry.us 100].map fun e => match e with | .us q => q | .tk q => q / 2).sum := by decide +kernel
theorem witness_PadCloseRule_gap :
    rhu (2 * (1 / 8 - ([] : List Rat).sum)) = 0 ∧ ([] : List Rat).sum < 1 / 8
      ∧ rhu (2 * (65535 / 2 - ([] : List Rat).sum)) = 0 * 65535 + 65535
      ∧ rhu (2 * (32768 - ([] : List Rat).sum)) = 1 * 65535 + 1 := by decide +kernel
theorem witness_TerminateClosesTheFrame :
    openFrame (session [.us 200, .us 100] false) ⟨[.us 200, .us 100], false⟩
      ∧ sessionFits (session [.us 200, .us 100, .us 100, .tk 1200] true) = true
      ∧ sessionFits { session [.us 200, .us 100, .us 100, .tk 1200] true with cfg := { noCaps with maxEntries := some 3 } } = false
      ∧ noOpenFrame State.reset :=
  ⟨⟨rfl, rfl⟩, by decide, by decide, fun f h => by cases h⟩
theorem witness_TerminatePadsToTheTarget :
    openFrame (session [.us 200, .us 100] false) ⟨[.us 200, .us 100], false⟩
      ∧ (∃ t, exec .terminate (session [.us 200, .us 100] false) = .next t
          ∧ (decide (t.frames.getLast? = some ⟨[.us 200, .us 100, .us 100, .tk 1200], true⟩)) = true)
      ∧ 0 < uqVal (session [.us 200, .us 100] false).aspec.frame
      ∧ dur (appendTokens (uqVal (session [] false).aspec.t) (session [] false).aspec.stop.toList ([.us 200, .us 100], 0)).1
          < uqVal (session [] false).aspec.frame
      ∧ 2 * ((1000 : Rat) - 400) = (1200 : Nat) :=
  ⟨⟨rfl, rfl⟩, nextHas_elim (by decide +kernel), by decide +kernel, by decide +kernel, by decide +kernel⟩
theorem witness_RepeatCommandsAppendFrames :
    repeatCount .beginRepeat = some (0x37, 1) ∧ repeatCount (.appendRepeats 2) = some (0x38, 2)
      ∧ (session [] true).aspec.rpt ≠ [] ∧ sessionFits (afterRepeats 2 (session [] true)) = true
      ∧ sessionFits (afterRepeats 2 { session [] true with cfg := { noCaps with maxFrames := some 2 } }) = false
      ∧ sessionFits (afterRepeats 15 (session [] true)) = true ∧ sessionFits (afterRepeats 16 (session [] true)) = false := by
  decide +kernel
theorem witness_RepeatCommandsAppendFrames_none :
    State.reset.aspec.rpt = [] ∧ repeatCount (.appendRepeats 0) = some (0x38, 0) ∧ sessionFits State.reset = true := by decide
theorem witness_SessionsOnlyGrow :
    (∃ t, exec .beginRepeat (session [.us 200] true) = .next t ∧ (decide (t.frames.length = 2)) = true)
      ∧ Instr.beginRepeat ≠ .begin ∧ Instr.beginRepeat.opcode ≠ .obsCtrl ∧ noOpenFrame (session [.us 200] true)
      ∧ State.reset.ctrlObs = false :=
  ⟨nextHas_elim (by decide +kernel), by decide, by decide, fun f h => by cases h; rfl, rfl⟩
theorem witness_SessionsOnlyGrow_open :
    openFrame (session [.us 200] false) ⟨[.us 200], false⟩
      ∧ (∃ t, exec .terminate (session [.us 200] false) = .next t
          ∧ (decide ((t.frames[(session [.us 200] false).frames.length - 1]?.map fun g => g.entries.head?)
              = some (some (.us 200)))) = true) :=
  ⟨⟨rfl, rfl⟩, nextHas_elim (by decide +kernel)⟩

theorem witness_RoundHalfUp : (0 : Rat) ≤ 1 / 2 ∧ rhu (1 / 2) = 1 ∧ rhu (3 / 8) = 0 := by decide +kernel
theorem witness_FlattenRule : split 65535 = [65535] ∧ split 65536 = [65535, 0, 1] ∧ split 131070 = [65535, 0, 65535] := by decide

/-- A frame of `n` zero entries flattens to `n` zeros. -/
theorem flatten_zeros (n : Nat) (s : State) (h : s.frames = [{ entries := List.replicate n (.tk 0), closed := true }]) :
    (flatten s.frames).length = n := by
  have h0 : split (toTick (.tk 0)) = [0] := by decide +kernel
  rw [h]
  simp only [flatten, flattenFrame, List.flatMap_cons, List.flatMap_nil, List.append_nil]
  clear h
  induction n with
  | zero => rfl
  | succ n ih => rw [List.replicate_succ, List.flatMap_cons, h0, List.length_append, ih, List.length_singleton]; omega

theorem witness_ToTicksEmitsTheFlatArray :
    (flatten (session (List.replicate 65535 (.tk 0)) true).frames).length ≤ 65535
      ∧ 65535 < (flatten (session (List.replicate 65536 (.tk 0)) true).frames).length := by
  rw [flatten_zeros _ _ rfl, flatten_zeros _ _ rfl]; decide
theorem witness_ToTicksEmitsTheFlatArray_bound : 65535 ∈ flatten (session [.us 40000] true).frames := by decide +kernel
theorem witness_CapacityOnlyFromALongPayload_ticks :
    unbounded { session (List.replicate 65536 (.tk 0)) true with cfg := noCaps }.cfg = true
      ∧ wellFormed .toTicks = true ∧ wellFormed .toWire = true
      ∧ 65535 < (flatten { session (List.replicate 65536 (.tk 0)) true with cfg := noCaps }.frames).length
      ∧ 65535 < 1 + (flatten { session (List.replicate 65535 (.tk 0)) true with cfg := noCaps }.frames).length := by
  rw [flatten_zeros _ { session (List.replicate 65536 (.tk 0)) true with cfg := noCaps } rfl,
    flatten_zeros _ { session (List.replicate 65535 (.tk 0)) true with cfg := noCaps } rfl]
  exact ⟨rfl, rfl, rfl, by decide, by decide⟩
theorem witness_ToWireWrapsTheFlatArray :
    1 + (flatten (session (List.replicate 65534 (.tk 0)) true).frames).length ≤ 65535
      ∧ 65535 < 1 + (flatten (session (List.replicate 65535 (.tk 0)) true).frames).length := by
  rw [flatten_zeros _ _ rfl, flatten_zeros _ _ rfl]; decide
theorem witness_OutputKeepsParity : (0 : Rat) < 100 ∧ dur [.us 50] < 100 ∧ 0 < rhu (2 * (100 - dur [.us 50])) := by decide +kernel

theorem witness_ClassifierResolution :
    qualifying .aeha [3400, 1700] ≠ []
      ∧ (qualifying .aeha [8992, 4496] = [] ∧ qualifying .nec [8992, 4496] ≠ [])
      ∧ (qualifying .aeha [2400, 600] = [] ∧ qualifying .nec [2400, 600] = [] ∧ qualifying .sony [2400, 600] ≠ [])
      ∧ (qualifying .aeha [4500, 4500] = [] ∧ qualifying .nec [4500, 4500] = [] ∧ qualifying .sony [4500, 4500] = []
          ∧ qualifying .irisOyama [4500, 4500] ≠ [])
      ∧ (qualifying .aeha [0] = [] ∧ qualifying .nec [0] = [] ∧ qualifying .sony [0] = [] ∧ qualifying .irisOyama [0] = []) := by
  decide +kernel
theorem witness_EstimateFacts : classifyTicks [8992, 4496] = some (.nec, 1125 / 2) := by decide +kernel
theorem witness_ClassifyAnswersFamilyAndUnit :
    fits (some 1) [(0 : Half), 0].length = false ∧ fits State.reset.cfg.maxDecTicks [(0 : Half)].length = true
      ∧ classifyTicks [0] = none ∧ classifyTicks [4800 / 2, 1200 / 2] = some (.sony, 610) := by decide +kernel
theorem witness_ShortFirstElementIsUnknown :
    fits State.reset.cfg.maxDecTicks [(2099 : Half)].length = true
      ∧ (∀ k, [(2099 : Half)].head? = some k → k.toNat < 2100) ∧ (∀ k, ([] : List Half).head? = some k → k.toNat < 2100) :=
  ⟨by decide, fun k h => by cases h; decide, fun k h => by cases h⟩
theorem witness_DecodeAnswersTheGuess :
    (∃ t, classifyTicks [4500, 4500] = some (.irisOyama, t)) ∧ (∃ t, classifyTicks [3400, 1700] = some (.aeha, t))
      ∧ { State.reset with cfg := { noCaps with irisDecode := .notImplemented } }.cfg.irisDecode = .notImplemented
      ∧ 2 + ((decodeNec (1125 / 2) [8992, 4496]).flatMap frameWords).length ≤ 65535 :=
  ⟨⟨500, by decide +kernel⟩, ⟨855 / 2, by decide +kernel⟩, rfl, by decide +kernel⟩

/-- `n` AEHA frames without a symbol: a tracer pair and a fresh leader each. -/
def emptyAehaFrames : Nat → List Rat
  | 0 => []
  | n + 1 => 425 :: 8500 :: 3400 :: 1700 :: emptyAehaFrames n

theorem aehaWalk_empty (n : Nat) : aehaWalk (855 / 2) (emptyAehaFrames n) [] = List.replicate n (.bits []) := by
  have h1 : 3 < mult 8500 (855 / 2) := by decide +kernel
  have h2 : mult 3400 (855 / 2) = 8 ∧ mult 1700 (855 / 2) = 4 := by decide +kernel
  induction n with
  | zero => rfl
  | succ n ih => rw [emptyAehaFrames, aehaWalk, if_pos h1, if_pos h2, ih, List.replicate_succ]

theorem emptyAehaFrames_words (n : Nat) :
    ((decodeAeha (855 / 2) (3400 :: 1700 :: emptyAehaFrames n)).flatMap frameWords).length = n := by
  show ((aehaWalk (855 / 2) (emptyAehaFrames n) []).flatMap frameWords).length = n
  rw [aehaWalk_empty]
  induction n with
  | zero => rfl
  | succ n ih => rw [List.replicate_succ, List.flatMap_cons, List.length_append, ih]; show 1 + n = n + 1; omega

/-- The longer the input, the more frames: 65534 of them exceed the response. -/
theorem witness_DecodeAnswersTheGuess_long :
    65535 < 2 + ((decodeAeha (855 / 2) (3400 :: 1700 :: emptyAehaFrames 65534)).flatMap frameWords).length := by
  rw [emptyAehaFrames_words]; decide


/-- The ticks of a leader and `n` AEHA frames without a symbol. -/
def emptyAehaTicks (n : Nat) : List Half := 6800 :: 3400 :: (List.replicate n [850, 17000, 6800, 3400]).flatten

theorem emptyAehaTicks_durations (n : Nat) :
    (emptyAehaTicks n).map (fun k => (k.toNat : Rat) / 2) = 3400 :: 1700 :: emptyAehaFrames n := by
  have h : [850, 17000, 6800, 3400].map (fun k : Half => (k.toNat : Rat) / 2) = [425, 8500, 3400, 1700] := by decide +kernel
  have h0 : [6800, 3400].map (fun k : Half => (k.toNat : Rat) / 2) = [3400, 1700] := by decide +kernel
  have hn : ((List.replicate n [850, 17000, 6800, 3400]).flatten.map fun k : Half => (k.toNat : Rat) / 2) = emptyAehaFrames n := by
    induction n with
    | zero => rfl
    | succ n ih => rw [List.replicate_succ, List.flatten_cons, List.map_append, h, ih]; rfl
  rw [emptyAehaTicks, ← hn]
  exact congrArg (· ++ _) h0

/-- Only the first two durations matter to the classifier (R184). -/
theorem classifyTicks_head (x y : Rat) (rest : List Rat) : classifyTicks (x :: y :: rest) = classifyTicks [x, y] := by
  have h : ∀ f, qualifying f (x :: y :: rest) = qualifying f [x, y] := by intro f; cases f <;> rfl
  simp only [classifyTicks, classifyIn, h]

theorem decodeGuess_emptyAeha (n : Nat) :
    decodeGuess noCaps ((emptyAehaTicks n).map fun k => (k.toNat : Rat) / 2)
      = .ok ⟨some (.aeha, 855 / 2), decodeAeha (855 / 2) (3400 :: 1700 :: emptyAehaFrames n)⟩ := by
  have hc : classifyTicks [3400, 1700] = some (.aeha, 855 / 2) := by decide +kernel
  rw [emptyAehaTicks_durations, decodeGuess, classifyTicks_head, hc]; rfl

theorem longGuess (f : Option (Family × Rat)) (frames : List DecFrame) (h : 65535 < 2 + (frames.flatMap frameWords).length) :
    65535 < 2 + ((Guess.mk f frames).frames.flatMap frameWords).length := h

theorem witness_CapacityOnlyFromALongPayload_decode :
    ∃ (ks : List Half) (g : Guess), decodeGuess noCaps (ks.map fun k => (k.toNat : Rat) / 2) = .ok g
      ∧ 65535 < 2 + (g.frames.flatMap frameWords).length :=
  ⟨_, _, decodeGuess_emptyAeha 65534, longGuess _ _ witness_DecodeAnswersTheGuess_long⟩

theorem witness_DecodedFrameWords : (List.replicate 65535 Symbol.one).length < 65536 := by rw [List.length_replicate]; decide
theorem witness_DecodeNecFrame :
    mult 8992 562 = 16 ∧ mult 4496 562 = 8
      ∧ (∀ k, k < [((562 : Rat), (1686 : Rat)), (562, 93000)].length →
          8992 + 4496 + (([((562 : Rat), (1686 : Rat)), (562, 93000)].take k).map fun p => p.1 + p.2).sum < 108000)
      ∧ (108000 : Rat) ≤ 8992 + 4496 + ([((562 : Rat), (1686 : Rat)), (562, 93000)].map fun p => p.1 + p.2).sum := by
  decide +kernel
theorem witness_DecodeAehaFrames :
    (∀ g ∈ [([((425 : Rat), (1275 : Rat))], ((425 : Rat), (8000 : Rat)), ((3400 : Rat), (1700 : Rat))), ([], (425, 8000), (3400, 1700))],
        (∀ x ∈ g.1, mult x.2 (855 / 2) ≤ 3) ∧ 3 < mult g.2.1.2 (855 / 2) ∧ mult g.2.2.1 (855 / 2) = 8 ∧ mult g.2.2.2 (855 / 2) = 4)
      ∧ (∀ x ∈ [((425 : Rat), (425 : Rat))], mult x.2 (855 / 2) ≤ 3)
      ∧ [(425 : Rat)].length ≤ 1 ∧ 3 < mult 8000 (855 / 2) := by decide +kernel
/-- The walk of vector V33: a symbol at 2, a tracer without a leader at 4, a lone element at 9. -/
theorem witness_DecodeAehaFrames_walk :
    let d : List Rat := [3400, 1700, 425, 425, 425, 4000, 425, 1275, 425, 425]
    d[2 + 1]? = some 425 ∧ mult 425 (855 / 2) ≤ 3 ∧ d[4 + 1]? = some 4000 ∧ 3 < mult 4000 (855 / 2)
      ∧ d[4 + 2]? = some 425 ∧ mult 425 (855 / 2) ≠ 8 ∧ d.length ≤ 9 + 1
      ∧ decodeAeha (855 / 2) d = [.bits [.zero, .zero, .zero]] := by decide +kernel
/-- The walk of vector V34: a tracer with a leader at 2. -/
theorem witness_DecodeAehaFrames_tracer :
    let d : List Rat := [3400, 1700, 425, 8000, 3400, 1700, 425, 425, 425]
    d[2 + 1]? = some 8000 ∧ 3 < mult 8000 (855 / 2) ∧ d[2 + 2]? = some 3400 ∧ d[2 + 3]? = some 1700
      ∧ mult 3400 (855 / 2) = 8 ∧ mult 1700 (855 / 2) = 4
      ∧ decodeAeha (855 / 2) d = [.bits [], .bits [.zero]] := by decide +kernel
theorem witness_NecRoundTrip :
    (List.replicate 32 true).length = 32 ∧ fits State.reset.cfg.maxTokens 2 = true ∧ fits State.reset.cfg.maxFrames 1 = true
      ∧ fits State.reset.cfg.maxEntries 70 = true ∧ fits State.reset.cfg.maxHist 32 = true
      ∧ fits State.reset.cfg.maxDecTicks 70 = true ∧ fits (some 70) 70 = true := by decide
theorem witness_PureCommandsKeepEncoderState : isPureCommand (Instr.decode [17984, 8992]).opcode = true := by decide
theorem witness_BguAndDecoderReadNoState :
    isPureCommand (Instr.flip4 3).opcode = true ∧ (Instr.flip4 3).opcode ≠ .rdStatus ∧ (Instr.flip4 3).opcode ≠ .rdHist
      ∧ (Instr.flip4 3).opcode ≠ .toTicks ∧ (Instr.flip4 3).opcode ≠ .toWire
      ∧ State.reset.cfg = (session [.us 1] false).cfg := by decide
theorem witness_StepKeepsTheInvariant :
    stateOk { session [.us 200] false with cmd := [⟨0x36000000, []⟩] } = true
      ∧ ∃ t, step { session [.us 200] false with cmd := [⟨0x36000000, []⟩] } = .next t ∧ (decide (t.frames.length = 1)) = true :=
  ⟨by decide +kernel, nextHas_elim (by decide +kernel)⟩

end Sys2Proof.Tests
end

section
/-! PROOFS. Rounding (R12): the floor and tie rule of `rhu`, by way of Mathlib's `round`. -/

namespace Sys2Proof.Proofs
open Sys2Proof.Machine

/-- On the non-negative rationals the `toNat` of `rhu` cuts nothing off. -/
theorem rhu_cast_eq_floor {x : Rat} (hx : 0 ≤ x) : (rhu x : Int) = ⌊x + 1 / 2⌋ := by
  rw [rhu_eq]
  exact Int.toNat_of_nonneg (Int.floor_nonneg.2 (by linarith))

theorem rhu_cast_eq_round {x : Rat} (hx : 0 ≤ x) : (rhu x : Int) = round x := by
  rw [rhu_cast_eq_floor hx, round_eq]

theorem abs_sub_rhu_le {x : Rat} (hx : 0 ≤ x) (n : Nat) : |x - rhu x| ≤ |x - n| := by
  have hround : (rhu x : Rat) = round x := mod_cast rhu_cast_eq_round hx
  rw [hround]
  exact mod_cast round_le x n

/-- The tie rule: `x` stays strictly below the midpoint above `rhu x`, so every larger natural number is farther. -/
theorem abs_sub_rhu_lt_of_rhu_lt {x : Rat} (hx : 0 ≤ x) {n : Nat} (hn : rhu x < n) : |x - rhu x| < |x - n| := by
  obtain ⟨hlo, hhi⟩ := rhu_bounds x hx
  have hnext : (rhu x : Rat) + 1 ≤ n := mod_cast hn
  calc |x - rhu x| ≤ 1 / 2 := abs_le.2 ⟨by linarith, by linarith⟩
    _ < n - x := by linarith
    _ ≤ |x - n| := by rw [abs_sub_comm]; exact le_abs_self _

/-- Settles O42: `rhu` is Mathlib's `round`, and a natural number above `rhu x` is never as near. -/
theorem roundHalfUp : Obligations.RoundHalfUp := by
  unfold Obligations.RoundHalfUp
  intro x hx
  refine ⟨rhu_cast_eq_floor hx, fun n => ⟨abs_sub_rhu_le hx n, fun htie => ?_⟩⟩
  by_contra hn
  exact (abs_sub_rhu_lt_of_rhu_lt hx (not_le.1 hn)).ne' htie

end Sys2Proof.Proofs
end

section
/-! PROOFS. What one command can do to the state it runs from, said once for the 39 commands: an inversion of `commandWork`
that later proofs take apart instead of unfolding each command. -/

namespace Sys2Proof.Proofs
open Sys2Proof.Machine

/-! ## Work that raised nothing -/

theorem ok_of_map_eq_ok {α β : Type} {x : Except ErrCode α} {g : α → β} {b : β} (h : x.map g = .ok b) :
    ∃ a, x = .ok a ∧ g a = b := by
  cases x with
  | error e => cases h
  | ok a => cases h; exact ⟨a, rfl, rfl⟩

theorem ok_of_bind_eq_ok {α β : Type} {x : Except ErrCode α} {g : α → Except ErrCode β} {b : β} (h : x.bind g = .ok b) :
    ∃ a, x = .ok a ∧ g a = .ok b := by
  cases x with
  | error e => cases h
  | ok a => exact ⟨a, rfl, h⟩

/-! ## Entries that are only added -/

/-- `es'` is `es` followed by entries of non-negative value: all that building a frame ever does (R25, R144, R152). -/
def Extends (es es' : List Entry) : Prop := ∃ added, es' = es ++ added ∧ ∀ e ∈ added, 0 ≤ entryValue e

theorem Extends.refl (es : List Entry) : Extends es es := ⟨[], by simp, by simp⟩

theorem Extends.trans {es es' es'' : List Entry} (h : Extends es es') (h' : Extends es' es'') : Extends es es'' := by
  obtain ⟨added, rfl, hadded⟩ := h
  obtain ⟨more, rfl, hmore⟩ := h'
  exact ⟨added ++ more, List.append_assoc .., List.forall_mem_append.2 ⟨hadded, hmore⟩⟩

theorem Extends.isPrefix {es es' : List Entry} (h : Extends es es') : es <+: es' := by
  obtain ⟨added, rfl, -⟩ := h
  exact List.prefix_append ..

theorem Extends.nonneg {es es' : List Entry} (h : Extends es es') (hes : ∀ e ∈ es, 0 ≤ entryValue e) :
    ∀ e ∈ es', 0 ≤ entryValue e := by
  obtain ⟨added, rfl, hadded⟩ := h
  exact List.forall_mem_append.2 ⟨hes, hadded⟩

theorem entryValue_filler_nonneg : 0 ≤ entryValue filler := le_rfl

theorem appendToken_extends {t : Rat} (ht : 0 ≤ t) (b : Build) (tok : Token) : Extends b.1 (appendToken t b tok).1 := by
  have htok : 0 ≤ entryValue (resolve t tok) := entryValue_resolve_nonneg t ht tok
  rcases appendToken_cases t b tok with h | h | h <;> rw [h]
  · exact .refl _
  · exact ⟨[resolve t tok], rfl, by simp [htok]⟩
  · exact ⟨[filler, resolve t tok], rfl, by simp [htok, entryValue_filler_nonneg]⟩

theorem appendTokens_extends {t : Rat} (ht : 0 ≤ t) (toks : List Token) (b : Build) :
    Extends b.1 (appendTokens t toks b).1 :=
  List.foldlRecOn toks (appendToken t) (motive := fun b' : Build => Extends b.1 b'.1) (.refl _)
    fun b' hb tok _ => hb.trans (appendToken_extends ht b' tok)

theorem padEntries_nonneg (p : Nat) : ∀ e ∈ padEntries p, 0 ≤ entryValue e := by
  unfold padEntries
  split
  · simp
  · simp [entryValue]

theorem pad_extends (p : Nat) (es : List Entry) : Extends es (pad p es) := by
  unfold pad
  split
  · exact .refl _
  · split
    · exact ⟨filler :: padEntries p, rfl, List.forall_mem_cons.2 ⟨entryValue_filler_nonneg, padEntries_nonneg p⟩⟩
    · exact ⟨padEntries p, rfl, padEntries_nonneg p⟩

theorem padClose_extends (target : Rat) (b : Build) : Extends b.1 (padClose target b).1 := by
  rcases padClose_cases target b with h | ⟨-, h⟩ | h <;> rw [h]
  · exact .refl _
  · exact pad_extends _ _
  · exact .refl _

theorem terminated_extends (spec : Spec) (es : List Entry) : Extends es (terminated spec es).1 :=
  (appendTokens_extends (uqVal_nonneg spec.t) spec.stop.toList (es, 0)).trans (padClose_extends _ _)

theorem bitsBuilt_extends (spec : Spec) (es : List Entry) (bits : List Bool) : Extends es (bitsBuilt spec es bits).1 :=
  List.foldlRecOn bits _ (motive := fun b : Build => Extends es b.1) (.refl _)
    fun b hb _ _ => hb.trans (appendTokens_extends (uqVal_nonneg spec.t) _ b)

/-! ## Repeats -/

theorem le_openRepeat_rptIdx (e : RepeatEntry) (w : Work) : w.state.rptIdx ≤ (openRepeat e w).state.rptIdx := by
  rw [openRepeat_rptIdx]
  split <;> bv_omega

/-- Repeats add frames behind the others and do not lower the repeat index; they write nothing else (R155, R157). -/
theorem repeatSteps_ok {n : Nat} {w w' : Work} (h : repeatSteps n w = .ok w') :
    ∃ fs k, w'.state = { w.state with frames := w.state.frames ++ fs, rptIdx := k } ∧ w.state.rptIdx ≤ k
      ∧ ∀ f ∈ fs, ∀ e ∈ f.entries, 0 ≤ entryValue e := by
  induction n generalizing w with
  | zero => cases h; exact ⟨[], _, by simp, BitVec.le_refl _, by simp⟩
  | succ n ih =>
    unfold repeatSteps at h
    split at h
    · cases h
    next v hv =>
      obtain ⟨e, -, -, rfl⟩ := repeatStep_ok w v hv
      obtain ⟨fs, k, hstate, hk, hfs⟩ := ih h
      have hframe := (appendTokens_extends (uqVal_nonneg w.state.aspec.t) e.header ([], w.diag)).trans
        (padClose_extends (uqVal e.target) _)
      refine ⟨⟨_, true⟩ :: fs, k, ?_, BitVec.le_trans (le_openRepeat_rptIdx e w) hk,
        List.forall_mem_cons.2 ⟨hframe.nonneg (by simp), hfs⟩⟩
      rw [hstate, openRepeat_frames, List.append_assoc]
      rfl

/-! ## Token lists and repeat entries within the capacities -/

theorem checkTokens_ok {c : Config} {toks ts : List Token} (h : checkTokens c toks = .ok ts) :
    fits c.maxTokens ts.length = true := by
  unfold checkTokens at h
  split at h
  next hfits => cases h; exact hfits
  · cases h

theorem shapeTokens_ok {c : Config} {toks : List TokenField} {ts : List Token} (h : shapeTokens c toks = .ok ts) :
    fits c.maxTokens ts.length = true := by
  obtain ⟨parsed, -, hcheck⟩ := ok_of_bind_eq_ok h
  exact checkTokens_ok hcheck

theorem addRepeat_ok {s : State} {e : RepeatEntry} {w : Work} (h : addRepeat s e = .ok w) :
    fits s.cfg.maxRpt (s.spec.rpt.length + 1) = true
      ∧ w = silent (withSpec s { s.spec with rpt := s.spec.rpt ++ [e] }) := by
  unfold addRepeat at h
  split at h
  next hfits => cases h; exact ⟨hfits, rfl⟩
  · cases h

theorem fits_zero (cap : Option Nat) : fits cap 0 = true := by
  cases cap with
  | none => rfl
  | some m => exact decide_eq_true (Nat.zero_le m)

theorem specFits_iff (c : Config) (p : Spec) :
    specFits c p = true ↔ fits c.maxTokens p.leader.length = true ∧ fits c.maxTokens p.bit1.length = true
      ∧ fits c.maxTokens p.bit0.length = true ∧ fits c.maxRpt p.rpt.length = true
      ∧ ∀ r ∈ p.rpt, fits c.maxTokens r.header.length = true := by
  simp [specFits, and_assoc]

theorem specFits_emptySpec (c : Config) : specFits c emptySpec = true := by
  simp [specFits_iff, emptySpec, fits_zero]

/-! ## The commands -/

/-- What a command that raises nothing has done to the state `s` it ran from, its response left out. -/
inductive Effect (i : Instr) (s : State) : State → Prop
  /-- The state is as it was (R59, R100); also an append of no bits without an open frame (R148). -/
  | unchanged : Effect i s s
  /-- OBS_CTRL (R130). -/
  | observes (en : Bool) (hi : i = .obsCtrl en) : Effect i s { s with ctrlObs := en }
  /-- The SPEC_* commands (R120), which check the list they store (R121, R129). -/
  | writesSpec (p : Spec) (hi : isSpecCommand i.opcode = true)
      (hfit : specFits s.cfg s.spec = true → specFits s.cfg p = true) : Effect i s (withSpec s p)
  /-- BEGIN (R141). -/
  | begins (hi : i = .begin) (hfit : sessionFits (beginSession s).state = true) : Effect i s (beginSession s).state
  /-- APPEND_TIME and TERMINATE: the open current frame `f` goes on as `b` (R145, R153). -/
  | builds (f : Frame) (b : Build) (closed : Bool) (hopen : openFrame s f) (hext : Extends f.entries b.1)
      (hfit : sessionFits (withCurrent s b closed).state = true) : Effect i s (withCurrent s b closed).state
  /-- The commands that append bits to the open current frame `f` (R147 to R150). -/
  | appendsBits (f : Frame) (bits : List Bool) (hopen : openFrame s f) (hfit : sessionFits (afterBits f bits s) = true) :
      Effect i s (afterBits f bits s)
  /-- The commands that append repeat frames `fs` (R156, R157). -/
  | repeats (fs : List Frame) (k : Half) (hk : s.rptIdx ≤ k) (hfs : ∀ f ∈ fs, ∀ e ∈ f.entries, 0 ≤ entryValue e)
      (hfit : sessionFits { s with frames := s.frames ++ fs, rptIdx := k } = true) :
      Effect i s { s with frames := s.frames ++ fs, rptIdx := k }

theorem bitsWork_effect {i : Instr} {bits : List Bool} {s : State} {w : Work} (h : bitsWork bits s = .ok w) :
    Effect i s w.state := by
  obtain ⟨v, hsteps, hcheck⟩ := ok_of_bind_eq_ok h
  obtain ⟨rfl, hfit⟩ := (checkSession_ok v w).1 hcheck
  cases hcur : curOpen s with
  | ok f =>
    have hopen : openFrame s f := (curOpen_eq_ok s f).1 hcur
    rw [appendBitSteps_of_open bits (silent s) f hopen] at hsteps
    cases hsteps
    exact .appendsBits f bits hopen hfit
  | error e =>
    rw [appendBitSteps_of_noOpen bits (silent s) ((curOpen_eq_error s e).1 hcur).2] at hsteps
    split at hsteps
    · cases hsteps; exact .unchanged
    · cases hsteps

theorem repeatsWork_effect {i : Instr} {n : Nat} {s : State} {w : Work} (h : repeatsWork n s = .ok w) :
    Effect i s w.state := by
  obtain ⟨v, hsteps, hcheck⟩ := ok_of_bind_eq_ok h
  obtain ⟨rfl, hfit⟩ := (checkSession_ok v w).1 hcheck
  obtain ⟨fs, k, hstate, hk, hfs⟩ := repeatSteps_ok hsteps
  rw [silent_state] at hstate hk
  rw [hstate] at hfit ⊢
  exact .repeats fs k hk hfs hfit

/-- The end of APPEND_TIME and of TERMINATE. -/
theorem checkSession_withCurrent_effect {i : Instr} {s : State} {f : Frame} {b : Build} {closed : Bool} {w : Work}
    (hcur : curOpen s = .ok f) (hext : Extends f.entries b.1) (h : checkSession (withCurrent s b closed) = .ok w) :
    Effect i s w.state := by
  obtain ⟨rfl, hfit⟩ := (checkSession_ok _ w).1 h
  exact .builds f b closed ((curOpen_eq_ok s f).1 hcur) hext hfit

theorem commandWork_effect {i : Instr} {s : State} {w : Work} (h : commandWork i s = .ok w) : Effect i s w.state := by
  cases i with
  | rdStatus | rdHist | bitFrom | g4FromInt | g8FromInt | toBits4 | toBits8 | reverse4 | reverse8 | flip4 | flip8
  | pack4 | pack8 | toTicks | toWire =>
    cases h; exact .unchanged
  | g4FromStr | g4FromArr | g8FromStr | g8FromArr =>
    obtain ⟨g, -, rfl⟩ := ok_of_map_eq_ok h
    exact .unchanged
  | classify | decode =>
    obtain ⟨d, -, hd⟩ := ok_of_bind_eq_ok h
    obtain ⟨g, -, rfl⟩ := ok_of_map_eq_ok hd
    exact .unchanged
  | obsCtrl en => cases h; exact .observes en rfl
  | specClear => cases h; exact .writesSpec _ rfl fun _ => specFits_emptySpec s.cfg
  | specT | specFrame => cases h; exact .writesSpec _ rfl id
  | specStop tok =>
    obtain ⟨t, -, rfl⟩ := ok_of_map_eq_ok h
    exact .writesSpec _ rfl id
  | specLeader toks | specBit1 toks | specBit0 toks =>
    obtain ⟨ts, hts, rfl⟩ := ok_of_map_eq_ok h
    have hfit := shapeTokens_ok hts
    refine .writesSpec _ rfl fun hspec => ?_
    rw [specFits_iff] at hspec ⊢
    obtain ⟨hleader, hbit1, hbit0, hroom, hheaders⟩ := hspec
    refine ⟨?_, ?_, ?_, hroom, hheaders⟩ <;> assumption
  | specRpt header target =>
    obtain ⟨ts, hts, hadd⟩ := ok_of_bind_eq_ok h
    obtain ⟨hroom, rfl⟩ := addRepeat_ok hadd
    have hfit := shapeTokens_ok hts
    refine .writesSpec _ rfl fun hspec => ?_
    rw [specFits_iff] at hspec ⊢
    obtain ⟨hleader, hbit1, hbit0, -, hheaders⟩ := hspec
    exact ⟨hleader, hbit1, hbit0, by simpa using hroom, by simpa [or_imp, forall_and, hfit] using hheaders⟩
  | begin =>
    obtain ⟨rfl, hfit⟩ := (checkSession_ok _ w).1 h
    exact .begins rfl hfit
  | appendTime toks =>
    obtain ⟨ts, -, htoks⟩ := ok_of_bind_eq_ok h
    obtain ⟨f, hcur, hcheck⟩ := ok_of_bind_eq_ok htoks
    exact checkSession_withCurrent_effect hcur (appendTokens_extends (uqVal_nonneg s.aspec.t) ts (f.entries, 0)) hcheck
  | terminate =>
    obtain ⟨f, hcur, hcheck⟩ := ok_of_bind_eq_ok h
    exact checkSession_withCurrent_effect hcur (terminated_extends s.aspec f.entries) hcheck
  | appendBit | appendBits | appendG4 | appendG8 => exact bitsWork_effect h
  | beginRepeat | appendRepeats => exact repeatsWork_effect h

end Sys2Proof.Proofs
end

section
/-! PROOFS. Steps (R22, R240): one equation per arm of `step`, and the inversion that later proofs take apart. -/

namespace Sys2Proof.Proofs
open Sys2Proof.Machine

theorem step_reset {s : State} (h : s.resetPin = true) : step s = .next (applyReset s) := by simp [step, h]

theorem step_wait {s : State} (h : s.resetPin = false) (hcmd : s.cmd = []) : step s = .next s := by simp [step, h, hcmd]

theorem step_command {s : State} {p : Packet} {rest : List Packet} {i : Instr} (h : s.resetPin = false)
    (hcmd : s.cmd = p :: rest) (hi : decode p = .ok i) : step s = exec i (withCmd s rest) := by simp [step, h, hcmd, hi]

theorem step_reject {s : State} {p : Packet} {rest : List Packet} {e : DecodeError} (h : s.resetPin = false)
    (hcmd : s.cmd = p :: rest) (he : decode p = .error e) : step s = .next (rejectPacket p e (withCmd s rest)) := by
  simp [step, h, hcmd, he]

/-- What a step from `s` can end in. -/
inductive StepResult (s : State) : State → Prop
  | reset (h : s.resetPin = true) : StepResult s (applyReset s)
  | waits : StepResult s s
  /-- A packet that is no command, or a command that raises: an error entry from the state before (R225, R228). -/
  | raises (rest : List Packet) (op : Byte) (e : ErrCode) : StepResult s (raiseError op e (withCmd s rest))
  /-- A command that succeeds (R74). -/
  | replies (rest : List Packet) (i : Instr) (w : Work) (hw : commandWork i (withCmd s rest) = .ok w)
      (hlen : w.payload.length ≤ maxRspWords) : StepResult s (reply (opcodeByte i.opcode) w)

theorem step_result {s t : State} (h : step s = .next t) : StepResult s t := by
  cases hreset : s.resetPin with
  | true => rw [step_reset hreset] at h; cases h; exact .reset hreset
  | false =>
    cases hcmd : s.cmd with
    | nil => rw [step_wait hreset hcmd] at h; cases h; exact .waits
    | cons p rest =>
      cases hdec : decode p with
      | error e => rw [step_reject hreset hcmd hdec] at h; cases h; exact .raises rest _ _
      | ok i =>
        rw [step_command hreset hcmd hdec] at h
        rcases exec_next i (withCmd s rest) with ⟨e, he⟩ | ⟨w, hw, hlen, hreply⟩
        · rw [he] at h; cases h; exact .raises rest _ e
        · rw [hreply] at h; cases h; exact .replies rest i w hw hlen

/-- Settles O6, by the equation of `step` for a packet that decodes. -/
theorem stepRunsTheDecodedCommand : Obligations.StepRunsTheDecodedCommand := by
  unfold Obligations.StepRunsTheDecodedCommand
  intro s p rest i hreset hcmd hdec
  exact step_command hreset hcmd hdec

/-- Settles O7: `State.reset` and `applyReset` hold R33's table field by field. -/
theorem resetValues : Obligations.ResetValues := by
  unfold Obligations.ResetValues
  refine ⟨?_, fun s hreset => ⟨applyReset s, step_reset hreset, ?_⟩⟩
  · exact ⟨rfl, rfl, rfl, rfl, rfl, rfl, rfl, rfl, rfl, rfl, rfl⟩
  · exact ⟨rfl, rfl, rfl, rfl, rfl, rfl, rfl, rfl, rfl, rfl, rfl⟩

/-! ## Sticky flags -/

theorem and_or_self_left {n : Nat} (x y : BitVec n) : x &&& (x ||| y) = x := by
  apply word_ext
  intro i _
  rw [BitVec.getLsbD_and, BitVec.getLsbD_or]
  exact inf_sup_self

/-- Settles O11: errors and replies only OR into the status, and a command under way leaves it alone. -/
theorem stickyFlagsStay : Obligations.StickyFlagsStay := by
  unfold Obligations.StickyFlagsStay
  intro s t hreset hstep
  cases step_result hstep with
  | reset h => rw [hreset] at h; cases h
  | waits => exact ⟨BitVec.and_self, BitVec.and_self⟩
  | raises rest op e => exact ⟨and_or_self_left _ _, BitVec.and_self⟩
  | replies rest i w hw =>
    have hkeep := commandWork_keepsOuter i _ w hw
    rw [reply_statusErr, reply_statusDiag, hkeep.statusErr, hkeep.statusDiag]
    exact ⟨BitVec.and_self, and_or_self_left _ _⟩

end Sys2Proof.Proofs
end

section
/-! PROOFS. The invariant `stateOk` (R9, R25, R30, R74, R146): kept by each way a step can end. -/

namespace Sys2Proof.Proofs
open Sys2Proof.Machine

/-! ## The fields of a response header (R74) -/

theorem respHeader_bit16 (op : Byte) (err : BitVec 4) (diag : BitVec 3) (m : Nat) :
    (respHeader op err diag m)[16] = false := by
  simp [respHeader]

theorem respHeader_count (op : Byte) (err : BitVec 4) (diag : BitVec 3) (m : Nat) :
    (respHeader op err diag m).extractLsb' 0 16 = BitVec.ofNat 16 m := by
  apply word_ext
  intro i hi
  simp [respHeader, hi, show i < 32 by omega, show i < 24 by omega, show i < 20 by omega, show i < 17 by omega]

theorem respHeader_diag (op : Byte) (err : BitVec 4) (diag : BitVec 3) (m : Nat) :
    (respHeader op err diag m).extractLsb' 17 3 = diag := by
  apply word_ext
  intro i hi
  simp [respHeader, hi, show 17 + i < 32 by omega, show 17 + i < 24 by omega, show 17 + i < 20 by omega,
    BitVec.getLsbD_of_ge (BitVec.ofNat 16 m) (17 + i) (by omega)]

theorem respHeader_err (op : Byte) (err : BitVec 4) (diag : BitVec 3) (m : Nat) :
    (respHeader op err diag m).extractLsb' 20 4 = err := by
  apply word_ext
  intro i hi
  simp [respHeader, hi, show 20 + i < 32 by omega, show 20 + i < 24 by omega, show 20 + i - 20 = i by omega,
    BitVec.getLsbD_of_ge diag (20 + i - 17) (by omega), BitVec.getLsbD_of_ge (BitVec.ofNat 16 m) (20 + i) (by omega)]

/-! ## Error codes (R220) -/

theorem errNumber_ne_zero (e : ErrCode) : errNumber e ≠ 0#4 := by cases e <;> decide

theorem errNumber_le (e : ErrCode) : (errNumber e).toNat ≤ 7 := by cases e <;> decide

theorem errFlag_bit0 (e : ErrCode) : (errFlag e)[0] = false := by cases e <;> rfl

theorem errFlag_own_bit (e : ErrCode) : (errFlag e).getLsbD (errNumber e).toNat = true := by cases e <;> rfl

/-! ## The parts of the invariant as propositions -/

/-- Every entry of every frame has a non-negative value. -/
def NonnegFrames (fs : List Frame) : Prop := ∀ f ∈ fs, ∀ e ∈ f.entries, 0 ≤ entryValue e

theorem durationsOk_iff (s : State) : durationsOk s = true ↔ NonnegFrames s.frames := by
  simp [durationsOk, NonnegFrames]

theorem observersOk_iff (s : State) : observersOk s = true ↔ ∀ w ∈ s.obs, w.extractLsb' 17 15 = 0#15 := by
  simp [observersOk]

theorem responsesOk_iff (s : State) : responsesOk s = true ↔ ∀ p ∈ s.rsp, responseOk p = true := by
  simp [responsesOk]

theorem stateOk_iff (s : State) :
    stateOk s = true ↔ specFits s.cfg s.spec = true ∧ specFits s.cfg s.aspec = true ∧ sessionFits s = true
      ∧ durationsOk s = true ∧ statusOk s = true ∧ responsesOk s = true ∧ observersOk s = true := by
  simp [stateOk, capacitiesOk, and_assoc]

/-! ## Responses and the status -/

theorem responseOk_error (op : Byte) (e : ErrCode) : responseOk ⟨respHeader op (errNumber e) 0 0, []⟩ = true := by
  simp [responseOk, respHeader_bit16, respHeader_count, respHeader_diag, respHeader_err, errNumber_le]

theorem responseOk_success (op : Byte) (diag : BitVec 3) {payload : List Word} (h : payload.length ≤ maxRspWords) :
    responseOk ⟨respHeader op 0 diag payload.length, payload⟩ = true := by
  have hlen : payload.length < 65536 := Nat.lt_succ_of_le h
  simp [responseOk, respHeader_bit16, respHeader_count, respHeader_err, Nat.mod_eq_of_lt hlen]

theorem responsesOk_concat {s t : State} {p : Packet} (h : responsesOk s = true) (ht : t.rsp = s.rsp ++ [p])
    (hp : responseOk p = true) : responsesOk t = true := by
  rw [responsesOk_iff] at h ⊢
  rw [ht]
  exact List.forall_mem_append.2 ⟨h, by simpa using hp⟩

theorem raiseError_statusOk (op : Byte) (e : ErrCode) {s : State} (h : statusOk s = true) :
    statusOk (raiseError op e s) = true := by
  have hbit0 : s.statusErr[0] = false := by
    simp only [statusOk, Bool.and_eq_true, Bool.not_eq_true'] at h
    obtain ⟨hbit0, -⟩ := h
    exact hbit0
  simp [statusOk, hbit0, errFlag_bit0, errFlag_own_bit, errNumber_ne_zero, errNumber_le]

/-! ## Observer words (R146) -/

theorem ofNat_high_zero {n : Nat} (h : n < 2 ^ 17) : (BitVec.ofNat 32 n).extractLsb' 17 15 = 0#15 := by
  apply BitVec.eq_of_toNat_eq
  simp only [BitVec.extractLsb'_toNat, BitVec.toNat_ofNat, Nat.shiftRight_eq_div_pow]
  omega

theorem bitObservers_high_zero (start : Nat) (bits : List Bool) :
    ∀ w ∈ bitObservers start bits, w.extractLsb' 17 15 = 0#15 := by
  intro w hw
  obtain ⟨⟨b, k⟩, -, rfl⟩ := List.mem_map.1 hw
  have hb : b.toNat ≤ 1 := Bool.toNat_le b
  exact ofNat_high_zero (by dsimp only; omega)

/-! ## Frames -/

theorem NonnegFrames.replaceLast {fs : List Frame} (h : NonnegFrames fs) {f : Frame}
    (hf : ∀ e ∈ f.entries, 0 ≤ entryValue e) : NonnegFrames (setLast fs f) := by
  intro g hg
  rcases mem_setLast hg with hg | rfl
  · exact h g hg
  · exact hf

/-- The current frame goes on with further non-negative entries. -/
theorem NonnegFrames.extendLast {fs : List Frame} (h : NonnegFrames fs) {f : Frame} (hlast : fs.getLast? = some f)
    {es : List Entry} (hext : Extends f.entries es) (closed : Bool) : NonnegFrames (setLast fs ⟨es, closed⟩) :=
  h.replaceLast (hext.nonneg (h f (List.mem_of_getLast? hlast)))

/-! ## The invariant -/

theorem resetWith_stateOk (c : Config) : stateOk (resetWith c) = true := by
  rw [stateOk_iff]
  refine ⟨specFits_emptySpec c, specFits_emptySpec c, ?_, rfl, ?_, rfl, rfl⟩
  · simp [sessionFits, resetWith, fits_zero]
  · simp [statusOk, resetWith]

theorem applyReset_stateOk (s : State) : stateOk (applyReset s) = true := resetWith_stateOk s.cfg

theorem raiseError_stateOk (op : Byte) (e : ErrCode) {s : State} (h : stateOk s = true) :
    stateOk (raiseError op e s) = true := by
  rw [stateOk_iff] at h ⊢
  obtain ⟨hspec, haspec, hsession, hdur, hstatus, hrsp, hobs⟩ := h
  exact ⟨hspec, haspec, hsession, hdur, raiseError_statusOk op e hstatus,
    responsesOk_concat hrsp (raiseError_rsp op e s) (responseOk_error op e), hobs⟩

theorem reply_stateOk (op : Byte) {w : Work} (hlen : w.payload.length ≤ maxRspWords) (h : stateOk w.state = true) :
    stateOk (reply op w) = true := by
  rw [stateOk_iff] at h ⊢
  obtain ⟨hspec, haspec, hsession, hdur, hstatus, hrsp, hobs⟩ := h
  exact ⟨hspec, haspec, hsession, hdur, hstatus,
    responsesOk_concat hrsp (reply_rsp op w) (responseOk_success op w.diag hlen), hobs⟩

theorem Effect.keeps_stateOk {i : Instr} {s t : State} (heff : Effect i s t) (h : stateOk s = true) : stateOk t = true := by
  have hparts := h
  rw [stateOk_iff] at hparts ⊢
  obtain ⟨hspec, haspec, hsession, hdur, hstatus, hrsp, hobs⟩ := hparts
  have hframes : NonnegFrames s.frames := (durationsOk_iff s).1 hdur
  cases heff with
  | unchanged => exact ⟨hspec, haspec, hsession, hdur, hstatus, hrsp, hobs⟩
  | observes en => exact ⟨hspec, haspec, hsession, hdur, hstatus, hrsp, hobs⟩
  | writesSpec p _ hfit => exact ⟨hfit hspec, haspec, hsession, hdur, hstatus, hrsp, hobs⟩
  | begins _ hfit =>
    refine ⟨hspec, hspec, hfit, ?_, hstatus, hrsp, hobs⟩
    have hleader := appendTokens_extends (uqVal_nonneg s.spec.t) s.spec.leader ([], 0)
    rw [durationsOk_iff, beginSession_frames]
    exact List.forall_mem_singleton.2 (hleader.nonneg (by simp))
  | builds f b closed hopen hext hfit =>
    refine ⟨hspec, haspec, hfit, ?_, hstatus, hrsp, hobs⟩
    rw [durationsOk_iff, withCurrent_frames]
    exact hframes.extendLast hopen.1 hext closed
  | appendsBits f bits hopen hfit =>
    refine ⟨hspec, haspec, hfit, ?_, hstatus, hrsp, ?_⟩
    · rw [durationsOk_iff]
      exact hframes.extendLast hopen.1 (bitsBuilt_extends s.aspec f.entries bits) false
    · rw [observersOk_iff] at hobs ⊢
      unfold afterBits
      dsimp only
      split
      · exact List.forall_mem_append.2 ⟨hobs, bitObservers_high_zero _ _⟩
      · exact hobs
  | repeats fs k _ hfs hfit =>
    refine ⟨hspec, haspec, hfit, ?_, hstatus, hrsp, hobs⟩
    rw [durationsOk_iff]
    exact List.forall_mem_append.2 ⟨hframes, hfs⟩

/-- Settles O60. -/
theorem resetHasTheInvariant : Obligations.ResetHasTheInvariant := by
  unfold Obligations.ResetHasTheInvariant
  exact ⟨resetWith_stateOk defaultConfig, resetWith_stateOk⟩

/-- Settles O59, by the ways a step can end; the invariant does not look at `CMD`, from which the packet was taken. -/
theorem stepKeepsTheInvariant : Obligations.StepKeepsTheInvariant := by
  unfold Obligations.StepKeepsTheInvariant
  intro s t hs hstep
  have htaken (rest : List Packet) : stateOk (withCmd s rest) = true := hs
  cases step_result hstep with
  | reset => exact applyReset_stateOk s
  | waits => exact hs
  | raises rest op e => exact raiseError_stateOk op e (htaken rest)
  | replies rest i w hw hlen => exact reply_stateOk _ hlen ((commandWork_effect hw).keeps_stateOk (htaken rest))

end Sys2Proof.Proofs
end

section
/-! PROOFS. `SPEC` is read by BEGIN and the SPEC_* commands only (R23, R248): every other command does the same work from a
state with another staging spec. -/

namespace Sys2Proof.Proofs
open Sys2Proof.Machine

/-- The same work with another staging spec in its state. -/
def restaged (p : Spec) (w : Work) : Work := { w with state := withSpec w.state p }

/-! ## Raising and sequencing -/

theorem map_eq_map_map {α β γ : Type} {x : Except ErrCode α} {f : α → β} {g : α → γ} {k : β → γ} (h : ∀ a, g a = k (f a)) :
    x.map g = (x.map f).map k := by
  cases x with
  | error e => rfl
  | ok a => exact congrArg Except.ok (h a)

theorem bind_eq_map_bind {α β γ : Type} {x : Except ErrCode α} {f : α → Except ErrCode β} {g : α → Except ErrCode γ}
    {k : β → γ} (h : ∀ a, g a = (f a).map k) : x.bind g = (x.bind f).map k := by
  cases x with
  | error e => rfl
  | ok a => exact h a

theorem map_bind_eq_bind_map {α α' β γ : Type} {x : Except ErrCode α} {j : α → α'} {f : α → Except ErrCode β}
    {g : α' → Except ErrCode γ} {k : β → γ} (h : ∀ a, g (j a) = (f a).map k) : (x.map j).bind g = (x.bind f).map k := by
  cases x with
  | error e => rfl
  | ok a => exact h a

/-! ## The shared operations -/

theorem checkSession_restaged (p : Spec) (w : Work) :
    checkSession (restaged p w) = (checkSession w).map (restaged p) := by
  have hfit : sessionFits (restaged p w).state = sessionFits w.state := rfl
  unfold checkSession
  rw [hfit]
  split <;> rfl

theorem appendBitStep_restaged (p : Spec) (b : Bool) (w : Work) :
    appendBitStep b (restaged p w) = (appendBitStep b w).map (restaged p) := by
  have hcur : curOpen (restaged p w).state = curOpen w.state := rfl
  unfold appendBitStep
  rw [hcur]
  split <;> rfl

theorem appendBitSteps_restaged (p : Spec) (bits : List Bool) (w : Work) :
    appendBitSteps bits (restaged p w) = (appendBitSteps bits w).map (restaged p) := by
  induction bits generalizing w with
  | nil => rfl
  | cons b bs ih =>
    rw [appendBitSteps, appendBitSteps, appendBitStep_restaged]
    cases appendBitStep b w with
    | error e => rfl
    | ok v => exact ih v

theorem repeatStep_restaged (p : Spec) (w : Work) : repeatStep (restaged p w) = (repeatStep w).map (restaged p) := by
  have hentry : repeatEntry (restaged p w).state = repeatEntry w.state := rfl
  have hroom : fits (restaged p w).state.cfg.maxFrames ((restaged p w).state.frames.length + 1)
      = fits w.state.cfg.maxFrames (w.state.frames.length + 1) := rfl
  unfold repeatStep
  rw [hentry, hroom]
  cases repeatEntry w.state with
  | none => rfl
  | some e => dsimp only; split <;> rfl

theorem repeatSteps_restaged (p : Spec) (n : Nat) (w : Work) :
    repeatSteps n (restaged p w) = (repeatSteps n w).map (restaged p) := by
  induction n generalizing w with
  | zero => rfl
  | succ n ih =>
    rw [repeatSteps, repeatSteps, repeatStep_restaged]
    cases repeatStep w with
    | error e => rfl
    | ok v => exact ih v

theorem bitsWork_withSpec (p : Spec) (bits : List Bool) (s : State) :
    bitsWork bits (withSpec s p) = (bitsWork bits s).map (restaged p) :=
  (congrArg (·.bind checkSession) (appendBitSteps_restaged p bits (silent s))).trans
    (map_bind_eq_bind_map (checkSession_restaged p))

theorem repeatsWork_withSpec (p : Spec) (n : Nat) (s : State) :
    repeatsWork n (withSpec s p) = (repeatsWork n s).map (restaged p) :=
  (congrArg (·.bind checkSession) (repeatSteps_restaged p n (silent s))).trans
    (map_bind_eq_bind_map (checkSession_restaged p))

/-! ## The commands -/

theorem commandWork_withSpec {i : Instr} (hbegin : i.opcode ≠ .begin) (hspec : isSpecCommand i.opcode = false)
    (p : Spec) (s : State) : commandWork i (withSpec s p) = (commandWork i s).map (restaged p) := by
  cases i with
  | rdStatus | obsCtrl | rdHist | bitFrom | g4FromInt | g8FromInt | toBits4 | toBits8 | reverse4 | reverse8 | flip4 | flip8
  | pack4 | pack8 | toTicks | toWire => rfl
  | g4FromStr | g4FromArr | g8FromStr | g8FromArr => exact map_eq_map_map fun _ => rfl
  | classify | decode => exact bind_eq_map_bind fun _ => map_eq_map_map fun _ => rfl
  | specClear | specT | specFrame | specStop | specLeader | specBit1 | specBit0 | specRpt => cases hspec
  | begin => exact absurd rfl hbegin
  | appendTime => exact bind_eq_map_bind fun _ => bind_eq_map_bind fun _ => checkSession_restaged p (withCurrent s _ _)
  | terminate => exact bind_eq_map_bind fun _ => checkSession_restaged p (withCurrent s _ _)
  | appendBit | appendBits | appendG4 | appendG8 => exact bitsWork_withSpec p _ s
  | beginRepeat | appendRepeats => exact repeatsWork_withSpec p _ s

theorem Effect.keeps_spec {i : Instr} {s t : State} (heff : Effect i s t) (hspec : isSpecCommand i.opcode = false) :
    t.spec = s.spec := by
  cases heff with
  | writesSpec p hi => rw [hspec] at hi; cases hi
  | unchanged | observes | begins | builds | appendsBits | repeats => rfl

/-- Settles O29: the work is the same with `SPEC` replaced, and both ways to end a command leave `SPEC` alone. -/
theorem specIsReadOnlyByBegin : Obligations.SpecIsReadOnlyByBegin := by
  unfold Obligations.SpecIsReadOnlyByBegin
  intro i p s hbegin hspec
  have hwork := commandWork_withSpec hbegin hspec p s
  have hexec : exec i { s with spec := p } = finish i.opcode (withSpec s p) ((commandWork i s).map (restaged p)) := by
    rw [← hwork]; exact exec_eq_finish i (withSpec s p)
  rw [hexec, exec_eq_finish]
  cases hw : commandWork i s with
  | error e => exact ⟨_, rfl, rfl, rfl⟩
  | ok w =>
    by_cases hlen : w.payload.length ≤ maxRspWords
    · exact ⟨_, finish_ok _ _ _ hlen, (commandWork_effect hw).keeps_spec hspec, finish_ok _ _ (restaged p w) hlen⟩
    · have hlong := Nat.lt_of_not_le hlen
      exact ⟨_, finish_too_long _ _ _ hlong, rfl, finish_too_long _ _ (restaged p w) hlong⟩

end Sys2Proof.Proofs
end

section
/-! PROOFS. What a session keeps until the next BEGIN (R24, R27 to R29, R245, R246). -/

namespace Sys2Proof.Proofs
open Sys2Proof.Machine

/-- The frames `fs` go on from those of `s`: the frames before the current one stay, a closed current frame stays, and an open
one keeps its place and its entries (R245, R246). -/
structure FramesGrow (s : State) (fs : List Frame) : Prop where
  earlier : s.frames.dropLast <+: fs
  closed : noOpenFrame s → s.frames <+: fs
  current : ∀ f, openFrame s f → ∃ g, fs[s.frames.length - 1]? = some g ∧ f.entries <+: g.entries

/-- Frames are at most added behind the others. -/
theorem FramesGrow.of_isPrefix {s : State} {fs : List Frame} (h : s.frames <+: fs) : FramesGrow s fs where
  earlier := (List.dropLast_prefix s.frames).trans h
  closed _ := h
  current f hopen := by
    have hlast : s.frames[s.frames.length - 1]? = some f := by
      rw [← List.getLast?_eq_getElem?]; exact hopen.1
    obtain ⟨hlt, rfl⟩ := List.getElem?_eq_some_iff.1 hlast
    exact ⟨_, List.prefix_iff_getElem?.1 h _ hlt, List.prefix_rfl⟩

/-- The open current frame `f` goes on as `g`. -/
theorem FramesGrow.of_setLast {s : State} {f g : Frame} (hopen : openFrame s f) (hext : f.entries <+: g.entries) :
    FramesGrow s (setLast s.frames g) where
  earlier := List.prefix_append ..
  closed hnone := by
    have hclosed := hnone f hopen.1
    rw [hopen.2] at hclosed
    cases hclosed
  current f' hopen' := by
    obtain rfl : f = f' := Option.some.inj (hopen.1.symm.trans hopen'.1)
    refine ⟨g, ?_, hext⟩
    rw [setLast, ← List.length_dropLast]
    exact List.getElem?_concat_length

/-- What every command other than BEGIN keeps of a session. -/
structure SessionKept (s t : State) : Prop where
  aspec : t.aspec = s.aspec
  hist : s.hist <+: t.hist
  rptIdx : s.rptIdx ≤ t.rptIdx
  frames : FramesGrow s t.frames

theorem SessionKept.of_same {s t : State} (haspec : t.aspec = s.aspec) (hhist : t.hist = s.hist)
    (hrptIdx : t.rptIdx = s.rptIdx) (hframes : t.frames = s.frames) : SessionKept s t :=
  ⟨haspec, hhist ▸ List.prefix_rfl, hrptIdx ▸ BitVec.le_refl _, hframes ▸ .of_isPrefix List.prefix_rfl⟩

theorem Effect.keeps_session {i : Instr} {s t : State} (heff : Effect i s t) (hi : i ≠ .begin) : SessionKept s t := by
  cases heff with
  | begins hbegin => exact absurd hbegin hi
  | unchanged | observes | writesSpec => exact .of_same rfl rfl rfl rfl
  | builds f b closed hopen hext =>
    exact ⟨rfl, List.prefix_rfl, BitVec.le_refl _, .of_setLast hopen hext.isPrefix⟩
  | appendsBits f bits hopen =>
    have hext := bitsBuilt_extends s.aspec f.entries bits
    exact ⟨rfl, List.prefix_append .., BitVec.le_refl _, .of_setLast hopen hext.isPrefix⟩
  | repeats fs k hk => exact ⟨rfl, List.prefix_rfl, hk, .of_isPrefix (List.prefix_append ..)⟩

/-- What every command keeps of the observer port and its enable bit (R29). -/
structure ObserverKept (i : Instr) (s t : State) : Prop where
  ctrlObs : i.opcode ≠ .obsCtrl → t.ctrlObs = s.ctrlObs
  grows : s.obs <+: t.obs
  disabled : s.ctrlObs = false → t.obs = s.obs

theorem ObserverKept.of_same {i : Instr} {s t : State} (hctrl : t.ctrlObs = s.ctrlObs) (hobs : t.obs = s.obs) :
    ObserverKept i s t :=
  ⟨fun _ => hctrl, hobs ▸ List.prefix_rfl, fun _ => hobs⟩

theorem afterBits_obs (f : Frame) (bits : List Bool) (s : State) :
    (afterBits f bits s).obs = if s.ctrlObs then s.obs ++ bitObservers s.hist.length bits else s.obs := rfl

theorem Effect.keeps_observer {i : Instr} {s t : State} (heff : Effect i s t) : ObserverKept i s t := by
  cases heff with
  | unchanged | writesSpec | begins | builds | repeats => exact .of_same rfl rfl
  | observes en hi => exact ⟨fun hne => absurd (congrArg Instr.opcode hi) hne, List.prefix_rfl, fun _ => rfl⟩
  | appendsBits f bits =>
    cases hctrl : s.ctrlObs with
    | false => exact .of_same rfl (by rw [afterBits_obs, hctrl]; rfl)
    | true =>
      have hobs : (afterBits f bits s).obs = s.obs ++ bitObservers s.hist.length bits := by
        rw [afterBits_obs, hctrl]; rfl
      exact ⟨fun _ => rfl, hobs ▸ List.prefix_append .., fun hoff => by rw [hctrl] at hoff; cases hoff⟩

/-- Settles O41: an error entry touches none of these fields, a reply shows those of the finished work. -/
theorem sessionsOnlyGrow : Obligations.SessionsOnlyGrow := by
  unfold Obligations.SessionsOnlyGrow
  intro i s t h
  obtain ⟨hsession, hobserver⟩ : (i ≠ .begin → SessionKept s t) ∧ ObserverKept i s t := by
    rcases exec_next i s with ⟨e, he⟩ | ⟨w, hw, -, hreply⟩
    · rw [he] at h; cases h
      exact ⟨fun _ => .of_same rfl rfl rfl rfl, .of_same rfl rfl⟩
    · rw [hreply] at h; cases h
      have heff := commandWork_effect hw
      refine ⟨fun hi => ?_, ?_⟩
      · obtain ⟨haspec, hhist, hrptIdx, hframes⟩ := heff.keeps_session hi
        exact ⟨haspec, hhist, hrptIdx, hframes⟩
      · obtain ⟨hctrl, hgrows, hdisabled⟩ := heff.keeps_observer
        exact ⟨hctrl, hgrows, hdisabled⟩
  refine ⟨fun hi => ?_, hobserver.ctrlObs, hobserver.grows, hobserver.disabled⟩
  obtain ⟨haspec, hhist, hrptIdx, hframes⟩ := hsession hi
  exact ⟨haspec, hhist, hrptIdx, hframes.earlier, hframes.closed, hframes.current⟩

end Sys2Proof.Proofs
end

section
/-! PROOFS. The BGU, DEC and read-only commands (R59, R100): an error entry or a reply from the state as it was. -/

namespace Sys2Proof.Proofs
open Sys2Proof.Machine

theorem commandWork_state_of_isPureCommand {i : Instr} {s : State} {w : Work} (hpure : isPureCommand i.opcode = true)
    (h : commandWork i s = .ok w) : w.state = s := by
  cases i with
  | rdStatus | rdHist | bitFrom | g4FromInt | g8FromInt | toBits4 | toBits8 | reverse4 | reverse8 | flip4 | flip8
  | pack4 | pack8 | toTicks | toWire =>
    cases h; rfl
  | g4FromStr | g4FromArr | g8FromStr | g8FromArr =>
    obtain ⟨g, -, rfl⟩ := ok_of_map_eq_ok h
    rfl
  | classify | decode =>
    obtain ⟨d, -, hd⟩ := ok_of_bind_eq_ok h
    obtain ⟨g, -, rfl⟩ := ok_of_map_eq_ok hd
    rfl
  | obsCtrl | specClear | specT | specFrame | specStop | specLeader | specBit1 | specBit0 | specRpt | begin | appendTime
  | appendBit | appendBits | appendG4 | appendG8 | terminate | beginRepeat | appendRepeats =>
    cases hpure

/-- Settles O57, by the two ways a command ends: each entry writes the status and one response, and a reply of these commands
is from the state before. -/
theorem pureCommandsKeepEncoderState : Obligations.PureCommandsKeepEncoderState := by
  unfold Obligations.PureCommandsKeepEncoderState
  intro i s hpure
  rcases exec_next i s with ⟨e, herror⟩ | ⟨w, hw, -, hreply⟩
  · exact ⟨_, _, herror, rfl⟩
  · rw [reply_eq_answered, commandWork_state_of_isPureCommand hpure hw] at hreply
    exact ⟨_, _, hreply, rfl⟩

end Sys2Proof.Proofs
end

section
/-! PROOFS. The packet format (R65 to R80): decoding and encoding are inverse to each other, and the packets outside the
encoder's range are rejected with the error of R78 and R79. -/

namespace Sys2Proof.Proofs
open Sys2Proof.Machine

/-! ## Header checks -/

/-- The header of an opcode, with these operand words, passes the checks (2) to (4) of R78. -/
structure Accepts (o : Opcode) (a : Byte) (n : Half) (ws : List Word) : Prop where
  sub : subFieldOk o a = true
  count : countFieldOk o a n = true
  demand : operandCount o a n = some ws.length

/-- A header of a command whose count field may be any number: `demand` says how many words a list of that length takes. -/
theorem Accepts.counted {o : Opcode} {a : Byte} {len : Nat} {ws : List Word} (demand : Nat → Nat)
    (hlen : countFits len = true) (hsub : subFieldOk o a = true) (hcount : ∀ n, countFieldOk o a n = true)
    (hdemand : ∀ n : Half, operandCount o a n = some (demand n.toNat)) (hws : ws.length = demand len) :
    Accepts o a (countField len) ws where
  sub := hsub
  count := hcount _
  demand := by rw [hdemand, countField_toNat (of_decide_eq_true hlen), hws]

theorem decode_mkPacket_eq_ok_iff {o : Opcode} {a : Byte} {n : Half} {ws : List Word} {i : Instr} :
    decode (mkPacket o a n ws) = .ok i ↔ Accepts o a n ws ∧ decodeOperands o a n ws = .ok i := by
  rw [decode_mkPacket]
  constructor
  · intro h
    obtain ⟨hsub, hcount, hlen, hops⟩ := decodeCommand_ok h
    exact ⟨⟨hsub, hcount, hlen⟩, hops⟩
  · rintro ⟨⟨hsub, hcount, hlen⟩, hops⟩
    simp [decodeCommand, hsub, hcount, hlen, hops]

/-- A packet whose opcode is in the map is one `mkPacket` builds, from the fields of its header (R66). -/
theorem eq_mkPacket_of_opcodeOf {p : Packet} {o : Opcode} (h : opcodeOf (headerOp p.head) = some o) :
    p = mkPacket o (headerA p.head) (headerN p.head) p.tail := by
  rw [mkPacket, opcodeByte_of_opcodeOf h, mkHeader_fields]

/-! ## Fields in `n` -/

theorem setWidth_group_toNat_lt {w : Nat} (hw : w ≤ 16) (g : BitVec w) : (g.setWidth 16 : Half).toNat < 2 ^ w := by
  rw [BitVec.toNat_setWidth_of_le hw]
  exact g.isLt

/-- A count field below `2 ^ w` is a group of width `w` (R78 (3)). -/
theorem setWidth_setWidth_of_toNat_lt {w : Nat} {n : Half} (h : n.toNat < 2 ^ w) : (n.setWidth w).setWidth 16 = n := by
  apply BitVec.eq_of_toNat_eq
  simp [Nat.mod_eq_of_lt h, n.isLt]

theorem eq_zero_or_one_of_toNat_lt {n : Half} (h : n.toNat < 2) : n = 0 ∨ n = 1 := by
  rcases (by omega : n.toNat = 0 ∨ n.toNat = 1) with h0 | h1
  · exact .inl (BitVec.eq_of_toNat_eq h0)
  · exact .inr (BitVec.eq_of_toNat_eq h1)

/-- A count field below 2 is a one-bit field (R130, R147). -/
theorem bitField_getLsbD_zero {n : Half} (h : n.toNat < 2) : bitField (n.getLsbD 0) = n := by
  obtain rfl | rfl := eq_zero_or_one_of_toNat_lt h <;> rfl

/-! ## Decoding what was encoded -/

theorem decode_encode {i : Instr} (h : wellFormed i = true) : decode (encode i) = .ok i := by
  cases i with
  | rdStatus | rdHist | specClear | begin | terminate | beginRepeat | toTicks | toWire => rfl
  | obsCtrl b | appendBit b => cases b <;> rfl
  | bitFrom v | specT v | specFrame v =>
    exact decode_mkPacket_eq_ok_iff.2 ⟨⟨rfl, rfl, rfl⟩, by simp [decodeOperands, oneWord, Except.map]⟩
  | g4FromInt v | g8FromInt v => exact decode_mkPacket_eq_ok_iff.2 ⟨⟨rfl, rfl, rfl⟩, rfl⟩
  | g4FromStr cs | g8FromStr cs =>
    exact decode_mkPacket_eq_ok_iff.2 ⟨.counted id h rfl (fun _ => rfl) (fun _ => rfl) (by simp),
      by simp [decodeOperands, decodeAll_map _ _ decodeChar_encodeChar, Except.map]⟩
  | g4FromArr bs | g8FromArr bs =>
    exact decode_mkPacket_eq_ok_iff.2 ⟨.counted id h rfl (fun _ => rfl) (fun _ => rfl) (by simp),
      by simp [decodeOperands, decodeAll_map _ _ decodeBitLike_encodeBitLike, Except.map]⟩
  | toBits4 g | reverse4 g | flip4 g | toBits8 g | reverse8 g | flip8 g | appendG4 g | appendG8 g =>
    exact decode_mkPacket_eq_ok_iff.2 ⟨⟨rfl, decide_eq_true (setWidth_group_toNat_lt (by decide) g), rfl⟩,
      by simp [decodeOperands]⟩
  | pack4 bits | pack8 bits | appendBits bits =>
    exact decode_mkPacket_eq_ok_iff.2 ⟨.counted packedWords h rfl (fun _ => rfl) (fun _ => rfl) (packBits_length bits),
      by simp [decodeOperands, countField_toNat (of_decide_eq_true h), decodeBits_packBits, Except.map]⟩
  | specStop tok =>
    cases tok with
    | none => rfl
    | some t => exact decode_mkPacket_eq_ok_iff.2 ⟨⟨rfl, rfl, rfl⟩, by simp [decodeOperands]⟩
  | specLeader ts | specBit1 ts | specBit0 ts | appendTime ts =>
    exact decode_mkPacket_eq_ok_iff.2 ⟨.counted id h rfl (fun _ => rfl) (fun _ => rfl) (by simp),
      by simp [decodeOperands, Function.comp_def]⟩
  | specRpt header target =>
    exact decode_mkPacket_eq_ok_iff.2 ⟨.counted (· + 1) h rfl (fun _ => rfl) (fun _ => rfl) (by simp),
      by simp [decodeOperands, decodeRepeat_encode, Except.map]⟩
  | appendRepeats n => exact decode_mkPacket_eq_ok_iff.2 ⟨⟨rfl, rfl, rfl⟩, rfl⟩
  | classify ks | decode ks =>
    exact decode_mkPacket_eq_ok_iff.2 ⟨.counted id h rfl (fun _ => rfl) (fun _ => rfl) (by simp),
      by simp [decodeOperands, decodeAll_map _ _ decodeTick_encodeTick, Except.map]⟩

/-- Settles O1, command by command: the header passes the checks of R78 and the operand words are read back. -/
theorem decodeOfEncode : Obligations.DecodeOfEncode := by
  unfold Obligations.DecodeOfEncode
  intro i h
  exact decode_encode h

/-! ## Encoding what was decoded -/

theorem decoded_of_map_eq_ok {α β : Type} {x : Except DecodeError α} {g : α → β} {b : β} (h : x.map g = .ok b) :
    ∃ a, x = .ok a ∧ g a = b := by
  cases x with
  | error e => cases h
  | ok a => cases h; exact ⟨a, rfl, rfl⟩

theorem oneWord_ok {α : Type} {f : Word → Except DecodeError α} {ws : List Word} {x : α} (h : oneWord f ws = .ok x) :
    ∃ w, ws = [w] ∧ f w = .ok x := by
  unfold oneWord at h
  split at h
  · exact ⟨_, rfl, h⟩
  · cases h

theorem map_encodeToken_map_decodeToken (ws : List Word) : (ws.map decodeToken).map encodeToken = ws := by
  simp [Function.comp_def]

/-- A list that `n` counts fits the count field, and `n` is what the encoder writes there (R66). -/
theorem countField_of_length {α : Type} {xs : List α} {n : Half} (h : xs.length = n.toNat) :
    countFits xs.length = true ∧ countField xs.length = n := by
  rw [h]
  exact ⟨decide_eq_true n.isLt, countField_of_toNat n⟩

/-- The headers of a group source of a recognised shape (R77). -/
theorem sourceCount_cases {a : Byte} {n : Half} {l : Nat} (h : sourceCount a n = some l) :
    a = 0 ∧ n = 0 ∨ a = 1 ∧ l = n.toNat ∨ a = 2 ∧ l = n.toNat := by
  unfold sourceCount at h
  split_ifs at h with h0 hn h1 h2
  · exact .inl ⟨h0, hn⟩
  · exact .inr (.inl ⟨h1, (Option.some.inj h).symm⟩)
  · exact .inr (.inr ⟨h2, (Option.some.inj h).symm⟩)

theorem eq_nil_of_demand_zero {ws : List Word} (h : some 0 = some ws.length) : ws = [] :=
  List.length_eq_zero_iff.1 (Option.some.inj h).symm

/-- A sub-field that is a width is 4 or 8 (R78 (2)). -/
theorem width_cases {a : Byte} (h : (a == 4 || a == 8) = true) : a = 4 ∨ a = 8 := by simpa using h

/-- Behind a header that passes, only the encoder's operand words decode (R78 (5)). -/
theorem encode_of_decodeOperands {o : Opcode} {a : Byte} {n : Half} {ws : List Word} {i : Instr} (hacc : Accepts o a n ws)
    (h : decodeOperands o a n ws = .ok i) : wellFormed i = true ∧ encode i = mkPacket o a n ws := by
  obtain ⟨hsub, hcount, hlen⟩ := hacc
  cases o with
  | rdStatus | rdHist | specClear | begin | terminate | beginRepeat | toTicks | toWire =>
    obtain rfl : a = 0 := eq_of_beq hsub
    obtain rfl : n = 0 := eq_of_beq hcount
    obtain rfl := eq_nil_of_demand_zero hlen
    cases h
    exact ⟨rfl, rfl⟩
  | obsCtrl | appendBit =>
    obtain rfl : a = 0 := eq_of_beq hsub
    obtain rfl := eq_nil_of_demand_zero hlen
    cases h
    exact ⟨rfl, by rw [encode, bitField_getLsbD_zero (of_decide_eq_true hcount)]⟩
  | bitFrom =>
    obtain rfl : a = 0 := eq_of_beq hsub
    obtain rfl : n = 0 := eq_of_beq hcount
    obtain ⟨v, hv, rfl⟩ := decoded_of_map_eq_ok h
    obtain ⟨w, rfl, hw⟩ := oneWord_ok hv
    exact ⟨rfl, by rw [encode, encodeBitLike_of_decodeBitLike hw]⟩
  | specT | specFrame =>
    obtain rfl : a = 0 := eq_of_beq hsub
    obtain rfl : n = 0 := eq_of_beq hcount
    obtain ⟨v, hv, rfl⟩ := decoded_of_map_eq_ok h
    obtain ⟨w, rfl, hw⟩ := oneWord_ok hv
    exact ⟨rfl, by rw [encode, encodeValue_of_decodeValue hw]⟩
  | g4From | g8From =>
    rcases sourceCount_cases hlen with ⟨rfl, rfl⟩ | ⟨rfl, hn⟩ | ⟨rfl, hn⟩
    · obtain ⟨v, hv, rfl⟩ := decoded_of_map_eq_ok h
      obtain ⟨w, rfl, hw⟩ := oneWord_ok hv
      cases hw
      exact ⟨rfl, rfl⟩
    · obtain ⟨cs, hcs, rfl⟩ := decoded_of_map_eq_ok h
      obtain rfl := map_of_decodeAll _ encodeChar (fun _ _ => encodeChar_of_decodeChar) hcs
      obtain ⟨hfits, hcs⟩ := countField_of_length (List.length_map encodeChar ▸ hn)
      exact ⟨hfits, by rw [encode, hcs]⟩
    · obtain ⟨bs, hbs, rfl⟩ := decoded_of_map_eq_ok h
      obtain rfl := map_of_decodeAll _ encodeBitLike (fun _ _ => encodeBitLike_of_decodeBitLike) hbs
      obtain ⟨hfits, hbs⟩ := countField_of_length (List.length_map encodeBitLike ▸ hn)
      exact ⟨hfits, by rw [encode, hbs]⟩
  | toBits | reverse | flip =>
    obtain rfl := eq_nil_of_demand_zero hlen
    rcases width_cases hsub with rfl | rfl <;> cases h
    · have hn : n.toNat < 2 ^ 4 := of_decide_eq_true hcount
      exact ⟨rfl, congrArg (mkPacket _ 4 · []) (setWidth_setWidth_of_toNat_lt hn)⟩
    · have hn : n.toNat < 2 ^ 8 := of_decide_eq_true hcount
      exact ⟨rfl, congrArg (mkPacket _ 8 · []) (setWidth_setWidth_of_toNat_lt hn)⟩
  | pack =>
    obtain ⟨bits, hbits, rfl⟩ := decoded_of_map_eq_ok h
    obtain ⟨hn, rfl⟩ := packBits_of_decodeBits (Option.some.inj hlen).symm hbits
    obtain ⟨hfits, hn⟩ := countField_of_length hn
    rcases width_cases hsub with rfl | rfl
    · exact ⟨hfits, by rw [if_pos rfl, encode, hn]⟩
    · exact ⟨hfits, by rw [if_neg (by decide), encode, hn]⟩
  | specStop =>
    obtain rfl : a = 0 := eq_of_beq hsub
    cases h
    rcases eq_zero_or_one_of_toNat_lt (of_decide_eq_true hcount) with rfl | rfl
    · obtain rfl := eq_nil_of_demand_zero hlen
      exact ⟨rfl, rfl⟩
    · obtain ⟨w, rfl⟩ := List.length_eq_one_iff.1 (Option.some.inj hlen).symm
      exact ⟨rfl, by simp [encode]⟩
  | specLeader | specBit1 | specBit0 | appendTime =>
    obtain rfl : a = 0 := eq_of_beq hsub
    cases h
    obtain ⟨hfits, hn⟩ := countField_of_length ((List.length_map decodeToken).trans (Option.some.inj hlen).symm)
    exact ⟨hfits, by rw [encode, hn, map_encodeToken_map_decodeToken]⟩
  | specRpt =>
    obtain rfl : a = 0 := eq_of_beq hsub
    obtain ⟨⟨ts, m⟩, hts, rfl⟩ := decoded_of_map_eq_ok h
    obtain rfl := encode_of_decodeRepeat hts
    obtain ⟨hfits, hn⟩ := countField_of_length (xs := ts) (n := n) (by simpa [operandCount, eq_comm] using hlen)
    exact ⟨hfits, by rw [encode, hn]⟩
  | appendBits =>
    obtain rfl : a = 0 := eq_of_beq hsub
    obtain ⟨bits, hbits, rfl⟩ := decoded_of_map_eq_ok h
    obtain ⟨hn, rfl⟩ := packBits_of_decodeBits (Option.some.inj hlen).symm hbits
    obtain ⟨hfits, hn⟩ := countField_of_length hn
    exact ⟨hfits, by rw [encode, hn]⟩
  | appendG4 =>
    obtain rfl : a = 0 := eq_of_beq hsub
    obtain rfl := eq_nil_of_demand_zero hlen
    have hn : n.toNat < 2 ^ 4 := of_decide_eq_true hcount
    cases h
    exact ⟨rfl, by rw [encode, setWidth_setWidth_of_toNat_lt hn]⟩
  | appendG8 =>
    obtain rfl : a = 0 := eq_of_beq hsub
    obtain rfl := eq_nil_of_demand_zero hlen
    have hn : n.toNat < 2 ^ 8 := of_decide_eq_true hcount
    cases h
    exact ⟨rfl, by rw [encode, setWidth_setWidth_of_toNat_lt hn]⟩
  | appendRepeats =>
    obtain rfl : a = 0 := eq_of_beq hsub
    obtain rfl := eq_nil_of_demand_zero hlen
    cases h
    exact ⟨rfl, rfl⟩
  | classify | decode =>
    obtain rfl : a = 0 := eq_of_beq hsub
    obtain ⟨ks, hks, rfl⟩ := decoded_of_map_eq_ok h
    obtain rfl := map_of_decodeAll _ encodeTick (fun _ _ => encodeTick_of_decodeTick) hks
    obtain ⟨hfits, hn⟩ := countField_of_length (List.length_map encodeTick ▸ (Option.some.inj hlen).symm)
    exact ⟨hfits, by rw [encode, hn]⟩

/-- A packet that decodes is one that the encoder writes (R78, R80). -/
theorem encode_of_decode {p : Packet} {i : Instr} (h : decode p = .ok i) : wellFormed i = true ∧ encode i = p := by
  obtain ⟨o, ho, -⟩ := decode_ok h
  rw [eq_mkPacket_of_opcodeOf ho] at h ⊢
  obtain ⟨hacc, hops⟩ := decode_mkPacket_eq_ok_iff.1 h
  exact encode_of_decodeOperands hacc hops

/-- Settles O2, opcode by opcode: the header checks of R78 leave only the header and operand words that the encoder writes. -/
theorem onlyEncodingsDecode : Obligations.OnlyEncodingsDecode := by
  unfold Obligations.OnlyEncodingsDecode
  intro p i h
  exact encode_of_decode h

/-! ## Packets that are no command -/

/-- A result that is not the error of an unrecognised shape. The operand words of R78 (5) never give that error: it is the
length rule's alone (R77, R79 (2)). -/
def ShapeFree {α : Type} (x : Except DecodeError α) : Prop := x ≠ .error .unrecognisedShape

theorem ShapeFree.ok {α : Type} (x : α) : ShapeFree (.ok x) := nofun

theorem ShapeFree.map {α β : Type} {x : Except DecodeError α} (h : ShapeFree x) (g : α → β) : ShapeFree (x.map g) := by
  cases x with
  | error e => intro he; cases he; exact h rfl
  | ok a => exact .ok _

theorem decodeValue_shapeFree (w : Word) : ShapeFree (decodeValue w) := by
  unfold decodeValue; split <;> nofun

theorem decodeTick_shapeFree (w : Word) : ShapeFree (decodeTick w) := by
  unfold decodeTick; split <;> nofun

theorem decodeChar_shapeFree (w : Word) : ShapeFree (decodeChar w) := by
  unfold decodeChar; split <;> nofun

theorem decodeBitLike_shapeFree (w : Word) : ShapeFree (decodeBitLike w) := by
  unfold decodeBitLike; dsimp only; split_ifs <;> nofun

theorem decodeBits_shapeFree (n : Nat) (ws : List Word) : ShapeFree (decodeBits n ws) := by
  unfold decodeBits; split <;> nofun

theorem oneWord_shapeFree {α : Type} {f : Word → Except DecodeError α} (hf : ∀ w, ShapeFree (f w)) (ws : List Word) :
    ShapeFree (oneWord f ws) := by
  unfold oneWord
  split
  · exact hf _
  · nofun

theorem decodeAll_shapeFree {α : Type} {f : Word → Except DecodeError α} (hf : ∀ w, ShapeFree (f w)) (ws : List Word) :
    ShapeFree (decodeAll f ws) := by
  induction ws with
  | nil => exact .ok _
  | cons w ws ih =>
    have hw := hf w
    unfold decodeAll
    cases hx : f w with
    | error e => rw [hx] at hw; intro he; cases he; exact hw rfl
    | ok x =>
      cases hxs : decodeAll f ws with
      | error e => rw [hxs] at ih; intro he; cases he; exact ih rfl
      | ok xs => exact .ok _

theorem decodeRepeat_shapeFree (ws : List Word) : ShapeFree (decodeRepeat ws) := by
  induction ws with
  | nil => nofun
  | cons w ws ih =>
    cases ws with
    | nil => exact (decodeValue_shapeFree w).map _
    | cons w' ws => exact ih.map _

theorem decodeOperands_shapeFree (o : Opcode) (a : Byte) (n : Half) (ws : List Word) :
    ShapeFree (decodeOperands o a n ws) := by
  cases o with
  | bitFrom => exact (oneWord_shapeFree decodeBitLike_shapeFree ws).map _
  | g4From | g8From =>
    unfold decodeOperands
    dsimp only
    split_ifs
    · exact (oneWord_shapeFree ShapeFree.ok ws).map _
    · exact (decodeAll_shapeFree decodeChar_shapeFree ws).map _
    · exact (decodeAll_shapeFree decodeBitLike_shapeFree ws).map _
  | pack | appendBits => exact (decodeBits_shapeFree n.toNat ws).map _
  | specT | specFrame => exact (oneWord_shapeFree decodeValue_shapeFree ws).map _
  | specRpt => exact (decodeRepeat_shapeFree ws).map _
  | classify | decode => exact (decodeAll_shapeFree decodeTick_shapeFree ws).map _
  | _ => exact .ok _

theorem sourceCount_eq_none_iff (a : Byte) (n : Half) : sourceCount a n = none ↔ 3 ≤ a.toNat ∨ a = 0 ∧ n ≠ 0 := by
  by_cases h0 : a = 0
  · simp [sourceCount, h0]
  by_cases h1 : a = 1
  · simp [sourceCount, h1]
  by_cases h2 : a = 2
  · simp [sourceCount, h2]
  have h3 : 3 ≤ a.toNat := by bv_omega
  simp only [sourceCount, if_neg h0, if_neg h1, if_neg h2, h3, true_or]

/-- Only a group source has headers of no recognised shape (R77). -/
theorem operandCount_eq_none_iff (o : Opcode) (a : Byte) (n : Half) :
    operandCount o a n = none ↔ (o = .g4From ∨ o = .g8From) ∧ sourceCount a n = none := by
  cases o <;> simp [operandCount]

/-- A G4_FROM or G8_FROM header of no recognised shape (R77, R79 (2)). -/
def NoShape (h : Word) : Prop :=
  (headerOp h = 0x11 ∨ headerOp h = 0x12) ∧ (3 ≤ (headerA h).toNat ∨ (headerA h = 0 ∧ headerN h ≠ 0))

theorem decodeCommand_eq_unrecognisedShape_iff (o : Opcode) (a : Byte) (n : Half) (ws : List Word) :
    decodeCommand o a n ws = .error .unrecognisedShape ↔ operandCount o a n = none := by
  constructor
  · intro h
    unfold decodeCommand at h
    split at h
    · split at h
      · split at h
        · assumption
        · split at h
          · exact absurd h (decodeOperands_shapeFree o a n ws)
          · cases h
      · cases h
    · cases h
  · intro h
    obtain ⟨rfl | rfl, -⟩ := (operandCount_eq_none_iff o a n).1 h <;>
      simp [decodeCommand, subFieldOk, countFieldOk, h]

theorem opcodeOf_eq_some_iff {b : Byte} {o : Opcode} : opcodeOf b = some o ↔ b = opcodeByte o :=
  ⟨fun h => (opcodeByte_of_opcodeOf h).symm, fun h => h ▸ opcodeOf_opcodeByte o⟩

theorem decode_eq_unrecognisedShape_iff (p : Packet) : decode p = .error .unrecognisedShape ↔ NoShape p.head := by
  have hg4 : headerOp p.head = 0x11 ↔ opcodeOf (headerOp p.head) = some .g4From := (opcodeOf_eq_some_iff (o := .g4From)).symm
  have hg8 : headerOp p.head = 0x12 ↔ opcodeOf (headerOp p.head) = some .g8From := (opcodeOf_eq_some_iff (o := .g8From)).symm
  rw [NoShape, hg4, hg8, ← sourceCount_eq_none_iff, decode]
  cases opcodeOf (headerOp p.head) with
  | none => simp
  | some o => simp [decodeCommand_eq_unrecognisedShape_iff, operandCount_eq_none_iff]

theorem decodeErrCode_of_ne_unrecognisedShape {e : DecodeError} (h : e ≠ .unrecognisedShape) :
    decodeErrCode e = .illegalCommand := by
  cases e with
  | unrecognisedShape => exact absurd rfl h
  | unknownOpcode | badSubField | badCountField | wrongLength | badOperandWord => rfl

/-- Settles O3: a packet outside the encoder's range does not decode, by O2, and of the decoder's errors the unrecognised shape,
and it alone, is malformed input. -/
theorem noncommandsAreRejected : Obligations.NoncommandsAreRejected := by
  unfold Obligations.NoncommandsAreRejected
  intro s p rest hreset hcmd hno
  cases hdec : decode p with
  | ok i =>
    obtain ⟨hwf, henc⟩ := encode_of_decode hdec
    exact absurd henc (hno i hwf)
  | error e =>
    have hstep := step_reject hreset hcmd hdec
    have hshape := hdec ▸ decode_eq_unrecognisedShape_iff p
    constructor
    · intro h
      cases hshape.2 h
      exact hstep
    · intro h
      have he : e ≠ .unrecognisedShape := fun he => h (hshape.1 (congrArg _ he))
      rw [rejectPacket, decodeErrCode_of_ne_unrecognisedShape he] at hstep
      exact hstep

end Sys2Proof.Proofs
end

section
/-! PROOFS. Operand words (R67, R73): packed bit lists and token words, and packets written out from the spec. -/

namespace Sys2Proof.Proofs
open Sys2Proof.Machine

/-! ## Packed bit lists -/

theorem packedBit_eq_getLsbD (ws : List Word) (k : Nat) : packedBit ws k = (ws.getD (k / 32) 0).getLsbD (31 - k % 32) := by
  simp [packedBit, BitVec.getMsbD_eq_getLsbD, Nat.mod_lt]

/-- Words are determined by their packed bits. -/
theorem eq_of_packedBit_eq {ws vs : List Word} (hlen : ws.length = vs.length)
    (h : ∀ k, k < 32 * ws.length → packedBit ws k = packedBit vs k) : ws = vs := by
  apply List.ext_getElem hlen
  intro j hj hj'
  apply BitVec.eq_of_getMsbD_eq
  intro i hi
  have hk := h (32 * j + i) (by omega)
  simpa [packedBit, show (32 * j + i) / 32 = j by omega, show (32 * j + i) % 32 = i by omega, hj, hj'] using hk

/-- The packing of R73 is the only one: the words that carry a bit list are its packed words. -/
theorem carriesBits_iff (ws : List Word) (bits : List Bool) : carriesBits ws bits ↔ packBits bits = ws := by
  simp only [carriesBits, ← packedBit_eq_getLsbD, ← packedBit_packBits]
  constructor
  · rintro ⟨hlen, hbits⟩
    exact (eq_of_packedBit_eq (hlen.trans (packBits_length bits).symm) hbits).symm
  · rintro rfl
    exact ⟨packBits_length bits, fun _ _ => rfl⟩

/-- Operand words of the demanded number are read as the list that they pack (R73). -/
theorem decodeBits_eq_ok_iff {n : Nat} {ws : List Word} (hlen : ws.length = packedWords n) (bits : List Bool) :
    decodeBits n ws = .ok bits ↔ bits.length = n ∧ packBits bits = ws := by
  constructor
  · exact packBits_of_decodeBits hlen
  · rintro ⟨rfl, rfl⟩
    exact decodeBits_packBits bits

theorem decodeBits_error {n : Nat} {ws : List Word} (h : ∀ bits, decodeBits n ws ≠ .ok bits) :
    decodeBits n ws = .error .badOperandWord := by
  by_cases hz : spareBitsZero n ws = true
  · exact absurd (if_pos hz) (h (unpackBits n ws))
  · exact if_neg hz

/-- Settles O5: a list is carried by its packed words and by no others, and these are the words that `decodeBits` reads. -/
theorem packedBitLists : Obligations.PackedBitLists := by
  unfold Obligations.PackedBitLists
  refine ⟨fun bits => (carriesBits_iff _ _).2 rfl, fun n ws hlen => ⟨fun bits => ?_, fun hnone => ?_⟩, rfl, rfl, by decide⟩
  · rw [carriesBits_iff]
    exact decodeBits_eq_ok_iff hlen bits
  · refine decodeBits_error fun bits hbits => ?_
    obtain ⟨hn, hws⟩ := (decodeBits_eq_ok_iff hlen bits).1 hbits
    exact hnone bits hn ((carriesBits_iff ws bits).2 hws)

/-! ## Token words -/

theorem tokenField_injective {t u : Token} (h : tokenField t = tokenField u) : t = u := by
  have hparse := congrArg parseToken h
  simpa using hparse

/-- Settles O24: a token word is malformed or the field of a token, which the parser gives back. -/
theorem tokenWordsDenoteTokens : Obligations.TokenWordsDenoteTokens := by
  unfold Obligations.TokenWordsDenoteTokens
  intro w
  refine ⟨rfl, rfl, rfl, parseToken_of_malformed, fun hgood => ?_⟩
  rcases malformed_or_tokenField (decodeToken w) with hbad | ⟨t, ht⟩
  · rw [hgood] at hbad
    cases hbad
  · exact ⟨t, by rw [← ht, parseToken_tokenField], ht, fun u hu => tokenField_injective (hu.trans ht.symm)⟩

/-! ## Written-out packets -/

/-- Settles O4, by running the decoder on each packet. -/
theorem writtenOutPacketsDecode : Obligations.WrittenOutPacketsDecode := by
  unfold Obligations.WrittenOutPacketsDecode
  refine ⟨?_, ?_, ?_, ?_, ?_, ?_, ?_, ?_, ?_⟩ <;> decide

end Sys2Proof.Proofs
end

section
/-! PROOFS. Responses (R74, R220, R231): the header as a number, what an error leaves and what a success leaves. -/

namespace Sys2Proof.Proofs
open Sys2Proof.Machine

/-! ## The response header as a number -/

theorem toNat_setWidth_shiftLeft {b k : Nat} (hbk : b + k ≤ 32) (x : BitVec b) :
    ((x.setWidth 32 : Word) <<< k).toNat = x.toNat * 2 ^ k := by
  have hx : x.toNat * 2 ^ k < 2 ^ 32 :=
    calc x.toNat * 2 ^ k < 2 ^ b * 2 ^ k := Nat.mul_lt_mul_of_pos_right x.isLt (Nat.two_pow_pos k)
      _ = 2 ^ (b + k) := (Nat.pow_add 2 b k).symm
      _ ≤ 2 ^ 32 := Nat.pow_le_pow_right (by decide) hbk
  rw [BitVec.toNat_shiftLeft, BitVec.toNat_setWidth_of_le (by omega), Nat.shiftLeft_eq, Nat.mod_eq_of_lt hx]

/-- A field above `y` is added to it. -/
theorem mul_or_eq_add {k y : Nat} (x : Nat) (hy : y < 2 ^ k) : x * 2 ^ k ||| y = x * 2 ^ k + y := by
  rw [← Nat.shiftLeft_eq, Nat.shiftLeft_add_eq_or_of_lt hy]

theorem respHeader_toNat (op : Byte) (err : BitVec 4) (diag : BitVec 3) {m : Nat} (hm : m < 65536) :
    (respHeader op err diag m).toNat = op.toNat * 2 ^ 24 + err.toNat * 2 ^ 20 + diag.toNat * 2 ^ 17 + m := by
  have hcount : ((BitVec.ofNat 16 m).setWidth 32 : Word).toNat = m := by simp; omega
  have herr := err.isLt
  have hdiag := diag.isLt
  rw [respHeader, BitVec.or_assoc, BitVec.or_assoc]
  simp only [BitVec.toNat_or]
  rw [toNat_setWidth_shiftLeft (by decide), toNat_setWidth_shiftLeft (by decide), toNat_setWidth_shiftLeft (by decide), hcount,
    mul_or_eq_add diag.toNat (by omega), mul_or_eq_add err.toNat (by omega), mul_or_eq_add op.toNat (by omega)]
  omega

/-- The header of an error response (R228). -/
theorem respHeader_error (op : Byte) (err : BitVec 4) :
    respHeader op err 0 0 = BitVec.ofNat 32 (op.toNat * 2 ^ 24 + err.toNat * 2 ^ 20) := by
  apply BitVec.eq_of_toNat_eq
  have hop := op.isLt
  have herr := err.isLt
  rw [respHeader_toNat op err 0 (by decide), BitVec.toNat_ofNat, Nat.mod_eq_of_lt (by omega)]
  simp

theorem errFlag_getLsbD (e : ErrCode) {k : Nat} (hk : k < 8) : (errFlag e).getLsbD k = decide (k = (errNumber e).toNat) := by
  revert k
  cases e <;> decide

/-- Settles O8: the header's fields do not overlap, and `errored` is written with them. -/
theorem responseHeaderAndErrorCodes : Obligations.ResponseHeaderAndErrorCodes := by
  unfold Obligations.ResponseHeaderAndErrorCodes
  refine ⟨fun op err diag m hm => respHeader_toNat op err diag hm, rfl, fun op e s => ⟨?_, fun k hk => ?_⟩⟩
  · rw [← respHeader_error]
    rfl
  · rw [errored, BitVec.getLsbD_or, errFlag_getLsbD e hk]

/-! ## Successes -/

/-- Settles O10, by the two ways a command ends: a raised error has a non-zero code, and a reply is from work that left the
status and the responses alone. -/
theorem successKeepsTheErrorState : Obligations.SuccessKeepsTheErrorState := by
  unfold Obligations.SuccessKeepsTheErrorState
  intro i s
  rcases exec_next i s with ⟨e, herror⟩ | ⟨w, hw, hlen, hreply⟩
  · refine ⟨_, _, herror, raiseError_rsp _ e s, respHeader_bit16 _ _ _ _, ?_, fun hok => ?_⟩
    · rw [respHeader_count]
      rfl
    · rw [responseErr, respHeader_err] at hok
      exact absurd hok (errNumber_ne_zero e)
  · have hkeep := commandWork_keepsOuter i s w hw
    have hrsp := hkeep.rsp ▸ reply_rsp (opcodeByte i.opcode) w
    have hcount : w.payload.length < 2 ^ 16 := by unfold maxRspWords at hlen; omega
    refine ⟨_, _, hreply, hrsp, respHeader_bit16 _ _ _ _, ?_,
      fun _ => ⟨hkeep.statusErr, hkeep.lastErr, ?_⟩⟩
    · rw [respHeader_count, BitVec.toNat_ofNat, Nat.mod_eq_of_lt hcount]
    · rw [reply_statusDiag, hkeep.statusDiag, responseDiag, respHeader_diag]

end Sys2Proof.Proofs
end

section
/-! PROOFS. The pseudo-instruction SPEC_NEC (R87): its commands run one after another, each rewriting the staging spec. -/

namespace Sys2Proof.Proofs
open Sys2Proof.Machine

/-- The state after SPEC_* commands of these opcodes that succeeded: the staging spec they left, and a bare header from each. -/
def configured (p : Spec) (os : List Opcode) (s : State) : State :=
  { s with spec := p, rsp := s.rsp ++ os.map fun o => { head := respHeader (opcodeByte o) 0 0 0, tail := [] } }

/-- A SPEC_* command that succeeds turns one such state into the next. -/
theorem exec_configured {i : Instr} {p q : Spec} {os : List Opcode} {s : State}
    (h : commandWork i (configured p os s) = .ok (silent (withSpec (configured p os s) q))) :
    exec i (configured p os s) = .next (configured q (os ++ [i.opcode]) s) := by
  rw [exec_eq_finish, h, finish_ok _ _ _ (Nat.zero_le _)]
  simp [reply, configured, withSpec, silent]

theorem runCommands_cons {i : Instr} {s t : State} (is : List Instr) (h : exec i s = .next t) :
    runCommands (i :: is) s = runCommands is t := by
  simp [runCommands, h]

/-- Tokens within `MAX_TOKENS` pass the checks of R121. -/
theorem shapeTokens_map_tokenField {c : Config} {ts : List Token} (h : fits c.maxTokens ts.length = true) :
    shapeTokens c (ts.map tokenField) = .ok ts := by
  simp [shapeTokens, checkTokens, h, Except.bind]

theorem tokenField_timesT (k : Nat) : tokenField (timesT k) = multToken k := rfl

/-- The lists of SPEC_LEADER, SPEC_BIT1 and SPEC_BIT0 in SPEC_NEC. -/
theorem shapeTokens_multToken_pair {c : Config} (h : fits c.maxTokens 2 = true) (j k : Nat) :
    shapeTokens c [multToken j, multToken k] = .ok [timesT j, timesT k] := by
  rw [← tokenField_timesT, ← tokenField_timesT]
  exact shapeTokens_map_tokenField (ts := [timesT j, timesT k]) h

section
variable (p : Spec) (os : List Opcode) (s : State)

theorem exec_specClear_configured :
    exec .specClear (configured p os s) = .next (configured emptySpec (os ++ [.specClear]) s) :=
  exec_configured rfl

theorem exec_specT_configured (v : UQ) :
    exec (.specT v) (configured p os s) = .next (configured { p with t := v } (os ++ [.specT]) s) :=
  exec_configured rfl

theorem exec_specFrame_configured (v : UQ) :
    exec (.specFrame v) (configured p os s) = .next (configured { p with frame := v } (os ++ [.specFrame]) s) :=
  exec_configured rfl

theorem exec_specStop_configured (k : Nat) :
    exec (.specStop (some (multToken k))) (configured p os s)
      = .next (configured { p with stop := some (timesT k) } (os ++ [.specStop]) s) :=
  exec_configured rfl

variable {s} (h : fits s.cfg.maxTokens 2 = true) (j k : Nat)
include h

theorem exec_specLeader_configured :
    exec (.specLeader [multToken j, multToken k]) (configured p os s)
      = .next (configured { p with leader := [timesT j, timesT k] } (os ++ [.specLeader]) s) :=
  exec_configured (congrArg (Except.map _) (shapeTokens_multToken_pair h j k))

theorem exec_specBit1_configured :
    exec (.specBit1 [multToken j, multToken k]) (configured p os s)
      = .next (configured { p with bit1 := [timesT j, timesT k] } (os ++ [.specBit1]) s) :=
  exec_configured (congrArg (Except.map _) (shapeTokens_multToken_pair h j k))

theorem exec_specBit0_configured :
    exec (.specBit0 [multToken j, multToken k]) (configured p os s)
      = .next (configured { p with bit0 := [timesT j, timesT k] } (os ++ [.specBit0]) s) :=
  exec_configured (congrArg (Except.map _) (shapeTokens_multToken_pair h j k))

end

/-- Settles O30, one command after another from the state as it was. -/
theorem specNecLeavesTheNecSpec : Obligations.SpecNecLeavesTheNecSpec := by
  unfold Obligations.SpecNecLeavesTheNecSpec
  intro s h
  have hstart : s = configured s.spec [] s := by simp [configured]
  have hrun : runCommands specNecCommands (configured s.spec [] s)
      = .next (configured necSpec [.specClear, .specT, .specLeader, .specBit1, .specBit0, .specStop, .specFrame] s) := by
    rw [specNecCommands, runCommands_cons _ (exec_specClear_configured _ _ _),
      runCommands_cons _ (exec_specT_configured _ _ _ _), runCommands_cons _ (exec_specLeader_configured _ _ h _ _),
      runCommands_cons _ (exec_specBit1_configured _ _ h _ _), runCommands_cons _ (exec_specBit0_configured _ _ h _ _),
      runCommands_cons _ (exec_specStop_configured _ _ _ _), runCommands_cons _ (exec_specFrame_configured _ _ _ _)]
    rfl
  rw [← hstart] at hrun
  exact ⟨_, hrun, rfl⟩

end Sys2Proof.Proofs
end

section
/-! PROOFS. The two ways a command ends that leaves the state as it was, in the words of the statements. -/

namespace Sys2Proof.Proofs
open Sys2Proof.Machine

theorem exec_of_emit {i : Instr} {s : State} {d : BitVec 3} {ws : List Word} (h : commandWork i s = .ok (emit s d ws))
    (hlen : ws.length ≤ maxRspWords) : exec i s = .next (answered (opcodeByte i.opcode) d ws s) := by
  rw [exec_eq_finish, h, finish_ok _ _ _ hlen, answered_emit]

theorem exec_of_error {i : Instr} {s : State} {e : ErrCode} (h : commandWork i s = .error e) :
    exec i s = .next (errored (opcodeByte i.opcode) e s) := by
  rw [exec_eq_finish, h]
  rfl

end Sys2Proof.Proofs
end

section
/-! PROOFS. The Bit-Grouping Utility (R100 to R108): bit lists as groups, groups as words, and the answers of its commands. -/

namespace Sys2Proof.Proofs
open Sys2Proof.Machine

/-! ## Bit lists as numbers -/

theorem bitsToNat_cons (b : Bool) (bits : List Bool) :
    bitsToNat (b :: bits) = b.toNat * 2 ^ bits.length + bitsToNat bits := by
  induction bits using List.reverseRecOn with
  | nil => simp [bitsToNat]
  | append_singleton bits c ih =>
    rw [← List.cons_append, bitsToNat_append_single, bitsToNat_append_single, ih, List.length_append, List.length_singleton]
    ring

theorem groupSum_cons (b : Bool) (bits : List Bool) :
    groupSum (b :: bits) = b.toNat * 2 ^ bits.length + groupSum bits := by
  simp [groupSum, List.zipIdx_succ, Function.comp_def, Nat.sub_sub, Nat.add_comm 1]

/-- The sum of R103 is the number whose binary digits are the bits, the first the most significant. -/
theorem groupSum_eq_bitsToNat (bits : List Bool) : groupSum bits = bitsToNat bits := by
  induction bits with
  | nil => rfl
  | cons b bits ih => rw [groupSum_cons, bitsToNat_cons, ih]

/-! ## Groups as words -/

theorem groupWord_eq_ofNat {w : Nat} (g : BitVec w) : groupWord g = BitVec.ofNat 32 g.toNat :=
  BitVec.eq_of_toNat_eq (by simp [groupWord])

theorem groupOf_toNat (bits : List Bool) : (groupOf bits.length bits).toNat = bitsToNat bits := by
  rw [groupOf, BitVec.toNat_ofNat, Nat.mod_eq_of_lt (bitsToNat_lt bits)]

theorem groupWord_groupOf {w : Nat} {bits : List Bool} (h : bits.length = w) :
    groupWord (groupOf w bits) = BitVec.ofNat 32 (groupSum bits) := by
  subst h
  rw [groupWord_eq_ofNat, groupOf_toNat, groupSum_eq_bitsToNat]

theorem groupWord_getLsbD {w : Nat} (hw : w ≤ 32) (g : BitVec w) (k : Nat) : (groupWord g).getLsbD k = g.getLsbD k := by
  rw [groupWord, BitVec.getLsbD_setWidth]
  by_cases hk : k < 32
  · simp [hk]
  · simp [hk, BitVec.getLsbD_of_ge g k (by omega)]

/-! ## BIT_FROM (R101) -/

theorem bitFrom_eq_true_iff (v : BitLike) : bitFrom v = true ↔ v = .bool true ∨ v = .int 1 ∨ v = .char 0x31 := by
  cases v <;> simp [bitFrom, charOne]

theorem exec_bitFrom (v : BitLike) (s : State) :
    exec (.bitFrom v) s = .next (answered 0x10 0 [bitWord (bitFrom v)] s) :=
  exec_of_emit rfl (by simp [maxRspWords])

/-- Settles O17, by what `bitFrom` takes for 1. -/
theorem bitFromNormalises : Obligations.BitFromNormalises := by
  unfold Obligations.BitFromNormalises
  intro v s
  rw [exec_bitFrom, ← bitFrom_eq_true_iff]
  constructor
  · intro hone
    rw [hone]
    rfl
  · intro hzero
    rw [Bool.eq_false_of_not_eq_true hzero]
    rfl

/-! ## G4_FROM and G8_FROM of an integer or an array (R103, R104) -/

theorem groupWord_groupFromInt (w : Nat) (v : Word) :
    groupWord (groupFromInt w v) = BitVec.ofNat 32 (v.toNat % 2 ^ w) := by
  rw [groupWord_eq_ofNat, groupFromInt, BitVec.toNat_setWidth]

theorem groupFromArray_of_length {w : Nat} {elems : List BitLike} (h : elems.length = w) :
    groupFromArray w elems = .ok (groupOf w (elems.map bitFrom)) := if_pos h

theorem groupFromArray_of_length_ne {w : Nat} {elems : List BitLike} (h : elems.length ≠ w) :
    groupFromArray w elems = .error .malformedInput := if_neg h

theorem exec_of_groupReply {i : Instr} {s : State} {w : Nat} {g : BitVec w} (h : commandWork i s = .ok (groupReply s g)) :
    exec i s = .next (answered (opcodeByte i.opcode) 0 [groupWord g] s) :=
  exec_of_emit h (by simp [maxRspWords])

section
variable {i : Instr} {s : State} {w : Nat} {x : Except ErrCode (BitVec w)} (h : commandWork i s = x.map (groupReply s))
include h

/-- A group command whose source `x` gives a group answers its word. -/
theorem exec_of_groupSource {g : BitVec w} (hx : x = .ok g) :
    exec i s = .next (answered (opcodeByte i.opcode) 0 [groupWord g] s) :=
  exec_of_groupReply (by rw [h, hx]; rfl)

theorem exec_of_digitsSource {bits : List Bool} (hx : x = .ok (groupOf w bits)) (hlen : bits.length = w) :
    exec i s = .next (answered (opcodeByte i.opcode) 0 [BitVec.ofNat 32 (groupSum bits)] s) := by
  rw [← groupWord_groupOf hlen]
  exact exec_of_groupSource h hx

theorem exec_of_malformedSource (hx : x = .error .malformedInput) :
    exec i s = .next (errored (opcodeByte i.opcode) .malformedInput s) :=
  exec_of_error (by rw [h, hx]; rfl)

end

/-- Settles O18: an integer is cut to its low bits, and an array of the group's width is the digits of the group. -/
theorem groupFromIntegerOrArray : Obligations.GroupFromIntegerOrArray := by
  unfold Obligations.GroupFromIntegerOrArray
  intro v elems s
  refine ⟨?_, ?_, fun h => ?_, fun h => ?_, fun h => ?_, fun h => ?_⟩
  · exact groupWord_groupFromInt 4 v ▸ exec_of_groupReply rfl
  · exact groupWord_groupFromInt 8 v ▸ exec_of_groupReply rfl
  · exact exec_of_digitsSource rfl (groupFromArray_of_length h) (by simpa using h)
  · exact exec_of_malformedSource rfl (groupFromArray_of_length_ne h)
  · exact exec_of_digitsSource rfl (groupFromArray_of_length h) (by simpa using h)
  · exact exec_of_malformedSource rfl (groupFromArray_of_length_ne h)

/-! ## G4_FROM and G8_FROM of a string (R102 to R104) -/

/-- The character of a bit in a binary string (R102). -/
def binaryChar (b : Bool) : Byte := if b then 0x31 else 0x30

theorem binaryString_map_binaryChar (bits : List Bool) : binaryString (bits.map binaryChar) = .ok bits := by
  induction bits with
  | nil => rfl
  | cons b bits ih => cases b <;> simp [binaryString, binaryChar, charZero, charOne, ih, Except.map]

theorem binaryString_of_mem {chars : List Byte} {c : Byte} (hc : c ∈ chars) (h0 : c ≠ 0x30) (h1 : c ≠ 0x31) :
    binaryString chars = .error .malformedInput := by
  induction chars with
  | nil => cases hc
  | cons x xs ih =>
    unfold binaryString
    split
    next hx =>
      have hxs : c ∈ xs := by
        rcases List.mem_cons.1 hc with rfl | hxs
        · exact absurd hx (not_or.2 ⟨h0, h1⟩)
        · exact hxs
      rw [ih hxs]
      rfl
    · rfl

theorem groupFromBinary_map_binaryChar {w : Nat} {bits : List Bool} (h : bits.length = w) :
    groupFromBinary w (bits.map binaryChar) = .ok (groupOf w bits) := by
  rw [groupFromBinary, List.length_map, if_pos h, binaryString_map_binaryChar]
  rfl

theorem groupFromBinary_malformed {w : Nat} {chars : List Byte}
    (h : chars.length ≠ w ∨ ∃ c ∈ chars, c ≠ 0x30 ∧ c ≠ 0x31) : groupFromBinary w chars = .error .malformedInput := by
  unfold groupFromBinary
  split
  next hlen =>
    obtain ⟨c, hc, h0, h1⟩ := h.resolve_left (not_not_intro hlen)
    rw [binaryString_of_mem hc h0 h1]
    rfl
  · rfl

theorem group8FromString_of_length_ne_one {chars : List Byte} (h : chars.length ≠ 1) :
    group8FromString chars = groupFromBinary 8 chars := by
  unfold group8FromString
  split
  · exact absurd rfl h
  · rfl

/-- Settles O19: a binary string is the digits of its group, and one wrong character or a wrong length decides. -/
theorem groupFromString : Obligations.GroupFromString := by
  unfold Obligations.GroupFromString
  refine ⟨fun bits s => ⟨fun h => ?_, fun h => ?_⟩, fun c s => ?_, fun chars s => ⟨fun h => ?_, fun hone h => ?_⟩⟩
  · exact exec_of_digitsSource rfl (groupFromBinary_map_binaryChar h) h
  · have hne : (bits.map binaryChar).length ≠ 1 := by simp [h]
    have hgroup := (group8FromString_of_length_ne_one hne).trans (groupFromBinary_map_binaryChar h)
    exact exec_of_digitsSource rfl hgroup h
  · rw [← groupWord_eq_ofNat]
    exact exec_of_groupReply (i := .g8FromStr [c]) rfl
  · exact exec_of_malformedSource rfl (groupFromBinary_malformed h)
  · exact exec_of_malformedSource rfl ((group8FromString_of_length_ne_one hone).trans (groupFromBinary_malformed h))

/-! ## TO_BITS (R105) -/

/-- A non-empty list of at most 32 bits is packed into one word (R73). -/
theorem packBits_eq_singleton {bits : List Bool} (hpos : 0 < bits.length) (hle : bits.length ≤ 32) :
    packBits bits = [packedWord bits 0] := by
  have hone : packedWords bits.length = 1 := by unfold packedWords; omega
  rw [packBits, hone]
  rfl

theorem bitListPayload_bitsOf {w : Nat} (hpos : 0 < w) (hle : w ≤ 32) (g : BitVec w) :
    bitListPayload (bitsOf g) = [BitVec.ofNat 32 w, packedWord (bitsOf g) 0] := by
  have hlen := bitsOf_length g
  rw [bitListPayload, packBits_eq_singleton (by omega) (by omega), hlen, emitNat_of_lt (by omega)]

theorem packedWord_bitsOf_getLsbD {w : Nat} (g : BitVec w) {k : Nat} (hk : k < 32) :
    (packedWord (bitsOf g) 0).getLsbD (31 - k) = (decide (k < w) && g.getLsbD (w - 1 - k)) := by
  have hword := packedWord_getMsbD (bitsOf g) 0 k hk
  rw [BitVec.getMsbD_eq_getLsbD] at hword
  by_cases hw : k < w
  · rw [Nat.mul_zero, Nat.zero_add, bitsOf_getD g k hw, BitVec.getMsbD_eq_getLsbD] at hword
    simpa [hk] using hword
  · simpa [hk, hw, bitsOf_length] using hword

theorem exec_of_bitListPayload {i : Instr} {s : State} {w : Nat} {g : BitVec w}
    (h : commandWork i s = .ok (emit s 0 (bitListPayload (bitsOf g)))) (hpos : 0 < w) (hle : w ≤ 32) :
    exec i s = .next (answered (opcodeByte i.opcode) 0 [BitVec.ofNat 32 w, packedWord (bitsOf g) 0] s) := by
  rw [bitListPayload_bitsOf hpos hle] at h
  exact exec_of_emit h (by simp [maxRspWords])

theorem exec_toBits4 (g : BitVec 4) (s : State) :
    exec (.toBits4 g) s = .next (answered 0x13 0 [4, packedWord (bitsOf g) 0] s) :=
  exec_of_bitListPayload rfl (by decide) (by decide)

theorem exec_toBits8 (g : BitVec 8) (s : State) :
    exec (.toBits8 g) s = .next (answered 0x13 0 [8, packedWord (bitsOf g) 0] s) :=
  exec_of_bitListPayload rfl (by decide) (by decide)

/-- Settles O20: the packed word of the group's bit list. -/
theorem toBitsExpands : Obligations.ToBitsExpands := by
  unfold Obligations.ToBitsExpands
  exact ⟨fun g s => ⟨_, exec_toBits4 g s, fun _ => packedWord_bitsOf_getLsbD g⟩,
    fun g s => ⟨_, exec_toBits8 g s, fun _ => packedWord_bitsOf_getLsbD g⟩⟩

theorem map_bitFrom_map_bool (bits : List Bool) : (bits.map BitLike.bool).map bitFrom = bits := by
  simp [Function.comp_def, bitFrom]

/-- An array of bits of the group's width gives the group with these bits. -/
theorem groupFromArray_map_bool {w : Nat} {bits : List Bool} (h : bits.length = w) :
    groupFromArray w (bits.map .bool) = .ok (groupOf w bits) := by
  rw [groupFromArray_of_length (by simpa using h), map_bitFrom_map_bool]

/-- The packed word of a group built from bits carries these bits. -/
theorem carriesBits_packedWord_groupOf {w : Nat} {bits : List Bool} (hlen : bits.length = w) (hpos : 0 < w)
    (hle : w ≤ 32) : carriesBits [packedWord (bitsOf (groupOf w bits)) 0] bits := by
  rw [bitsOf_groupOf bits hlen, carriesBits_iff]
  exact packBits_eq_singleton (by omega) (by omega)

/-- Settles O23: the group of a bit list has this list for its bits. -/
theorem toBitsUndoesGroupFrom : Obligations.ToBitsUndoesGroupFrom := by
  unfold Obligations.ToBitsUndoesGroupFrom
  refine fun bits s => ⟨fun h => ⟨groupOf 4 bits, _, ?_, exec_toBits4 _ s, ?_⟩,
    fun h => ⟨groupOf 8 bits, _, ?_, exec_toBits8 _ s, ?_⟩⟩
  · exact exec_of_groupSource rfl (groupFromArray_map_bool h)
  · exact carriesBits_packedWord_groupOf h (by decide) (by decide)
  · exact exec_of_groupSource rfl (groupFromArray_map_bool h)
  · exact carriesBits_packedWord_groupOf h (by decide) (by decide)

/-! ## REVERSE and FLIP (R106, R107) -/

theorem reverseGroup_getLsbD {w : Nat} (g : BitVec w) {k : Nat} (hk : k < w) :
    (reverseGroup g).getLsbD k = g.getLsbD (w - 1 - k) := by
  have hlen := bitsOf_length g
  have hmirror : w - 1 - (w - 1 - k) = k := by omega
  have hin : w - 1 - k < (bitsOf g).length := by omega
  rw [reverseGroup, groupOf_getLsbD _ (by simpa using hlen) k hk, List.getD_eq_getElem?_getD, List.getElem?_reverse hin,
    ← List.getD_eq_getElem?_getD, hlen, hmirror, bitsOf_getD g k hk, BitVec.getMsbD_eq_getLsbD, decide_eq_true hk,
    Bool.true_and]

theorem groupWord_reverseGroup_getLsbD {w : Nat} (hw : w ≤ 32) (g : BitVec w) (k : Nat) :
    (groupWord (reverseGroup g)).getLsbD k = (decide (k < w) && g.getLsbD (w - 1 - k)) := by
  rw [groupWord_getLsbD hw]
  by_cases hk : k < w
  · rw [reverseGroup_getLsbD g hk, decide_eq_true hk, Bool.true_and]
  · rw [BitVec.getLsbD_of_ge _ k (Nat.le_of_not_lt hk), decide_eq_false hk, Bool.false_and]

theorem groupWord_flipGroup {w : Nat} (g : BitVec w) :
    groupWord (flipGroup g) = BitVec.ofNat 32 (2 ^ w - 1 - g.toNat) := by
  rw [groupWord_eq_ofNat, flipGroup, BitVec.toNat_not]

/-- Settles O21: mirroring on the bits, complementing on the numbers. -/
theorem reverseAndFlip : Obligations.ReverseAndFlip := by
  unfold Obligations.ReverseAndFlip
  refine ⟨fun g s => ⟨?_, _, exec_of_groupReply rfl, fun k _ => ?_⟩, fun g s => ⟨?_, _, exec_of_groupReply rfl, fun k _ => ?_⟩⟩
  · exact groupWord_flipGroup g ▸ exec_of_groupReply rfl
  · exact groupWord_reverseGroup_getLsbD (by decide) g k
  · exact groupWord_flipGroup g ▸ exec_of_groupReply rfl
  · exact groupWord_reverseGroup_getLsbD (by decide) g k

/-! ## PACK (R108) -/

theorem padBits_getD (w : Nat) (bits : List Bool) (k : Nat) : (padBits w bits).getD k false = bits.getD k false := by
  unfold padBits
  split
  · rfl
  · by_cases hk : k < bits.length
    · rw [List.getD_append _ _ _ _ hk]
    · have hge := Nat.le_of_not_lt hk
      rw [List.getD_append_right _ _ _ _ hge, List.getD_eq_default _ _ hge]
      rw [List.getD_eq_getElem?_getD, List.getElem?_replicate]
      split <;> rfl

/-- Padding fills the last group: the groups are `ceil(n / w)`. -/
theorem padBits_length_div {w : Nat} (hw : 0 < w) (bits : List Bool) :
    (padBits w bits).length / w = (bits.length + (w - 1)) / w := by
  have hsplit := Nat.div_add_mod bits.length w
  have hrest := Nat.mod_lt bits.length hw
  unfold padBits
  generalize bits.length / w = q at hsplit
  split
  next h0 =>
    rw [← hsplit, h0, Nat.add_zero, Nat.mul_add_div hw, Nat.mul_div_right _ hw, Nat.div_eq_of_lt (Nat.sub_lt hw Nat.one_pos),
      Nat.add_zero]
  next hne =>
    have hfull : (bits ++ List.replicate (w - bits.length % w) false).length = w * (q + 1) := by
      rw [List.length_append, List.length_replicate, Nat.mul_add, Nat.mul_one]
      omega
    have hceil : bits.length + (w - 1) = w * (q + 1) + (bits.length % w - 1) := by
      rw [Nat.mul_add, Nat.mul_one]
      omega
    rw [hfull, hceil, Nat.mul_add_div hw, Nat.mul_div_right _ hw, Nat.div_eq_of_lt (by omega), Nat.add_zero]

theorem groupWord_groupAt_padBits (w : Nat) (bits : List Bool) (j : Nat) :
    groupWord (groupAt w (padBits w bits) j)
      = BitVec.ofNat 32 (groupSum ((List.range w).map fun k => bits.getD (w * j + k) false)) := by
  rw [groupAt, groupWord_groupOf (by simp)]
  simp only [padBits_getD, Nat.mul_comm w j]

theorem packGroups_words {w : Nat} (hw : 0 < w) (bits : List Bool) :
    (packGroups w bits).map groupWord
      = (List.range ((bits.length + (w - 1)) / w)).map fun j =>
          BitVec.ofNat 32 (groupSum ((List.range w).map fun k => bits.getD (w * j + k) false)) := by
  rw [packGroups, padBits_length_div hw, List.map_map]
  exact List.map_congr_left fun j _ => groupWord_groupAt_padBits w bits j

theorem packGroups_length_le {w : Nat} (hw : 0 < w) (bits : List Bool) (h : bits.length < 65536) :
    ((packGroups w bits).map groupWord).length ≤ maxRspWords := by
  rw [packGroups_words hw, List.length_map, List.length_range]
  have hlt : (bits.length + (w - 1)) / w < 65536 := (Nat.div_lt_iff_lt_mul hw).2 (by omega)
  exact Nat.le_of_lt_succ hlt

/-- Settles O22: padding changes no bit of the list and completes its last group. -/
theorem packBuildsGroups : Obligations.PackBuildsGroups := by
  unfold Obligations.PackBuildsGroups
  intro bits s h
  constructor
  · rw [← packGroups_words (w := 4) (by decide)]
    exact exec_of_emit (i := .pack4 bits) rfl (packGroups_length_le (by decide) bits h)
  · rw [← packGroups_words (w := 8) (by decide)]
    exact exec_of_emit (i := .pack8 bits) rfl (packGroups_length_le (by decide) bits h)

end Sys2Proof.Proofs
end

section
/-! PROOFS. The BGU and DEC commands read no state (R100, R181): their work goes over to any state with the same parameters. -/

namespace Sys2Proof.Proofs
open Sys2Proof.Machine

/-- The same diagnostics and payload, in another state. -/
def movedTo (u : State) (w : Work) : Work := { w with state := u }

theorem commandWork_movedTo {i : Instr} {s u : State} (hpure : isPureCommand i.opcode = true) (hstatus : i.opcode ≠ .rdStatus)
    (hhist : i.opcode ≠ .rdHist) (hticks : i.opcode ≠ .toTicks) (hwire : i.opcode ≠ .toWire) (hcfg : s.cfg = u.cfg) :
    commandWork i u = (commandWork i s).map (movedTo u) := by
  cases i with
  | bitFrom | g4FromInt | g8FromInt | toBits4 | toBits8 | reverse4 | reverse8 | flip4 | flip8 | pack4 | pack8 => rfl
  | g4FromStr | g4FromArr | g8FromStr | g8FromArr => exact map_eq_map_map fun _ => rfl
  | classify ticks =>
    rw [commandWork, commandWork, classifyWork, classifyWork, hcfg]
    exact bind_eq_map_bind fun _ => map_eq_map_map fun _ => rfl
  | decode ticks =>
    rw [commandWork, commandWork, decodeWork, decodeWork, hcfg]
    exact bind_eq_map_bind fun _ => map_eq_map_map fun _ => rfl
  | rdStatus => exact absurd rfl hstatus
  | rdHist => exact absurd rfl hhist
  | toTicks => exact absurd rfl hticks
  | toWire => exact absurd rfl hwire
  | obsCtrl | specClear | specT | specFrame | specStop | specLeader | specBit1 | specBit0 | specRpt | begin | appendTime
  | appendBit | appendBits | appendG4 | appendG8 | terminate | beginRepeat | appendRepeats =>
    cases hpure

/-- Settles O58: the two states do the same work, so they raise the same error or reply with the same words. -/
theorem bguAndDecoderReadNoState : Obligations.BguAndDecoderReadNoState := by
  unfold Obligations.BguAndDecoderReadNoState
  intro i s u hpure hstatus hhist hticks hwire hcfg
  have hmoved := commandWork_movedTo hpure hstatus hhist hticks hwire hcfg
  rw [exec_eq_finish, exec_eq_finish, hmoved]
  cases hw : commandWork i s with
  | error e => exact ⟨_, _, _, rfl, rfl, rfl, rfl⟩
  | ok w =>
    have hstate := commandWork_state_of_isPureCommand hpure hw
    by_cases hlen : w.payload.length ≤ maxRspWords
    · refine ⟨_, _, _, finish_ok _ _ _ hlen, finish_ok _ _ (movedTo u w) hlen, ?_, rfl⟩
      rw [reply_rsp, hstate]
      rfl
    · have hlong := Nat.lt_of_not_le hlen
      exact ⟨_, _, _, finish_too_long _ _ _ hlong, finish_too_long _ _ (movedTo u w) hlong, rfl, rfl⟩

end Sys2Proof.Proofs
end

section
/-! PROOFS. The encoder configuration commands (R120 to R130): a failed check of the tokens is the error of the command, and a
command that passes its checks answers without payload from the state it wrote. -/

namespace Sys2Proof.Proofs
open Sys2Proof.Machine

theorem exec_of_silent {i : Instr} {s t : State} (h : commandWork i s = .ok (silent t)) :
    exec i s = .next (answered (opcodeByte i.opcode) 0 [] t) := by
  rw [exec_eq_finish, h, finish_ok _ _ _ (Nat.zero_le _)]
  rfl

/-- Settles O15. -/
theorem obsCtrlWritesTheEnable : Obligations.ObsCtrlWritesTheEnable := by
  unfold Obligations.ObsCtrlWritesTheEnable
  exact fun en s => exec_of_silent (i := .obsCtrl en) rfl

/-- Settles O25: only SPEC_STOP has an operand to check, its token word. -/
theorem specFieldsAndStop : Obligations.SpecFieldsAndStop := by
  unfold Obligations.SpecFieldsAndStop
  intro v t f s
  refine ⟨exec_of_silent (i := .specClear) rfl, exec_of_silent (i := .specT v) rfl, exec_of_silent (i := .specFrame v) rfl,
    exec_of_silent (i := .specStop none) rfl, ?_, fun hbad => ?_⟩
  · exact exec_of_silent (i := .specStop (some (tokenField t))) (congrArg (Except.map _) (parseOptToken_some_tokenField t))
  · have hparse : parseOptToken (some f) = .error .malformedInput :=
      congrArg (Except.map some) (parseToken_of_malformed hbad)
    exact exec_of_error (i := .specStop (some f)) (congrArg (Except.map _) hparse)

/-! ## Token lists (R121, R81) -/

theorem shapeTokens_of_not_fits {c : Config} {ts : List Token} (h : fits c.maxTokens ts.length = false) :
    shapeTokens c (ts.map tokenField) = .error .capacity := by
  simp [shapeTokens, checkTokens, h, Except.bind]

theorem shapeTokens_of_malformed {fs : List TokenField} (c : Config) (h : fs.any malformedToken = true) :
    shapeTokens c fs = .error .malformedInput :=
  congrArg (Except.bind · (checkTokens c)) (parseTokens_of_malformed h)

section
variable {s : State} {toks : List TokenField}

theorem exec_shape_of_tokens {ts : List Token} (h : shapeTokens s.cfg toks = .ok ts) :
    exec (.specLeader toks) s = .next (answered 0x24 0 [] { s with spec := { s.spec with leader := ts } })
      ∧ exec (.specBit1 toks) s = .next (answered 0x25 0 [] { s with spec := { s.spec with bit1 := ts } })
      ∧ exec (.specBit0 toks) s = .next (answered 0x26 0 [] { s with spec := { s.spec with bit0 := ts } }) :=
  ⟨exec_of_silent (i := .specLeader toks) (congrArg (Except.map _) h),
    exec_of_silent (i := .specBit1 toks) (congrArg (Except.map _) h),
    exec_of_silent (i := .specBit0 toks) (congrArg (Except.map _) h)⟩

theorem exec_shape_of_tokens_error {e : ErrCode} (h : shapeTokens s.cfg toks = .error e) :
    exec (.specLeader toks) s = .next (errored 0x24 e s) ∧ exec (.specBit1 toks) s = .next (errored 0x25 e s)
      ∧ exec (.specBit0 toks) s = .next (errored 0x26 e s) :=
  ⟨exec_of_error (i := .specLeader toks) (congrArg (Except.map _) h),
    exec_of_error (i := .specBit1 toks) (congrArg (Except.map _) h),
    exec_of_error (i := .specBit0 toks) (congrArg (Except.map _) h)⟩

/-- SPEC_RPT raises what the check of its header raises. -/
theorem exec_specRpt_of_tokens_error {e : ErrCode} (target : UQ) (h : shapeTokens s.cfg toks = .error e) :
    exec (.specRpt toks target) s = .next (errored 0x27 e s) :=
  exec_of_error (i := .specRpt toks target)
    (congrArg (Except.bind · fun ts => addRepeat s { header := ts, target := target }) h)

/-- After the check of its header SPEC_RPT does what `addRepeat` does. -/
theorem commandWork_specRpt_of_tokens {ts : List Token} (target : UQ) (h : shapeTokens s.cfg toks = .ok ts) :
    commandWork (.specRpt toks target) s = addRepeat s { header := ts, target := target } :=
  congrArg (Except.bind · fun ts => addRepeat s { header := ts, target := target }) h

end

/-- Settles O26, by the outcomes of the check that the three commands share. -/
theorem specShapesReplaceTheirList : Obligations.SpecShapesReplaceTheirList := by
  unfold Obligations.SpecShapesReplaceTheirList
  exact fun ts fs s =>
    ⟨fun hfit => exec_shape_of_tokens (shapeTokens_map_tokenField hfit),
      fun hlong => exec_shape_of_tokens_error (shapeTokens_of_not_fits hlong),
      fun hbad => exec_shape_of_tokens_error (shapeTokens_of_malformed s.cfg hbad)⟩

/-! ## Repeat entries (R129) -/

theorem addRepeat_of_fits {s : State} (e : RepeatEntry) (h : fits s.cfg.maxRpt (s.spec.rpt.length + 1) = true) :
    addRepeat s e = .ok (silent (withSpec s { s.spec with rpt := s.spec.rpt ++ [e] })) := if_pos h

theorem addRepeat_of_not_fits {s : State} (e : RepeatEntry) (h : fits s.cfg.maxRpt (s.spec.rpt.length + 1) = false) :
    addRepeat s e = .error .capacity := if_neg (ne_true_of_eq_false h)

/-- Settles O27: the header is checked first, then the room in `SPEC.RPT`; both bounds raise the same error. -/
theorem specRptAppendsOneEntry : Obligations.SpecRptAppendsOneEntry := by
  unfold Obligations.SpecRptAppendsOneEntry
  intro ts fs target s
  refine ⟨fun hfit hroom => ?_, fun hfull => ?_, fun hbad => ?_⟩
  · have hwork := commandWork_specRpt_of_tokens target (shapeTokens_map_tokenField hfit)
    exact exec_of_silent (hwork.trans (addRepeat_of_fits _ hroom))
  · cases hfit : fits s.cfg.maxTokens ts.length with
    | false => exact exec_specRpt_of_tokens_error target (shapeTokens_of_not_fits hfit)
    | true =>
      have hroom := hfull.resolve_left (by simp [hfit])
      have hwork := commandWork_specRpt_of_tokens target (shapeTokens_map_tokenField hfit)
      exact exec_of_error (hwork.trans (addRepeat_of_not_fits _ hroom))
  · exact exec_specRpt_of_tokens_error target (shapeTokens_of_malformed s.cfg hbad)

/-! ## The frame of the SPEC_* commands (R120) -/

/-- A SPEC_* command that raises nothing has written `SPEC`, without diagnostic or payload. -/
theorem commandWork_of_isSpecCommand {i : Instr} {s : State} {w : Work} (hspec : isSpecCommand i.opcode = true)
    (h : commandWork i s = .ok w) : ∃ p, w = silent (withSpec s p) := by
  cases i with
  | specClear | specT | specFrame => cases h; exact ⟨_, rfl⟩
  | specStop | specLeader | specBit1 | specBit0 =>
    obtain ⟨ts, -, rfl⟩ := ok_of_map_eq_ok h
    exact ⟨_, rfl⟩
  | specRpt =>
    obtain ⟨ts, -, hadd⟩ := ok_of_bind_eq_ok h
    obtain ⟨-, rfl⟩ := addRepeat_ok hadd
    exact ⟨_, rfl⟩
  | rdStatus | obsCtrl | rdHist | bitFrom | g4FromInt | g4FromStr | g4FromArr | g8FromInt | g8FromStr | g8FromArr | toBits4
  | toBits8 | reverse4 | reverse8 | flip4 | flip8 | pack4 | pack8 | begin | appendTime | appendBit | appendBits | appendG4
  | appendG8 | terminate | beginRepeat | appendRepeats | toTicks | toWire | classify | decode =>
    cases hspec

theorem responseDiag_respHeader (op : Byte) (err : BitVec 4) (diag : BitVec 3) (m : Nat) (payload : List Word) :
    responseDiag ⟨respHeader op err diag m, payload⟩ = diag := respHeader_diag op err diag m

/-- Settles O28, by the two ways a command ends: an error entry from the state before, or a bare reply that records no
diagnostic. -/
theorem specCommandsWriteSpecOnly : Obligations.SpecCommandsWriteSpecOnly := by
  unfold Obligations.SpecCommandsWriteSpecOnly
  intro i s hspec
  rcases exec_next i s with ⟨e, herror⟩ | ⟨w, hw, -, hreply⟩
  · exact ⟨_, _, herror, rfl, responseDiag_respHeader _ _ _ _ _, rfl⟩
  · obtain ⟨p, rfl⟩ := commandWork_of_isSpecCommand hspec hw
    refine ⟨_, ⟨respHeader (opcodeByte i.opcode) 0 0 0, []⟩, hreply, rfl, responseDiag_respHeader _ _ _ _ _, ?_⟩
    simp [reply, silent, withSpec]

end Sys2Proof.Proofs
end

section
/-! PROOFS. Frame building (R143, R144, R151, R152, R158): one equation per case of `AppendToken` and of `PadClose`, the
slots that tokens and padding take, and the duration that padding adds. -/

namespace Sys2Proof.Proofs
open Sys2Proof.Machine

/-! ## AppendToken (R144) -/

theorem implied_eq_high_iff (es : List Entry) : implied es = .high ↔ es.length % 2 = 0 := by
  unfold implied
  split
  next h => exact iff_of_true rfl h
  next h => exact iff_of_false nofun h

theorem implied_eq_low_iff (es : List Entry) : implied es = .low ↔ es.length % 2 = 1 := by
  unfold implied
  split
  next h => exact iff_of_false nofun (by omega)
  next h => exact iff_of_true rfl (by omega)

section
variable {t : Rat} {tok : Token} {b : Build}

theorem appendToken_of_dropped (hpol : tok.pol = none) (hzero : entryValue (resolve t tok) = 0) :
    appendToken t b tok = (b.1, b.2 ||| diagZeroDrop) := by
  simp [appendToken, hpol, hzero]

theorem appendToken_of_untagged (hpol : tok.pol = none) (hvalue : entryValue (resolve t tok) ≠ 0) :
    appendToken t b tok = (b.1 ++ [resolve t tok], b.2) := by
  simp [appendToken, hpol, hvalue]

theorem appendToken_of_own_slot (hslot : tok.pol = some (implied b.1)) :
    appendToken t b tok = (b.1 ++ [resolve t tok], b.2) := by
  simp [appendToken, hslot]

theorem appendToken_of_other_slot {p : Level} (hpol : tok.pol = some p) (hslot : implied b.1 ≠ p) :
    appendToken t b tok = (b.1 ++ [filler, resolve t tok], b.2) := by
  simp [appendToken, hpol, hslot]

end

/-- Settles O31, by the cases of `AppendToken`; `Resolve` goes by the kind of the token. -/
theorem appendTokenRule : Obligations.AppendTokenRule := by
  unfold Obligations.AppendTokenRule
  intro t entries d mag kind m v e
  have hentry (pol : Option Level) : resolve t ⟨kind, mag, pol⟩ = e := by cases kind <;> rfl
  have hvalue : entryValue e = v := by cases kind <;> rfl
  refine ⟨fun hzero => ?_, fun hne => ?_, fun heven => ?_, fun hodd => ?_⟩
  · exact appendToken_of_dropped rfl (by rw [hentry, hvalue, hzero])
  · rw [appendToken_of_untagged rfl (by rwa [hentry, hvalue]), hentry]
  · have hnext : implied entries = .high := (implied_eq_high_iff entries).2 heven
    rw [appendToken_of_own_slot (by rw [hnext]), appendToken_of_other_slot rfl (by rw [hnext]; decide), hentry, hentry]
    exact ⟨rfl, rfl⟩
  · have hnext : implied entries = .low := (implied_eq_low_iff entries).2 hodd
    rw [appendToken_of_own_slot (tok := ⟨kind, mag, some .low⟩) (by rw [hnext]),
      appendToken_of_other_slot rfl (by rw [hnext]; decide), hentry, hentry]
    exact ⟨rfl, rfl⟩

/-- A tagged token comes last, behind as many entries as give its slot the parity of its tag (R158). -/
theorem appendToken_tagged (t : Rat) (b : Build) {tok : Token} {p : Level} (hpol : tok.pol = some p) :
    ∃ before, (appendToken t b tok).1 = before ++ [resolve t tok] ∧ before.length % 2 = if p = .high then 0 else 1 := by
  by_cases hslot : implied b.1 = p
  · refine ⟨b.1, by rw [appendToken_of_own_slot (by rw [hpol, hslot])], ?_⟩
    cases p with
    | high => exact (implied_eq_high_iff b.1).1 hslot
    | low => exact (implied_eq_low_iff b.1).1 hslot
  · refine ⟨b.1 ++ [filler], by rw [appendToken_of_other_slot hpol hslot, List.append_assoc]; rfl, ?_⟩
    rw [List.length_append, List.length_singleton]
    cases p with
    | high => rw [implied_eq_high_iff] at hslot; rw [if_pos rfl]; omega
    | low => rw [implied_eq_low_iff] at hslot; rw [if_neg nofun]; omega

/-! ## The pieces of a split (R172) -/

theorem split_full_add_rest (full : Nat) {rest : Nat} (hpos : 1 ≤ rest) (hle : rest ≤ tickMax) :
    split (full * tickMax + rest) = (List.replicate full [tickMax, 0]).flatten ++ [rest] := by
  induction full with
  | zero => rw [Nat.zero_mul, Nat.zero_add, split_of_le hle]; rfl
  | succ full ih =>
    have hlt : tickMax < (full + 1) * tickMax + rest := by rw [Nat.succ_mul]; omega
    have hsub : (full + 1) * tickMax + rest - tickMax = full * tickMax + rest := by rw [Nat.succ_mul]; omega
    rw [split_of_lt hlt, hsub, ih]
    rfl

theorem split_sum (t : Nat) : (split t).sum = t := by
  induction t using Nat.strongRecOn with
  | ind t ih =>
    by_cases ht : t ≤ tickMax
    · rw [split_of_le ht, List.sum_singleton]
    · rw [split_of_lt (Nat.not_le.1 ht), List.sum_cons, List.sum_cons, ih _ (sub_tickMax_lt ht), Nat.zero_add,
        Nat.add_sub_of_le (Nat.le_of_not_le ht)]

/-- The pieces at odd positions are the zeros between the others. -/
theorem split_getElem?_even {t j k : Nat} (h : (split t)[j]? = some k) (hk : k ≠ 0) : j % 2 = 0 := by
  induction t using Nat.strongRecOn generalizing j with
  | ind t ih =>
    by_cases ht : t ≤ tickMax
    · rw [split_of_le ht] at h
      have hj : j < 1 := (List.getElem?_eq_some_iff.1 h).1
      omega
    · rw [split_of_lt (Nat.not_le.1 ht)] at h
      match j with
      | 0 => rfl
      | 1 =>
        rw [List.getElem?_cons_succ, List.getElem?_cons_zero, Option.some_inj] at h
        exact absurd h.symm hk
      | j + 2 =>
        rw [List.getElem?_cons_succ, List.getElem?_cons_succ] at h
        rw [Nat.add_mod_right]
        exact ih _ (sub_tickMax_lt ht) h

/-! ## PadClose (R152) -/

theorem pad_zero (es : List Entry) : pad 0 es = es := rfl

/-- In `padEntries` the coercion of the pieces stands as a bind of lists; here it stands inside the map. -/
theorem padEntries_of_ne_zero {p : Nat} (hp : p ≠ 0) : padEntries p = (split p).map fun k : Nat => .tk (k : Rat) := by
  rw [padEntries, if_neg hp]
  simp [List.map_eq_flatMap, List.flatMap_assoc]

theorem pad_of_ne_zero {p : Nat} (hp : p ≠ 0) (es : List Entry) :
    pad p es = es ++ (if es.length % 2 = 0 then [filler] else []) ++ (split p).map fun k : Nat => .tk (k : Rat) := by
  rw [pad, if_neg hp, padEntries_of_ne_zero hp]
  by_cases heven : es.length % 2 = 0
  · rw [if_pos ((implied_eq_high_iff es).2 heven), if_pos heven, List.append_assoc]
    rfl
  · rw [if_neg (mt (implied_eq_high_iff es).1 heven), if_neg heven, List.append_nil]

section
variable {target : Rat} {b : Build}

theorem padClose_no_target (b : Build) : padClose 0 b = b := if_pos rfl

theorem padClose_of_eq (h : target = dur b.1) : padClose target b = b := by
  simp [padClose, h]

theorem padClose_of_gt (htarget : target ≠ 0) (h : target < dur b.1) :
    padClose target b = (b.1, b.2 ||| diagOverLen) := by
  simp [padClose, htarget, h, h.le]

theorem padClose_of_lt (htarget : target ≠ 0) (h : dur b.1 < target) :
    padClose target b = (pad (rhu (2 * (target - dur b.1))) b.1, b.2) := by
  simp [padClose, htarget, h]

end

/-- Settles O37, by the cases of `PadClose`; the pieces of the gap are those of `split`. -/
theorem padCloseRule : Obligations.PadCloseRule := by
  unfold Obligations.PadCloseRule
  intro target entries d _ total
  have htotal : total = dur entries := congrArg List.sum (List.map_congr_left fun e _ => by cases e <;> rfl)
  rw [htotal]
  refine ⟨fun hzero => ?_, fun _ heq => padClose_of_eq heq, fun hne hgt => padClose_of_gt hne hgt, fun hne hlt hp => ?_,
    fun full rest hpos hle hne hlt hp => ?_⟩
  · rw [hzero, padClose_no_target]
  · rw [padClose_of_lt (b := (entries, d)) hne hlt, hp, pad_zero]
  · rw [← tickMax_eq] at hle hp
    have hgap : full * tickMax + rest ≠ 0 := by omega
    rw [padClose_of_lt (b := (entries, d)) hne hlt, hp, pad_of_ne_zero hgap, split_full_add_rest full hpos hle]
    simp [filler, tickMax_eq, List.map_flatten, List.map_replicate]

/-- The padding that is not 0 lies in space slots: behind a content that ends in a space slot comes a filler (R158). -/
theorem pad_getElem?_odd {p k : Nat} {es : List Entry} {e : Entry} (hk : es.length ≤ k) (h : (pad p es)[k]? = some e)
    (he : entryValue e ≠ 0) : k % 2 = 1 := by
  by_cases hp : p = 0
  · rw [hp, pad_zero, List.getElem?_eq_none hk] at h
    cases h
  · rw [pad_of_ne_zero hp, List.append_assoc, List.getElem?_append_right hk] at h
    have hpiece {j : Nat} (hj : ((split p).map fun n : Nat => Entry.tk (n : Rat))[j]? = some e) : j % 2 = 0 := by
      rw [List.getElem?_map, Option.map_eq_some_iff] at hj
      obtain ⟨n, hn, rfl⟩ := hj
      exact split_getElem?_even hn fun hzero => he (by rw [hzero]; rfl)
    by_cases heven : es.length % 2 = 0
    · rw [if_pos heven, List.singleton_append] at h
      cases hj : k - es.length with
      | zero => rw [hj] at h; cases h; exact absurd rfl he
      | succ j =>
        rw [hj, List.getElem?_cons_succ] at h
        have := hpiece h
        omega
    · rw [if_neg heven, List.nil_append] at h
      have := hpiece h
      omega

/-- Settles O32: tokens and padding only add entries, and their slots are those of `appendToken_tagged` and
`pad_getElem?_odd`. -/
theorem entriesLandInTheirSlots : Obligations.EntriesLandInTheirSlots := by
  unfold Obligations.EntriesLandInTheirSlots
  intro t entries d
  refine ⟨fun toks => appendTokens_prefix_of t toks (entries, d), fun tok p hpol => ?_, fun target => ⟨?_, ?_⟩⟩
  · obtain ⟨before, hentries, hslot⟩ := appendToken_tagged t (entries, d) hpol
    refine ⟨before.length, ?_, ?_, hslot⟩ <;> simp [hentries]
  · exact (padClose_extends target (entries, d)).isPrefix
  · intro k e hk h he
    have hnone : entries[k]? = none := List.getElem?_eq_none hk
    rcases padClose_cases target (entries, d) with hpad | ⟨-, hpad⟩ | hpad <;> rw [hpad] at h
    · rw [hnone] at h; cases h
    · exact pad_getElem?_odd hk h he
    · rw [hnone] at h; cases h

/-! ## Durations (R151) -/

theorem dur_append (es es' : List Entry) : dur (es ++ es') = dur es + dur es' := by
  simp [dur]

theorem dur_ticks (ks : List Nat) : dur (ks.map fun k : Nat => .tk (k : Rat)) = (ks.sum : Rat) / 2 := by
  induction ks with
  | nil => simp [dur]
  | cons k ks ih =>
    rw [List.map_cons, ← List.singleton_append, dur_append, ih, List.sum_cons, Nat.cast_add, add_div]
    simp [dur, entryUs]

/-- Padding of `p` ticks lasts `p` half microseconds. -/
theorem dur_pad (p : Nat) (es : List Entry) : dur (pad p es) = dur es + (p : Rat) / 2 := by
  by_cases hp : p = 0
  · rw [hp, pad_zero]
    simp
  · have hfiller : dur (if es.length % 2 = 0 then [filler] else []) = 0 := by split <;> simp [dur, entryUs, filler]
    rw [pad_of_ne_zero hp, dur_append, dur_append, hfiller, dur_ticks, split_sum, add_zero]

/-- Padding exactness (R154). -/
theorem dur_padClose {target : Rat} {b : Build} (hpos : 0 < target) (h : dur b.1 < target) :
    |target - dur (padClose target b).1| ≤ 1 / 4
      ∧ ((∃ n : Nat, 2 * (target - dur b.1) = n) → dur (padClose target b).1 = target) := by
  rw [padClose_of_lt hpos.ne' h, dur_pad]
  constructor
  · obtain ⟨hlo, hhi⟩ := rhu_bounds (2 * (target - dur b.1)) (by linarith)
    exact abs_le.2 ⟨by linarith, by linarith⟩
  · rintro ⟨n, hn⟩
    rw [hn, rhu_natCast]
    linarith

end Sys2Proof.Proofs
end

section
/-! PROOFS. The session commands BEGIN, APPEND_TIME and TERMINATE, and RD_HIST (R141, R145, R153, R160): the capacity check
on the would-be session, and the missing open frame. -/

namespace Sys2Proof.Proofs
open Sys2Proof.Machine

/-- Settles O16: the history is packed as R73 says, and the count word holds every length within the bound. -/
theorem rdHistReadsTheHistory : Obligations.RdHistReadsTheHistory := by
  unfold Obligations.RdHistReadsTheHistory
  refine ⟨rfl, fun s => ?_⟩
  have hlen : (bitListPayload s.hist).length = 1 + (s.hist.length + 31) / 32 := by
    rw [bitListPayload, List.length_cons, packBits_length, packedWords, Nat.add_comm]
  refine ⟨fun hfits => ⟨packBits s.hist, (carriesBits_iff _ _).2 rfl, ?_⟩, fun hlong => ?_⟩
  · rw [← emitNat_of_lt (by omega)]
    exact exec_of_emit (i := .rdHist) rfl (hlen.trans_le hfits)
  · exact finish_too_long .rdHist s _ (hlong.trans_eq hlen.symm)

/-! ## The capacity check and the open frame (R142, R159) -/

theorem exec_of_checkSession {i : Instr} {s : State} {w : Work} (h : commandWork i s = checkSession w)
    (hpayload : w.payload = []) :
    (sessionFits w.state = true → exec i s = .next (answered (opcodeByte i.opcode) w.diag [] w.state))
      ∧ (sessionFits w.state = false → exec i s = .next (errored (opcodeByte i.opcode) .capacity s)) := by
  refine ⟨fun hfit => ?_, fun hfit => ?_⟩
  · have hcheck : checkSession w = .ok w := if_pos hfit
    rw [exec_eq_finish, h, hcheck, finish_ok _ _ _ (by simp [hpayload]), reply_eq_answered, hpayload]
  · exact exec_of_error (h.trans (if_neg (ne_true_of_eq_false hfit)))

theorem curOpen_of_openFrame {s : State} {f : Frame} (h : openFrame s f) : curOpen s = .ok f := (curOpen_eq_ok s f).2 h

theorem curOpen_of_noOpenFrame {s : State} (h : noOpenFrame s) : curOpen s = .error .frameClosed :=
  (curOpen_eq_error s .frameClosed).2 ⟨rfl, h⟩

/-- Settles O33: of the would-be session only the leader's entries and the one frame can exceed a capacity. -/
theorem beginStartsASession : Obligations.BeginStartsASession := by
  unfold Obligations.BeginStartsASession
  intro s b ok
  have hok : sessionFits (beginSession s).state = ok := by simp [sessionFits, fits_zero, ok, b]
  rw [← hok]
  exact exec_of_checkSession (i := .begin) rfl (beginSession_payload s)

/-! ## APPEND_TIME (R145) -/

theorem commandWork_appendTime {s : State} {fs : List TokenField} {ts : List Token} (hparse : parseTokens fs = .ok ts) :
    commandWork (.appendTime fs) s
      = (curOpen s).bind fun f =>
          checkSession (withCurrent s (appendTokens (uqVal s.aspec.t) ts (f.entries, 0)) false) := by
  simp only [commandWork, appendTimeWork, hparse, Except.bind]

/-- Settles O34: the tokens are parsed before the current frame is looked at, and the capacities come last. -/
theorem appendTimeAppendsTokens : Obligations.AppendTimeAppendsTokens := by
  unfold Obligations.AppendTimeAppendsTokens
  intro ts fs s
  have hwork := commandWork_appendTime (s := s) (parseTokens_map_tokenField ts)
  refine ⟨fun f hopen => ?_, fun hnone => ?_, fun hbad => ?_⟩
  · rw [curOpen_of_openFrame hopen] at hwork
    exact exec_of_checkSession hwork rfl
  · rw [curOpen_of_noOpenFrame hnone] at hwork
    exact exec_of_error hwork
  · refine exec_of_error (i := .appendTime fs) ?_
    simp only [commandWork, appendTimeWork, parseTokens_of_malformed hbad, Except.bind]

/-! ## TERMINATE (R153, R154) -/

theorem commandWork_terminate (s : State) :
    commandWork .terminate s
      = (curOpen s).bind fun f => checkSession (withCurrent s (terminated s.aspec f.entries) true) := rfl

theorem commandWork_terminate_of_openFrame {s : State} {f : Frame} (hopen : openFrame s f) :
    commandWork .terminate s = checkSession (withCurrent s (terminated s.aspec f.entries) true) := by
  rw [commandWork_terminate, curOpen_of_openFrame hopen]
  rfl

/-- Settles O38: the stop token and the padding are those of `terminated`. -/
theorem terminateClosesTheFrame : Obligations.TerminateClosesTheFrame := by
  unfold Obligations.TerminateClosesTheFrame
  refine fun s => ⟨fun f hopen => exec_of_checkSession (commandWork_terminate_of_openFrame hopen) rfl, fun hnone => ?_⟩
  have hwork := commandWork_terminate s
  rw [curOpen_of_noOpenFrame hnone] at hwork
  exact exec_of_error hwork

/-- Settles O39: a current frame that is closed after TERMINATE is the padded one, since an error leaves it open. -/
theorem terminatePadsToTheTarget : Obligations.TerminatePadsToTheTarget := by
  unfold Obligations.TerminatePadsToTheTarget
  intro s t f g hopen hexec hlast hclosed target content hpos hshort
  have hg : g.entries = (terminated s.aspec f.entries).1 := by
    rcases exec_next .terminate s with ⟨e, he⟩ | ⟨w, hw, -, hreply⟩
    · rw [he] at hexec
      cases hexec
      obtain rfl : f = g := Option.some.inj (hopen.1.symm.trans hlast)
      rw [hopen.2] at hclosed
      cases hclosed
    · rw [hreply] at hexec
      cases hexec
      rw [commandWork_terminate_of_openFrame hopen, checkSession_ok] at hw
      obtain ⟨rfl, -⟩ := hw
      rw [reply_frames, withCurrent_frames, setLast_getLast?] at hlast
      cases hlast
      rfl
  rw [hg]
  exact dur_padClose hpos hshort

end Sys2Proof.Proofs
end

section
/-! PROOFS. The commands that append bits (R146 to R150): all of them append a list of bits to the open frame. -/

namespace Sys2Proof.Proofs
open Sys2Proof.Machine

/-! ## A list of bits (R148) -/

theorem bitsWork_of_openFrame {s : State} {f : Frame} (bits : List Bool) (hopen : openFrame s f) :
    bitsWork bits s
      = checkSession { state := afterBits f bits s, diag := (bitsBuilt s.aspec f.entries bits).2, payload := [] } := by
  rw [bitsWork, appendBitSteps_of_open bits (silent s) f hopen]
  simp [Except.bind, silent]

theorem bitsWork_of_noOpenFrame {s : State} {bits : List Bool} (hnone : noOpenFrame s) (hbits : bits ≠ []) :
    bitsWork bits s = .error .frameClosed := by
  rw [bitsWork, appendBitSteps_of_noOpen bits (silent s) hnone, if_neg hbits]
  rfl

theorem bitsWork_nil (s : State) : bitsWork [] s = checkSession (silent s) := rfl

/-! ## The four commands -/

theorem commandWork_of_appendedBits {i : Instr} {op : Byte} {bits : List Bool} (h : appendedBits i = some (op, bits))
    (s : State) : opcodeByte i.opcode = op ∧ commandWork i s = bitsWork bits s := by
  cases i with
  | appendBit | appendBits | appendG4 | appendG8 => cases h; exact ⟨rfl, rfl⟩
  | _ => cases h

/-- Settles O35: the four commands differ in the list of bits only; without an open frame an empty list raises nothing. -/
theorem appendBitCommandsAppendBits : Obligations.AppendBitCommandsAppendBits := by
  unfold Obligations.AppendBitCommandsAppendBits
  intro i op bits s hi
  obtain ⟨rfl, hwork⟩ := commandWork_of_appendedBits hi s
  refine ⟨fun f hopen => ?_, fun hnone hbits => ?_, fun hnil hfit => ?_⟩
  · exact exec_of_checkSession (hwork.trans (bitsWork_of_openFrame bits hopen)) rfl
  · exact exec_of_error (hwork.trans (bitsWork_of_noOpenFrame hnone hbits))
  · rw [hnil, bitsWork_nil] at hwork
    exact (exec_of_checkSession hwork rfl).1 hfit

/-! ## Observer words (R146) -/

theorem bitObservers_length (start : Nat) (bits : List Bool) : (bitObservers start bits).length = bits.length := by
  simp [bitObservers]

theorem bitObservers_getElem? (start : Nat) (bits : List Bool) {k : Nat} (hk : k < bits.length) :
    ∃ w, (bitObservers start bits)[k]? = some w ∧ w.toNat = bits[k].toNat * 65536 + (start + k) % 65536 := by
  refine ⟨_, by simp [bitObservers, hk]; rfl, ?_⟩
  have hbit : bits[k].toNat ≤ 1 := Bool.toNat_le _
  rw [BitVec.toNat_ofNat, Nat.mod_eq_of_lt (by omega)]

/-- What a command that appends `bits` within the capacities sends to the history and to the observer. -/
theorem exec_appendedBits_sends {i : Instr} {op : Byte} {bits : List Bool} {s : State} {f : Frame}
    (hi : appendedBits i = some (op, bits)) (hopen : openFrame s f) (hfit : sessionFits (afterBits f bits s) = true) :
    ∃ (t : State) (ws : List Word), exec i s = .next t ∧ t.hist = s.hist ++ bits ∧ t.obs = s.obs ++ ws
      ∧ (s.ctrlObs = false → ws = [])
      ∧ (s.ctrlObs = true → ws.length = bits.length
          ∧ ∀ k (h : k < bits.length), ∃ w, ws[k]? = some w
              ∧ w.toNat = bits[k].toNat * 65536 + (s.hist.length + k) % 65536) := by
  obtain ⟨hcurrent, -, -⟩ := appendBitCommandsAppendBits i op bits s hi
  obtain ⟨hdone, -⟩ := hcurrent f hopen
  refine ⟨_, if s.ctrlObs then bitObservers s.hist.length bits else [], hdone hfit, rfl, ?_, fun hoff => ?_,
    fun hon => ?_⟩
  · refine (afterBits_obs f bits s).trans ?_
    split
    · rfl
    · exact (List.append_nil _).symm
  · simp [hoff]
  · rw [if_pos hon]
    exact ⟨bitObservers_length _ _, fun k hk => bitObservers_getElem? _ _ hk⟩

/-- Settles O36: the bits of a group in `appendedBits` are its bits from the most significant down. -/
theorem appendedBitsAndObserverWords : Obligations.AppendedBitsAndObserverWords := by
  unfold Obligations.AppendedBitsAndObserverWords
  exact fun s f hopen =>
    ⟨fun b hfit => exec_appendedBits_sends (i := .appendBit b) rfl hopen hfit,
      fun bits hfit => exec_appendedBits_sends (i := .appendBits bits) rfl hopen hfit,
      fun g hfit => exec_appendedBits_sends (i := .appendG4 g) rfl hopen hfit,
      fun g hfit => exec_appendedBits_sends (i := .appendG8 g) rfl hopen hfit⟩

end Sys2Proof.Proofs
end

section
/-! PROOFS. The repeat commands (R155 to R157): the state after `n` repeats, step by step, and what stops them. -/

namespace Sys2Proof.Proofs
open Sys2Proof.Machine

/-! ## The state after repeats -/

theorem afterRepeats_zero (s : State) : afterRepeats 0 s = s := by
  have hidx : min s.rptIdx.toNat 65535 = s.rptIdx.toNat := by have := s.rptIdx.isLt; omega
  simp [afterRepeats, hidx]

theorem afterRepeats_rptIdx_toNat (n : Nat) (s : State) :
    (afterRepeats n s).rptIdx.toNat = min (s.rptIdx.toNat + n) 65535 := by
  rw [afterRepeats, BitVec.toNat_ofNat, Nat.mod_eq_of_lt (by omega)]

theorem repeatAt_afterRepeats (n k : Nat) (s : State) : repeatAt (afterRepeats n s) k = repeatAt s (n + k) := by
  have hidx : min (min (s.rptIdx.toNat + n) 65535 + k) 65535 = min (s.rptIdx.toNat + (n + k)) 65535 := by omega
  rw [repeatAt, afterRepeats_rptIdx_toNat, hidx]
  rfl

theorem afterRepeats_one_frames (s : State) :
    (afterRepeats 1 s).frames = s.frames ++ [⟨(repeatBuilt s.aspec.t (repeatAt s 0)).1, true⟩] := rfl

theorem afterRepeats_frames_length (n : Nat) (s : State) : (afterRepeats n s).frames.length = s.frames.length + n := by
  simp [afterRepeats]

/-- One more repeat after `n`: the entry it uses is the one `n` steps from the start. -/
theorem afterRepeats_one_afterRepeats (n : Nat) (s : State) :
    afterRepeats 1 (afterRepeats n s) = afterRepeats (n + 1) s := by
  have hframes : (afterRepeats 1 (afterRepeats n s)).frames = (afterRepeats (n + 1) s).frames := by
    have hentry : repeatAt (afterRepeats n s) 0 = repeatAt s n := repeatAt_afterRepeats n 0 s
    rw [afterRepeats_one_frames, hentry]
    simp [afterRepeats, List.range_succ]
  have hidx : (afterRepeats 1 (afterRepeats n s)).rptIdx = (afterRepeats (n + 1) s).rptIdx := by
    apply BitVec.eq_of_toNat_eq
    simp only [afterRepeats_rptIdx_toNat]
    omega
  exact congrArg₂ (fun fs k => { s with frames := fs, rptIdx := k }) hframes hidx

theorem repeatsDiag_one (s : State) : repeatsDiag 1 s = (repeatBuilt s.aspec.t (repeatAt s 0)).2 := by
  simp [repeatsDiag]

theorem repeatsDiag_succ (n : Nat) (s : State) :
    repeatsDiag (n + 1) s = repeatsDiag n s ||| repeatsDiag 1 (afterRepeats n s) := by
  have hentry : repeatAt (afterRepeats n s) 0 = repeatAt s n := repeatAt_afterRepeats n 0 s
  rw [repeatsDiag_one, hentry, repeatsDiag, List.range_succ, List.foldl_append]
  rfl

/-- A command under way, `n` repeats later. -/
def repeated (n : Nat) (w : Work) : Work :=
  { w with state := afterRepeats n w.state, diag := w.diag ||| repeatsDiag n w.state }

theorem repeated_zero (w : Work) : repeated 0 w = w := by
  simp [repeated, afterRepeats_zero, repeatsDiag]

theorem repeated_one_repeated (n : Nat) (w : Work) : repeated 1 (repeated n w) = repeated (n + 1) w := by
  simp only [repeated, afterRepeats_one_afterRepeats, repeatsDiag_succ n, BitVec.or_assoc]

/-! ## The steps -/

theorem repeatStep_of_room {w : Work} (hrpt : w.state.aspec.rpt ≠ [])
    (hroom : fits w.state.cfg.maxFrames (w.state.frames.length + 1) = true) : repeatStep w = .ok (repeated 1 w) := by
  rw [repeatStep_some w hrpt, if_pos hroom, repeated, repeatsDiag_one]

theorem repeatSteps_succ (n : Nat) (w : Work) : repeatSteps (n + 1) w = (repeatSteps n w).bind repeatStep := by
  induction n generalizing w with
  | zero =>
    simp only [repeatSteps, Except.bind]
    cases repeatStep w <;> rfl
  | succ n ih =>
    rw [repeatSteps, repeatSteps]
    cases repeatStep w with
    | error e => rfl
    | ok v => exact ih v

/-- With a repeat entry and room for the frames every step goes through (R155, R157). -/
theorem repeatSteps_of_room {n : Nat} {w : Work} (hrpt : w.state.aspec.rpt ≠ [])
    (hroom : n ≠ 0 → fits w.state.cfg.maxFrames (w.state.frames.length + n) = true) :
    repeatSteps n w = .ok (repeated n w) := by
  induction n with
  | zero => rw [repeated_zero]; rfl
  | succ n ih =>
    have hall := hroom (Nat.succ_ne_zero n)
    have hlast : fits w.state.cfg.maxFrames ((afterRepeats n w.state).frames.length + 1) = true := by
      rwa [afterRepeats_frames_length]
    rw [repeatSteps_succ, ih fun _ => fits_mono hall (by omega), ← repeated_one_repeated]
    exact repeatStep_of_room (w := repeated n w) hrpt hlast

/-- A step that finds no room for its frame stops the whole command. -/
theorem repeatSteps_of_no_room {n : Nat} {w : Work} (hrpt : w.state.aspec.rpt ≠ []) (hn : n ≠ 0)
    (hfull : fits w.state.cfg.maxFrames (w.state.frames.length + n) = false) : repeatSteps n w = .error .capacity := by
  induction n generalizing w with
  | zero => exact absurd rfl hn
  | succ n ih =>
    by_cases hone : fits w.state.cfg.maxFrames (w.state.frames.length + 1) = true
    · have hmore : n ≠ 0 := by
        rintro rfl
        exact ne_true_of_eq_false hfull hone
      have hrest : fits w.state.cfg.maxFrames ((afterRepeats 1 w.state).frames.length + n) = false := by
        rwa [afterRepeats_frames_length, Nat.add_assoc, Nat.add_comm 1]
      rw [repeatSteps, repeatStep_of_room hrpt hone]
      exact ih (w := repeated 1 w) hrpt hmore hrest
    · rw [repeatSteps, repeatStep_some w hrpt, if_neg hone]

theorem repeatSteps_of_no_entry {n : Nat} {w : Work} (hrpt : w.state.aspec.rpt = []) (hn : n ≠ 0) :
    repeatSteps n w = .error .noRepeatConfigured := by
  obtain ⟨m, rfl⟩ := Nat.exists_eq_succ_of_ne_zero hn
  rw [repeatSteps, repeatStep_none w hrpt]

/-! ## The two commands (R156, R157) -/

theorem commandWork_of_repeatCount {i : Instr} {op : Byte} {n : Nat} (h : repeatCount i = some (op, n)) (s : State) :
    opcodeByte i.opcode = op ∧ commandWork i s = repeatsWork n s := by
  cases i with
  | beginRepeat | appendRepeats => cases h; exact ⟨rfl, rfl⟩
  | _ => cases h

theorem repeatsWork_of_room {n : Nat} {s : State} (hrpt : s.aspec.rpt ≠ [])
    (hroom : n ≠ 0 → fits s.cfg.maxFrames (s.frames.length + n) = true) :
    repeatsWork n s = checkSession { state := afterRepeats n s, diag := repeatsDiag n s, payload := [] } := by
  rw [repeatsWork, repeatSteps_of_room (w := silent s) hrpt hroom]
  simp [Except.bind, repeated, silent]

theorem repeatsWork_of_error {n : Nat} {s : State} {e : ErrCode} (h : repeatSteps n (silent s) = .error e) :
    repeatsWork n s = .error e := by
  rw [repeatsWork, h]
  rfl

theorem maxFrames_of_sessionFits {s : State} (h : sessionFits s = true) : fits s.cfg.maxFrames s.frames.length = true := by
  simp only [sessionFits, Bool.and_eq_true] at h
  obtain ⟨⟨-, hframes⟩, -⟩ := h
  exact hframes

/-- Settles O40: a repeat entry decides between the first two clauses and the last two, and a session that is too long fails
at a step or at the check. -/
theorem repeatCommandsAppendFrames : Obligations.RepeatCommandsAppendFrames := by
  unfold Obligations.RepeatCommandsAppendFrames
  intro i op n s hi
  obtain ⟨rfl, hwork⟩ := commandWork_of_repeatCount hi s
  refine ⟨fun hrpt hfit => ?_, fun hrpt hfull => ?_, fun hrpt hn => ?_, fun _ hn hfit => ?_⟩
  · have hroom : fits s.cfg.maxFrames (s.frames.length + n) = true := by
      rw [← afterRepeats_frames_length]
      exact maxFrames_of_sessionFits hfit
    exact (exec_of_checkSession (hwork.trans (repeatsWork_of_room hrpt fun _ => hroom)) rfl).1 hfit
  · by_cases hroom : n ≠ 0 → fits s.cfg.maxFrames (s.frames.length + n) = true
    · exact (exec_of_checkSession (hwork.trans (repeatsWork_of_room hrpt hroom)) rfl).2 hfull
    · obtain ⟨hn, hlong⟩ := Classical.not_imp.1 hroom
      have hsteps := repeatSteps_of_no_room (w := silent s) hrpt hn (Bool.eq_false_iff.2 hlong)
      exact exec_of_error (hwork.trans (repeatsWork_of_error hsteps))
  · exact exec_of_error (hwork.trans (repeatsWork_of_error (repeatSteps_of_no_entry (w := silent s) hrpt hn)))
  · rw [hn] at hwork
    exact (exec_of_checkSession (w := silent s) hwork rfl).1 hfit

end Sys2Proof.Proofs
end

section
/-! PROOFS. The flat tick array (R171 to R176): what an entry, a frame and a frame list put into it, and the two commands
that answer it. -/

namespace Sys2Proof.Proofs
open Sys2Proof.Machine

/-! ## Entries in the flat array (R172, R173) -/

theorem filter_even_zipIdx_cons_cons (x y : Nat) (l : List Nat) {n : Nat} (hn : n % 2 = 0) :
    (((x :: y :: l).zipIdx n).filter fun p => p.2 % 2 == 0) = (x, n) :: (l.zipIdx (n + 2)).filter fun p => p.2 % 2 == 0 := by
  have hodd : (n + 1) % 2 = 1 := by omega
  simp [List.zipIdx_cons, hn, hodd]

/-- The value of a split stands at its even positions. An even start `n` for the positions carries the induction over the
pieces. -/
theorem split_sum_at_even {t n : Nat} (hn : n % 2 = 0) :
    ((((split t).zipIdx n).filter fun p => p.2 % 2 == 0).map Prod.fst).sum = t := by
  induction t using Nat.strongRecOn generalizing n with
  | ind t ih =>
    by_cases ht : t ≤ tickMax
    · simp [split_of_le ht, hn]
    · have hnext : (n + 2) % 2 = 0 := by rw [Nat.add_mod_right, hn]
      rw [split_of_lt (Nat.not_le.1 ht), filter_even_zipIdx_cons_cons _ _ _ hn, List.map_cons, List.sum_cons,
        ih _ (sub_tickMax_lt ht) hnext, Nat.add_sub_of_le (Nat.le_of_not_le ht)]

theorem flattenFrame_append (es es' : List Entry) (c : Bool) :
    flattenFrame ⟨es ++ es', c⟩ = flattenFrame ⟨es, c⟩ ++ flattenFrame ⟨es', c⟩ :=
  List.flatMap_append

theorem flattenFrame_cons (e : Entry) (es : List Entry) (c : Bool) :
    flattenFrame ⟨e :: es, c⟩ = split (toTick e) ++ flattenFrame ⟨es, c⟩ :=
  List.flatMap_cons

theorem flatten_cons (f : Frame) (fs : List Frame) : flatten (f :: fs) = flattenFrame f ++ flatten fs :=
  List.flatMap_cons

theorem le_of_mem_flatten {fs : List Frame} {k : Nat} (h : k ∈ flatten fs) : k ≤ tickMax := by
  obtain ⟨f, -, hf⟩ := List.mem_flatMap.1 h
  obtain ⟨e, -, he⟩ := List.mem_flatMap.1 hf
  exact le_of_mem_split he

/-- Settles O43: the greedy pieces by the two equations of `split`. -/
theorem flattenRule : Obligations.FlattenRule := by
  unfold Obligations.FlattenRule
  refine ⟨fun _ => ⟨rfl, rfl⟩, fun t => ?_, fun e es closed fs => ⟨rfl, rfl, ?_⟩⟩
  · exact ⟨split_of_le, split_of_lt, split_sum_at_even rfl, fun _ => le_of_mem_split, split_length_odd t⟩
  · rw [flatten_cons, flatten_cons, flattenFrame_cons, List.append_assoc]

/-! ## The words of the two commands (R170, R174) -/

/-- A word holds every element of the flat array. -/
theorem tickWords_toNat {ticks : List Nat} (h : ∀ k ∈ ticks, k ≤ tickMax) : (tickWords ticks).map (·.toNat) = ticks := by
  rw [tickWords, List.map_map]
  refine (List.map_congr_left fun k hk => ?_).trans (List.map_id ticks)
  have hle : k ≤ 65535 := h k hk
  exact emitNat_toNat (by omega)

theorem envelopeWord_toNat {count : Nat} (h : count < 2 ^ 16) :
    (envelopeWord count).toNat = 1 * 2 ^ 24 + 38 * 2 ^ 16 + count := by
  have hhigh : (1 <<< 24) ||| (carrierKhz <<< 16) = (1 * 2 ^ 8 + 38) <<< 16 := rfl
  rw [envelopeWord, hhigh, ← Nat.shiftLeft_add_eq_or_of_lt h, Nat.shiftLeft_eq, emitNat_toNat (by omega)]
  omega

/-- A command that computes a payload answers it when it is within `MAX_RSP_WORDS`, and `CapacityError` otherwise (R226). -/
theorem exec_of_payload {i : Instr} {s : State} {ws : List Word} (h : commandWork i s = .ok (emit s 0 ws)) :
    (ws.length ≤ 65535 → exec i s = .next (answered (opcodeByte i.opcode) 0 ws s))
      ∧ (65535 < ws.length → exec i s = .next (errored (opcodeByte i.opcode) .capacity s)) := by
  refine ⟨exec_of_emit h, fun hlong => ?_⟩
  rw [exec_eq_finish, h]
  exact finish_too_long i.opcode s _ hlong

/-- Settles O44. -/
theorem toTicksEmitsTheFlatArray : Obligations.ToTicksEmitsTheFlatArray := by
  unfold Obligations.ToTicksEmitsTheFlatArray
  intro s
  have hle : ∀ k ∈ flatten s.frames, k ≤ 65535 := fun k => le_of_mem_flatten
  have hwords : (tickWords (flatten s.frames)).map (·.toNat) = flatten s.frames := tickWords_toNat hle
  have hlen : (tickWords (flatten s.frames)).length = (flatten s.frames).length := List.length_map _
  obtain ⟨hfits, hlong⟩ := exec_of_payload (i := .toTicks) (s := s) rfl
  rw [hlen] at hfits hlong
  refine ⟨fun h => ⟨_, hwords, fun w hw => hle _ ?_, hfits h⟩, hlong, hle⟩
  rw [← hwords]
  exact List.mem_map_of_mem hw

/-- Settles O45: the envelope word takes one of the 65535 words of the payload, so its 16 bits hold the count. -/
theorem toWireWrapsTheFlatArray : Obligations.ToWireWrapsTheFlatArray := by
  unfold Obligations.ToWireWrapsTheFlatArray
  intro s
  have hlen : (envelopeWord (flatten s.frames).length :: tickWords (flatten s.frames)).length
      = 1 + (flatten s.frames).length := by
    rw [List.length_cons, tickWords, List.length_map, Nat.add_comm]
  obtain ⟨hfits, hlong⟩ := exec_of_payload (i := .toWire) (s := s) rfl
  rw [hlen] at hfits hlong
  exact ⟨fun h => ⟨_, _, envelopeWord_toNat (by omega), tickWords_toNat fun _ => le_of_mem_flatten, hfits h⟩, hlong⟩

/-! ## Parity (R176, R247) -/

/-- Every entry gives an odd number of elements. -/
theorem flattenFrame_length_mod_two (es : List Entry) (c : Bool) : (flattenFrame ⟨es, c⟩).length % 2 = es.length % 2 := by
  induction es with
  | nil => rfl
  | cons e es ih =>
    have hodd := split_length_odd (toTick e)
    rw [flattenFrame_cons, List.length_append, List.length_cons]
    omega

/-- Padding ends in a space slot: an odd number of pieces behind an odd number of entries (R152). -/
theorem pad_length_even {p : Nat} (hp : p ≠ 0) (es : List Entry) : (pad p es).length % 2 = 0 := by
  have hodd := split_length_odd p
  rw [pad_of_ne_zero hp, List.length_append, List.length_append, List.length_map]
  split <;> simp only [List.length_singleton, List.length_nil] <;> omega

/-- Settles O46. -/
theorem outputKeepsParity : Obligations.OutputKeepsParity := by
  unfold Obligations.OutputKeepsParity
  refine ⟨fun es e rest c => ⟨flattenFrame_length_mod_two es c, ?_⟩, fun target es d c htarget hdur hgap => ?_⟩
  · rw [flattenFrame_append, flattenFrame_cons, List.append_assoc]
  · rw [flattenFrame_length_mod_two, padClose_of_lt (b := (es, d)) htarget.ne' hdur]
    exact pad_length_even hgap.ne' es

end Sys2Proof.Proofs
end

section
/-! PROOFS. The classifier (R183 to R188): a leader signature holds for an interval of base units, so a qualifying set is a
run of consecutive candidates and its mean has the signature too. -/

namespace Sys2Proof.Proofs
open Sys2Proof.Machine

/-! ## Candidates and signatures (R183, R184) -/

/-- The candidate base unit at a scan position (R183). -/
def candidate (k : Nat) : Nat := 300 + 5 * k

theorem candidates_eq_map : candidates = (List.range 100).map candidate := rfl

theorem mem_candidates_iff (t : Nat) : t ∈ candidates ↔ 300 ≤ t ∧ t ≤ 795 ∧ t % 5 = 0 := by
  simp only [candidates_eq_map, List.mem_map, List.mem_range, candidate]
  constructor
  · rintro ⟨k, hk, rfl⟩
    omega
  · rintro ⟨hlo, hhi, hmod⟩
    exact ⟨(t - 300) / 5, by omega, by omega⟩

theorem candidates_nodup : candidates.Nodup :=
  List.nodup_range.map fun j k (h : 300 + 5 * j = 300 + 5 * k) => by omega

theorem multAt_eq_true_iff (d : List Rat) (t : Rat) (i k : Nat) :
    multAt d t i k = true ↔ ∃ x, d[i]? = some x ∧ mult x t = k := by
  unfold multAt
  cases d[i]? <;> simp

/-- Settles O47: a signature tests the elements that `multAt` finds. -/
theorem candidatesAndSignatures : Obligations.CandidatesAndSignatures := by
  unfold Obligations.CandidatesAndSignatures
  refine ⟨⟨mem_candidates_iff, rfl, candidates_nodup⟩, fun x y t rest => ?_⟩
  refine ⟨?_, ?_, ?_, ?_, Bool.and_false _, Bool.and_false _, Bool.and_false _, rfl, rfl, rfl, rfl⟩
  all_goals simp [signature, multAt_eq_true_iff]

/-! ## Resolution (R185, R186) -/

theorem classifyIn_of_nonempty {f : Family} {d : List Rat} (fs : List Family) (h : qualifying f d ≠ []) :
    classifyIn (f :: fs) d = some (f, meanOf (qualifying f d)) :=
  if_neg (by rwa [List.isEmpty_iff])

theorem classifyIn_of_empty {f : Family} {d : List Rat} (fs : List Family) (h : qualifying f d = []) :
    classifyIn (f :: fs) d = classifyIn fs d :=
  if_pos (List.isEmpty_iff.2 h)

/-- Settles O48: each empty set passes the choice on to the next family. -/
theorem classifierResolution : Obligations.ClassifierResolution := by
  unfold Obligations.ClassifierResolution
  refine fun d => ⟨fun _ => rfl, fun ha => ?_, fun ha hn => ?_, fun ha hn hs => ?_, fun ha hn hs hi => ?_,
    fun ha hn hs hi => ?_⟩
  · exact classifyIn_of_nonempty _ ha
  · rw [classifyTicks, classifyIn_of_empty _ ha]
    exact classifyIn_of_nonempty _ hn
  · rw [classifyTicks, classifyIn_of_empty _ ha, classifyIn_of_empty _ hn]
    exact classifyIn_of_nonempty _ hs
  · rw [classifyTicks, classifyIn_of_empty _ ha, classifyIn_of_empty _ hn, classifyIn_of_empty _ hs]
    exact classifyIn_of_nonempty _ hi
  · rw [classifyTicks, classifyIn_of_empty _ ha, classifyIn_of_empty _ hn, classifyIn_of_empty _ hs, classifyIn_of_empty _ hi]
    rfl

/-- A classification answers the mean of a non-empty qualifying set. -/
theorem classifyIn_eq_some {fs : List Family} {d : List Rat} {f : Family} {t : Rat} (h : classifyIn fs d = some (f, t)) :
    qualifying f d ≠ [] ∧ t = meanOf (qualifying f d) := by
  induction fs with
  | nil => cases h
  | cons g fs ih =>
    by_cases hg : qualifying g d = []
    · rw [classifyIn_of_empty fs hg] at h
      exact ih h
    · rw [classifyIn_of_nonempty fs hg] at h
      cases h
      exact ⟨hg, rfl⟩

theorem classifyTicks_eq_none {d : List Rat} (h : ∀ f, qualifying f d = []) : classifyTicks d = none := by
  cases hc : classifyTicks d with
  | none => rfl
  | some c => exact absurd (h c.1) (classifyIn_eq_some hc).1

/-! ## Base units between two that qualify -/

theorem mult_eq_of_between {d x t y : Rat} {k : Nat} (hk : 0 < k) (hx : 0 < x) (hxt : x ≤ t) (hty : t ≤ y)
    (hmx : mult d x = k) (hmy : mult d y = k) : mult d t = k := by
  rw [mult_eq_iff _ _ (by linarith) k hk] at *
  obtain ⟨-, hlt⟩ := hmx
  obtain ⟨hle, -⟩ := hmy
  have hk1 : (1 : Rat) ≤ k := mod_cast hk
  exact ⟨le_trans (by gcongr; linarith) hle, hlt.trans_le (by gcongr)⟩

theorem multAt_of_between {d : List Rat} {x t y : Rat} {i k : Nat} (hk : 0 < k) (hx : 0 < x) (hxt : x ≤ t) (hty : t ≤ y)
    (hmx : multAt d x i k = true) (hmy : multAt d y i k = true) : multAt d t i k = true := by
  rw [multAt_eq_true_iff] at *
  obtain ⟨e, he, hex⟩ := hmx
  obtain ⟨e', he', hey⟩ := hmy
  obtain rfl : e = e' := Option.some.inj (he.symm.trans he')
  exact ⟨e, he, mult_eq_of_between hk hx hxt hty hex hey⟩

theorem signature_of_between {f : Family} {d : List Rat} {x t y : Rat} (hx : 0 < x) (hxt : x ≤ t) (hty : t ≤ y)
    (hsx : signature f d x = true) (hsy : signature f d y = true) : signature f d t = true := by
  have between {i k : Nat} (hk : 0 < k) := multAt_of_between (d := d) (i := i) hk hx hxt hty
  cases f with
  | sony => exact between (by decide) hsx hsy
  | aeha | nec | irisOyama =>
    simp only [signature, Bool.and_eq_true] at hsx hsy ⊢
    exact ⟨between (by decide) hsx.1 hsy.1, between (by decide) hsx.2 hsy.2⟩

/-! ## Qualifying sets are runs of candidates -/

/-- The positions below `n` at which a predicate without gaps holds are consecutive. -/
theorem filter_range_eq_range' {q : Nat → Bool} (hgap : ∀ i j k, i ≤ j → j ≤ k → q i = true → q k = true → q j = true)
    (n : Nat) : ∃ a m, (List.range n).filter q = List.range' a m := by
  induction n with
  | zero => exact ⟨0, 0, rfl⟩
  | succ n ih =>
    obtain ⟨a, m, hrun⟩ := ih
    have hmem (k : Nat) : k < n ∧ q k = true ↔ a ≤ k ∧ k < a + m := by
      rw [← List.mem_range'_1, ← hrun, List.mem_filter, List.mem_range]
    rw [List.range_succ, List.filter_append, hrun]
    by_cases hn : q n = true
    · rw [List.filter_singleton, hn, cond_true]
      rcases Nat.eq_zero_or_pos m with rfl | hm
      · exact ⟨n, 1, rfl⟩
      · have hfirst := (hmem a).2 (by omega)
        have hend : ¬ a + m < n := fun hlt => by
          have := (hmem (a + m)).1 ⟨hlt, hgap a (a + m) n (by omega) hlt.le hfirst.2 hn⟩
          omega
        have hlast := (hmem (a + m - 1)).2 (by omega)
        obtain rfl : n = a + m := by omega
        exact ⟨a, m + 1, by rw [List.range'_1_concat]⟩
    · rw [List.filter_singleton, eq_false_of_ne_true hn, cond_false, List.append_nil]
      exact ⟨a, m, rfl⟩

/-- `m + 1` consecutive candidates from scan position `a` on. -/
def candidateRun (a m : Nat) : List Nat := (List.range' a (m + 1)).map candidate

theorem mem_candidateRun {a m k : Nat} (hlo : a ≤ k) (hhi : k ≤ a + m) : candidate k ∈ candidateRun a m :=
  List.mem_map_of_mem (List.mem_range'_1.2 (by omega))

theorem qualifying_eq_candidateRun {f : Family} {d : List Rat} (h : qualifying f d ≠ []) :
    ∃ a m, a + m < 100 ∧ qualifying f d = candidateRun a m := by
  have hfilter : qualifying f d = ((List.range 100).filter fun k => signature f d (candidate k : Nat)).map candidate := by
    rw [qualifying, candidates_eq_map, List.filter_map]
    rfl
  obtain ⟨a, m, hrun⟩ := filter_range_eq_range' (q := fun k => signature f d (candidate k : Nat))
    (fun i j k hij hjk => signature_of_between (by unfold candidate; positivity)
      (by unfold candidate; gcongr) (by unfold candidate; gcongr)) 100
  rw [hfilter, hrun] at h ⊢
  cases m with
  | zero => exact absurd rfl h
  | succ m =>
    have hlast : a + m ∈ List.range' a (m + 1) := List.mem_range'_1.2 (by omega)
    rw [← hrun, List.mem_filter, List.mem_range] at hlast
    exact ⟨a, m, hlast.1, rfl⟩

theorem two_mul_sum_candidateRun (a m : Nat) : 2 * (candidateRun a m).sum = (m + 1) * (600 + 10 * a + 5 * m) := by
  induction m with
  | zero => simp [candidateRun, candidate]; ring
  | succ m ih =>
    have hsum : (candidateRun a (m + 1)).sum = (candidateRun a m).sum + candidate (a + (m + 1)) := by
      rw [candidateRun, List.range'_1_concat, List.map_append, List.sum_append]
      rfl
    rw [hsum, Nat.mul_add, ih, candidate]
    ring

/-- The mean of consecutive candidates is midway between the first and the last. -/
theorem meanOf_candidateRun (a m : Nat) : meanOf (candidateRun a m) = (120 + 2 * a + m : Nat) * 5 / 2 := by
  have hsum : (2 : Rat) * (candidateRun a m).sum = (m + 1) * (600 + 10 * a + 5 * m) := mod_cast two_mul_sum_candidateRun a m
  have hlen : (candidateRun a m).length = m + 1 := by simp [candidateRun]
  rw [meanOf, hlen, div_eq_iff (by positivity)]
  push_cast at hsum ⊢
  linarith

/-! ## The estimate (R188) -/

theorem estimate_between {d : List Rat} {f : Family} {t : Rat} (h : classifyTicks d = some (f, t)) :
    ∃ a m : Nat, a + m < 100 ∧ t = (120 + 2 * a + m : Nat) * 5 / 2 ∧ signature f d (candidate a : Nat) = true
      ∧ signature f d (candidate (a + m) : Nat) = true := by
  obtain ⟨hne, rfl⟩ := classifyIn_eq_some h
  obtain ⟨a, m, hlt, hrun⟩ := qualifying_eq_candidateRun hne
  have hsig {k : Nat} (hlo : a ≤ k) (hhi : k ≤ a + m) : signature f d (candidate k : Nat) = true := by
    have hk := mem_candidateRun hlo hhi
    rw [← hrun, qualifying, List.mem_filter] at hk
    exact hk.2
  exact ⟨a, m, hlt, by rw [hrun, meanOf_candidateRun], hsig le_rfl (by omega), hsig (by omega) le_rfl⟩

/-- Settles O49: the estimate is midway between two candidates that have the signature. -/
theorem estimateFacts : Obligations.EstimateFacts := by
  unfold Obligations.EstimateFacts
  intro d f t h
  obtain ⟨a, m, hlt, ht, hfirst, hlast⟩ := estimate_between h
  have hle : (a : Rat) + m ≤ 99 := by exact_mod_cast Nat.le_of_lt_succ hlt
  have ha : (0 : Rat) ≤ a := Nat.cast_nonneg a
  have hm : (0 : Rat) ≤ m := Nat.cast_nonneg m
  have hmid : t = 300 + 5 * a + 5 * m / 2 := by rw [ht]; push_cast; ring
  refine ⟨by linarith, by linarith, ⟨_, ht⟩, signature_of_between ?_ ?_ ?_ hfirst hlast⟩
  all_goals
    simp only [candidate]
    push_cast
    linarith

end Sys2Proof.Proofs
end

section
/-! PROOFS. CLASSIFY and DECODE (R180 to R187, R194 to R196): the words of a guess as numbers, and the answer for each outcome
of the classifier. -/

namespace Sys2Proof.Proofs
open Sys2Proof.Machine

/-! ## The estimate and the family as words (R68, R83, R181) -/

/-- An estimate is a multiple of 2.5, so 256 times it is a whole number, and a word holds it. -/
theorem baseUnitWord_toNat {d : List Rat} {f : Family} {t : Rat} (h : classifyTicks d = some (f, t)) :
    ((baseUnitWord t).toNat : Rat) = t * 256 := by
  obtain ⟨-, hle, ⟨n, ht⟩, -⟩ := estimateFacts d f t h
  have hunit : t * 256 = (640 * n : Nat) := by rw [ht]; push_cast; ring
  have hlt : 640 * n < 2 ^ 32 := by
    have : ((640 * n : Nat) : Rat) ≤ (203520 : Nat) := by rw [← hunit]; push_cast; linarith
    have := Nat.cast_le.1 this
    omega
  have hfloor : (t * 256).floor = (640 * n : Nat) := by
    rw [hunit]
    exact Int.floor_natCast (R := Rat) _
  rw [baseUnitWord, hfloor, Int.toNat_natCast, emitNat_toNat hlt, hunit]

theorem durations_eq_map (ks : List Half) : durations ks = ks.map fun k => (k.toNat : Rat) / 2 := rfl

/-! ## CLASSIFY (R181, R186) -/

section
variable {ks : List Half} {s : State}

theorem checkInput_of_fits {c : Config} (h : fits c.maxDecTicks ks.length = true) : checkInput c ks = .ok (durations ks) :=
  if_pos h

theorem checkInput_of_not_fits {c : Config} (h : fits c.maxDecTicks ks.length = false) :
    checkInput c ks = .error .capacity :=
  if_neg (ne_true_of_eq_false h)

theorem commandWork_classify_of_fits (h : fits s.cfg.maxDecTicks ks.length = true) :
    commandWork (.classify ks) s = (classifyWords (durations ks)).map (emit s 0) := by
  rw [commandWork, classifyWork, checkInput_of_fits h]
  rfl

theorem exec_classify_of_not_fits (h : fits s.cfg.maxDecTicks ks.length = false) :
    exec (.classify ks) s = .next (errored 0x40 .capacity s) := by
  refine exec_of_error (i := .classify ks) ?_
  rw [commandWork, classifyWork, checkInput_of_not_fits h]
  rfl

theorem exec_classify_of_unknown (h : fits s.cfg.maxDecTicks ks.length = true) (hc : classifyTicks (durations ks) = none) :
    exec (.classify ks) s = .next (errored 0x40 .unknownProtocol s) := by
  refine exec_of_error (i := .classify ks) ?_
  rw [commandWork_classify_of_fits h, classifyWords, hc]
  rfl

theorem exec_classify_of_family {f : Family} {t : Rat} (h : fits s.cfg.maxDecTicks ks.length = true)
    (hc : classifyTicks (durations ks) = some (f, t)) :
    exec (.classify ks) s = .next (answered 0x40 0 [(familyCode f).setWidth 32, baseUnitWord t] s) := by
  refine exec_of_emit (i := .classify ks) ?_ (by simp [maxRspWords])
  rw [commandWork_classify_of_fits h, classifyWords, hc]
  rfl

end

/-- Settles O50: the size check comes first, and then the classifier decides. -/
theorem classifyAnswersFamilyAndUnit : Obligations.ClassifyAnswersFamilyAndUnit := by
  unfold Obligations.ClassifyAnswersFamilyAndUnit
  intro code ks s d
  refine ⟨exec_classify_of_not_fits, fun hfit => ⟨exec_classify_of_unknown hfit, fun f t hc => ?_⟩⟩
  have hcode : code f = (familyCode f).setWidth 32 := by cases f <;> rfl
  rw [hcode]
  exact ⟨_, baseUnitWord_toNat hc, exec_classify_of_family hfit hc⟩

/-! ## DECODE (R194 to R196) -/

theorem guessWord_toNat {f : Family} {t : Rat} {frames : List DecFrame} (h : frames.length < 65536) :
    (guessWord ⟨some (f, t), frames⟩).toNat = frames.length * 65536 + 256 + (familyCode f).toNat := by
  have hlow : (1 <<< 8) ||| (familyCode f).toNat = 256 + (familyCode f).toNat := by cases f <;> rfl
  have hcode : (familyCode f).toNat < 256 := (familyCode f).isLt
  simp only [guessWord]
  rw [Nat.or_assoc, hlow, Nat.shiftLeft_eq, mul_or_eq_add _ (by omega), emitNat_toNat (by omega)]
  omega

/-- Every frame takes at least one word of the payload. -/
theorem length_le_flatMap_frameWords (frames : List DecFrame) : frames.length ≤ (frames.flatMap frameWords).length := by
  induction frames with
  | nil => exact Nat.zero_le _
  | cons g frames ih =>
    have hpos : 0 < (frameWords g).length := by cases g <;> exact Nat.succ_pos _
    rw [List.flatMap_cons, List.length_append, List.length_cons]
    omega

section
variable {ks : List Half} {s : State}

theorem commandWork_decode_of_fits (h : fits s.cfg.maxDecTicks ks.length = true) :
    commandWork (.decode ks) s = (decodeGuess s.cfg (durations ks)).map fun g => emit s 0 (guessWords g) := by
  rw [commandWork, decodeWork, checkInput_of_fits h]
  rfl

theorem exec_decode_of_not_fits (h : fits s.cfg.maxDecTicks ks.length = false) :
    exec (.decode ks) s = .next (errored 0x41 .capacity s) := by
  refine exec_of_error (i := .decode ks) ?_
  rw [commandWork, decodeWork, checkInput_of_not_fits h]
  rfl

theorem exec_decode_of_unknown (h : fits s.cfg.maxDecTicks ks.length = true) (hc : classifyTicks (durations ks) = none) :
    exec (.decode ks) s = .next (answered 0x41 0 [0, 0] s) := by
  refine exec_of_emit (i := .decode ks) ?_ (by simp [maxRspWords])
  rw [commandWork_decode_of_fits h, decodeGuess, hc]
  rfl

variable {f : Family} {t : Rat}

theorem exec_decode_of_family_error {e : ErrCode} (h : fits s.cfg.maxDecTicks ks.length = true)
    (hc : classifyTicks (durations ks) = some (f, t)) (hf : decodeFamily s.cfg f t (durations ks) = .error e) :
    exec (.decode ks) s = .next (errored 0x41 e s) := by
  refine exec_of_error (i := .decode ks) ?_
  simp only [commandWork_decode_of_fits h, decodeGuess, hc, hf, Except.map]

theorem exec_decode_of_family {frames : List DecFrame} (h : fits s.cfg.maxDecTicks ks.length = true)
    (hc : classifyTicks (durations ks) = some (f, t)) (hf : decodeFamily s.cfg f t (durations ks) = .ok frames) :
    (2 + (frames.flatMap frameWords).length ≤ 65535 →
      exec (.decode ks) s
        = .next (answered 0x41 0 (guessWord ⟨some (f, t), frames⟩ :: baseUnitWord t :: frames.flatMap frameWords) s))
      ∧ (65535 < 2 + (frames.flatMap frameWords).length → exec (.decode ks) s = .next (errored 0x41 .capacity s)) := by
  have hwork : commandWork (.decode ks) s = .ok (emit s 0 (guessWords ⟨some (f, t), frames⟩)) := by
    simp only [commandWork_decode_of_fits h, decodeGuess, hc, hf, Except.map]
  have hlen : (guessWords ⟨some (f, t), frames⟩).length = 2 + (frames.flatMap frameWords).length := by
    rw [guessWords, List.length_cons, List.length_cons]
    exact Nat.add_comm _ 2
  rw [← hlen]
  exact exec_of_payload hwork

end

/-- Settles O52: the family decides which decoder runs, and the payload bounds the frame count. -/
theorem decodeAnswersTheGuess : Obligations.DecodeAnswersTheGuess := by
  unfold Obligations.DecodeAnswersTheGuess
  intro code ks s d
  refine ⟨exec_decode_of_not_fits, fun hfit => ⟨exec_decode_of_unknown hfit, fun t hc => ?_, fun t hc hiris => ?_,
    fun f t frames hc hframes => ?_⟩⟩
  · exact exec_decode_of_family_error hfit hc rfl
  · refine exec_decode_of_family_error hfit hc ?_
    rw [decodeFamily, hiris]
  · have hok : decodeFamily s.cfg f t (durations ks) = .ok frames := by
      rcases hframes with ⟨rfl, rfl⟩ | ⟨rfl, rfl⟩ | ⟨rfl, hiris, rfl⟩
      · rfl
      · rfl
      · rw [decodeFamily, hiris]
    obtain ⟨hfits, hlong⟩ := exec_decode_of_family hfit hc hok
    have hcode : code f = (familyCode f).toNat := by cases f <;> rfl
    refine ⟨fun hlen => ⟨_, _, ?_, baseUnitWord_toNat hc, hfits hlen⟩, hlong⟩
    have hle := length_le_flatMap_frameWords frames
    rw [hcode]
    exact guessWord_toNat (by omega)

/-! ## Short first elements (R188) -/

/-- Every signature wants a first element of at least 3.5 base units. -/
theorem signature_first {f : Family} {d : List Rat} {t : Rat} (ht : 0 < t) (h : signature f d t = true) :
    ∃ x, d[0]? = some x ∧ 7 / 2 * t ≤ x := by
  have first {k : Nat} (hk : 4 ≤ k) (hm : multAt d t 0 k = true) : ∃ x, d[0]? = some x ∧ 7 / 2 * t ≤ x := by
    obtain ⟨x, hx, hmult⟩ := (multAt_eq_true_iff d t 0 k).1 hm
    have hlo := ((mult_eq_iff x t ht k (by omega)).1 hmult).1
    have hk4 : (4 : Rat) ≤ k := mod_cast hk
    exact ⟨x, hx, le_trans (by gcongr; linarith) hlo⟩
  cases f with
  | sony => exact first (by decide) h
  | aeha | nec | irisOyama =>
    simp only [signature, Bool.and_eq_true] at h
    exact first (by decide) h.1

theorem classifyTicks_of_short_first {d : List Rat} (h : ∀ x, d[0]? = some x → x < 1050) : classifyTicks d = none := by
  refine classifyTicks_eq_none fun f => List.filter_eq_nil_iff.2 fun t ht hsig => ?_
  have hlo : (300 : Rat) ≤ t := mod_cast ((mem_candidates_iff t).1 ht).1
  obtain ⟨x, hx, hle⟩ := signature_first (by linarith) hsig
  have := h x hx
  linarith

/-- Settles O51: 3.5 times the smallest candidate is 1050 microseconds. -/
theorem shortFirstElementIsUnknown : Obligations.ShortFirstElementIsUnknown := by
  unfold Obligations.ShortFirstElementIsUnknown
  intro ks s hfit hshort
  have hc : classifyTicks (durations ks) = none := by
    refine classifyTicks_of_short_first fun x hx => ?_
    rw [durations_eq_map, List.getElem?_map, ← List.head?_eq_getElem?, Option.map_eq_some_iff] at hx
    obtain ⟨k, hk, rfl⟩ := hx
    have hlt : (k.toNat : Rat) < 2100 := mod_cast hshort k hk
    linarith
  exact ⟨exec_classify_of_unknown hfit hc, exec_decode_of_unknown hfit hc⟩

/-! ## The words of a frame (R75, R196) -/

theorem flatMap_symbolBits_length (xs : List Symbol) : (xs.flatMap symbolBits).length = 2 * xs.length := by
  induction xs with
  | nil => rfl
  | cons x xs ih =>
    have hx : (symbolBits x).length = 2 := by cases x <;> rfl
    rw [List.flatMap_cons, List.length_append, ih, hx, List.length_cons]
    omega

/-- The two bits of symbol `k`, also past the end of the list. -/
theorem flatMap_symbolBits_getD (xs : List Symbol) (k : Nat) :
    (xs.flatMap symbolBits).getD (2 * k) false = decide (xs[k]? = some .unknown)
      ∧ (xs.flatMap symbolBits).getD (2 * k + 1) false = decide (xs[k]? = some .one) := by
  induction xs generalizing k with
  | nil => exact ⟨rfl, rfl⟩
  | cons x xs ih =>
    cases k with
    | zero => cases x <;> exact ⟨rfl, rfl⟩
    | succ k => cases x <;> exact ih k

theorem frameWords_bits_getLsbD (xs : List Symbol) (k : Nat) :
    let ws := packBits (xs.flatMap symbolBits)
    (ws.getD (k / 16) 0).getLsbD (31 - 2 * (k % 16)) = decide (xs[k]? = some .unknown)
      ∧ (ws.getD (k / 16) 0).getLsbD (30 - 2 * (k % 16)) = decide (xs[k]? = some .one) := by
  obtain ⟨hhigh, hlow⟩ := flatMap_symbolBits_getD xs k
  rw [← packedBit_packBits, packedBit_eq_getLsbD] at hhigh hlow
  rw [show 2 * k / 32 = k / 16 by omega, show 31 - 2 * k % 32 = 31 - 2 * (k % 16) by omega] at hhigh
  rw [show (2 * k + 1) / 32 = k / 16 by omega, show 31 - (2 * k + 1) % 32 = 30 - 2 * (k % 16) by omega] at hlow
  exact ⟨hhigh, hlow⟩

/-- Settles O53: a symbol is two bits of the packed list, and past the last symbol there is none. -/
theorem decodedFrameWords : Obligations.DecodedFrameWords := by
  unfold Obligations.DecodedFrameWords
  refine ⟨rfl, fun xs hlen => ⟨packBits (xs.flatMap symbolBits), ?_, ?_, fun k _ => frameWords_bits_getLsbD xs k,
    fun k hk _ => ?_⟩⟩
  · rw [frameWords, emitNat_of_lt (by omega)]
  · rw [packBits_length, flatMap_symbolBits_length, packedWords]
    omega
  · simpa [List.getElem?_eq_none hk] using frameWords_bits_getLsbD xs k

end Sys2Proof.Proofs
end

section
/-! PROOFS. The family decoders (R189 to R193): what each does with a list of pulse and space pairs. -/

namespace Sys2Proof.Proofs
open Sys2Proof.Machine

/-! ## Pairs -/

/-- Pairs of a pulse and a space, as they stand in a duration array. -/
def flatPairs (ps : List (Rat × Rat)) : List Rat := ps.flatMap fun p => [p.1, p.2]

/-- The duration of a list of pairs. -/
def pairsDur (ps : List (Rat × Rat)) : Rat := (ps.map fun p => p.1 + p.2).sum

theorem flatPairs_cons (p : Rat × Rat) (ps : List (Rat × Rat)) : flatPairs (p :: ps) = p.1 :: p.2 :: flatPairs ps := rfl

theorem flatPairs_append (ps qs : List (Rat × Rat)) : flatPairs (ps ++ qs) = flatPairs ps ++ flatPairs qs :=
  List.flatMap_append

theorem pairsDur_cons (p : Rat × Rat) (ps : List (Rat × Rat)) : pairsDur (p :: ps) = p.1 + p.2 + pairsDur ps :=
  List.sum_cons

theorem pairsDur_append (ps qs : List (Rat × Rat)) : pairsDur (ps ++ qs) = pairsDur ps + pairsDur qs := by
  simp [pairsDur]

/-! ## NEC: the active frame (R190) -/

theorem necActive_of_lt {t acc : Rat} (h : acc < 108000) (p s : Rat) (rest : List Rat) :
    necActive t acc (p :: s :: rest)
      = (necSymbol t p s :: (necActive t (acc + p + s) rest).1, (necActive t (acc + p + s) rest).2) := by
  have hle : ¬ (necFrameUs : Rat) ≤ acc := not_le.2 h
  rw [necActive, if_neg hle]

/-- The active frame ends at a pair boundary at or past 108000 microseconds, or with less than a pair left. -/
theorem necActive_end {t acc : Rat} {rest : List Rat} (h : 108000 ≤ acc ∨ rest.length ≤ 1) :
    necActive t acc rest = ([], rest) := by
  match rest with
  | [] | [_] => rfl
  | p :: s :: rest =>
    have hle : (necFrameUs : Rat) ≤ acc := h.resolve_right (by simp)
    rw [necActive, if_pos hle]

theorem necActive_pairs {t acc : Rat} {active : List (Rat × Rat)} {rest : List Rat}
    (hbefore : ∀ k < active.length, acc + pairsDur (active.take k) < 108000)
    (hend : 108000 ≤ acc + pairsDur active ∨ rest.length ≤ 1) :
    necActive t acc (flatPairs active ++ rest) = (active.map fun p => necSymbol t p.1 p.2, rest) := by
  induction active generalizing acc with
  | nil =>
    rw [pairsDur, List.map_nil, List.sum_nil, add_zero] at hend
    exact necActive_end hend
  | cons p active ih =>
    have hfirst : acc < 108000 := by simpa [pairsDur] using hbefore 0 (Nat.succ_pos _)
    have hassoc (ps : List (Rat × Rat)) : acc + p.1 + p.2 + pairsDur ps = acc + pairsDur (p :: ps) := by
      rw [pairsDur_cons]
      ring
    have hnext := ih (acc := acc + p.1 + p.2)
      (fun k hk => by rw [hassoc]; exact hbefore (k + 1) (Nat.succ_lt_succ hk)) (by rwa [hassoc])
    rw [flatPairs_cons, List.cons_append, List.cons_append, necActive_of_lt hfirst, hnext]
    rfl

/-! ## NEC: trailing unknown symbols (R190) -/

theorem stripTrailing_eq_rdropWhile (xs : List Symbol) : stripTrailing xs = xs.rdropWhile (· == .unknown) := rfl

theorem getLast?_stripTrailing (xs : List Symbol) : (stripTrailing xs).getLast? ≠ some .unknown := by
  intro h
  have hne : stripTrailing xs ≠ [] := by
    intro hnil
    rw [hnil] at h
    cases h
  rw [List.getLast?_eq_some_getLast hne, Option.some_inj] at h
  exact List.rdropWhile_last_not (fun x => x == Symbol.unknown) xs hne (beq_iff_eq.2 h)

theorem stripTrailing_append_unknowns (xs : List Symbol) : ∃ n, xs = stripTrailing xs ++ List.replicate n .unknown := by
  have hunknown : ∀ x ∈ xs.rtakeWhile (fun x => x == Symbol.unknown), x = .unknown := fun x hx =>
    beq_iff_eq.1 (List.mem_rtakeWhile_imp (p := fun x => x == Symbol.unknown) hx)
  refine ⟨(xs.rtakeWhile fun x => x == Symbol.unknown).length, ?_⟩
  rw [← List.eq_replicate_of_mem hunknown]
  exact (List.rdropWhile_append_rtakeWhile).symm

/-- Stripping gives back a list that does not end in `?`. -/
theorem stripTrailing_of_append {xs : List Symbol} (h : xs.getLast? ≠ some .unknown) (n : Nat) :
    stripTrailing (xs ++ List.replicate n .unknown) = xs := by
  rw [stripTrailing_eq_rdropWhile]
  induction n with
  | zero =>
    rw [List.replicate_zero, List.append_nil, List.rdropWhile_eq_self_iff]
    intro hne hlast
    exact h (by rw [List.getLast?_eq_some_getLast hne, beq_iff_eq.1 hlast])
  | succ n ih => rw [List.replicate_succ', ← List.append_assoc, List.rdropWhile_concat_pos _ _ _ rfl, ih]

/-! ## NEC: leader and repeat markers (R189, R191) -/

theorem necLeader_of_leader {t lp ls : Rat} (hp : mult lp t = 15 ∨ mult lp t = 16 ∨ mult lp t = 17)
    (hs : mult ls t = 7 ∨ mult ls t = 8 ∨ mult ls t = 9) (rest : List Rat) :
    necLeader t (lp :: ls :: rest) = some (lp + ls, rest) := by
  have htest : ((mult lp t == 15 || mult lp t == 16 || mult lp t == 17) && (mult ls t == 7 || mult ls t == 8 || mult ls t == 9))
      = true := by
    simp only [Bool.and_eq_true, Bool.or_eq_true, beq_iff_eq]
    omega
  rw [necLeader, if_pos htest]

theorem necRepeats_pairs (t : Rat) (ps : List (Rat × Rat)) (lone : Option Rat) :
    necRepeats t (flatPairs ps ++ lone.toList)
      = List.replicate (ps.filter fun p => decide (mult p.1 t = 16 ∧ mult p.2 t = 4)).length .repeated := by
  induction ps with
  | nil => cases lone <;> rfl
  | cons p ps ih =>
    rw [flatPairs_cons, List.cons_append, List.cons_append, necRepeats, ih]
    by_cases h : mult p.1 t = 16 ∧ mult p.2 t = 4
    · simp only [List.filter_cons, decide_eq_true_eq, if_pos h, List.length_cons, List.replicate_succ]
    · simp only [List.filter_cons, decide_eq_true_eq, if_neg h]

/-- `DecodeNEC` of an array with a leader at index 0 (R189 to R191). -/
theorem decodeNec_of_leader {t lp ls : Rat} {active after : List (Rat × Rat)} {lone : Option Rat}
    (hp : mult lp t = 15 ∨ mult lp t = 16 ∨ mult lp t = 17) (hs : mult ls t = 7 ∨ mult ls t = 8 ∨ mult ls t = 9)
    (hbefore : ∀ k < active.length, lp + ls + pairsDur (active.take k) < 108000)
    (hend : after ≠ [] → 108000 ≤ lp + ls + pairsDur active) :
    decodeNec t (lp :: ls :: (flatPairs active ++ flatPairs after ++ lone.toList))
      = .bits (stripTrailing (active.map fun p => necSymbol t p.1 p.2))
          :: List.replicate (after.filter fun p => decide (mult p.1 t = 16 ∧ mult p.2 t = 4)).length .repeated := by
  have hstop : 108000 ≤ lp + ls + pairsDur active ∨ (flatPairs after ++ lone.toList).length ≤ 1 := by
    by_cases hafter : after = []
    · right
      subst hafter
      cases lone <;> simp [flatPairs]
    · exact .inl (hend hafter)
  rw [decodeNec, necLeader_of_leader hp hs, List.append_assoc]
  dsimp only
  rw [necActive_pairs hbefore hstop, necRepeats_pairs]

/-- Settles O54. -/
theorem decodeNecFrame : Obligations.DecodeNecFrame := by
  unfold Obligations.DecodeNecFrame
  intro t lp ls active after lone hp hs hbefore hend flat symbols repeats
  exact ⟨_, decodeNec_of_leader hp hs hbefore hend, getLast?_stripTrailing _, stripTrailing_append_unknowns symbols⟩

/-! ## AEHA: one equation per case of the walk (R193) -/

theorem aehaFinal_eq (cur : List Symbol) : aehaFinal cur = if cur = [] then [] else [.bits cur] := by
  cases cur <;> rfl

/-- The lookahead after a tracer succeeds: a fresh leader comes next (R193). -/
def FreshLeader (t : Rat) (next : List Rat) : Prop :=
  ∃ l0 l1, next[0]? = some l0 ∧ next[1]? = some l1 ∧ mult l0 t = 8 ∧ mult l1 t = 4

section
variable {t s : Rat}

theorem aehaWalk_of_length_le_one {d : List Rat} (h : d.length ≤ 1) (cur : List Symbol) :
    aehaWalk t d cur = aehaFinal cur := by
  match d with
  | [] | [_] => rfl
  | _ :: _ :: _ => simp at h

theorem aehaWalk_of_symbol (h : mult s t ≤ 3) (p : Rat) (rest : List Rat) (cur : List Symbol) :
    aehaWalk t (p :: s :: rest) cur = aehaWalk t rest (cur ++ [aehaSymbol (mult s t)]) := by
  match rest with
  | [] | [_] | _ :: _ :: _ => simp only [aehaWalk, if_neg (Nat.not_lt.2 h)]

theorem aehaWalk_of_tracer (h : 3 < mult s t) {l0 l1 : Rat} (hl0 : mult l0 t = 8) (hl1 : mult l1 t = 4) (p : Rat)
    (rest : List Rat) (cur : List Symbol) :
    aehaWalk t (p :: s :: l0 :: l1 :: rest) cur = .bits cur :: aehaWalk t rest [] := by
  rw [aehaWalk, if_pos h, if_pos ⟨hl0, hl1⟩]

theorem aehaWalk_of_false_tracer {rest : List Rat} (h : 3 < mult s t) (hnot : ¬ FreshLeader t rest) (p : Rat)
    (cur : List Symbol) : aehaWalk t (p :: s :: rest) cur = aehaWalk t (s :: rest) cur := by
  match rest with
  | [] | [_] => rw [aehaWalk, if_pos h]; simp
  | l0 :: l1 :: rest =>
    have hlead : ¬ (mult l0 t = 8 ∧ mult l1 t = 4) := fun hl => hnot ⟨l0, l1, rfl, rfl, hl⟩
    rw [aehaWalk, if_pos h, if_neg hlead]

end

theorem drop_of_getElem? {d : List Rat} {j : Nat} {x : Rat} (h : d[j]? = some x) : d.drop j = x :: d.drop (j + 1) := by
  rw [List.drop_eq_getElem?_toList_append, h]
  rfl

/-- The cases of the walk at a position of the array. -/
theorem aehaWalk_at (t : Rat) (d : List Rat) (j : Nat) (cur : List Symbol) :
    (d.length ≤ j + 1 → aehaWalk t (d.drop j) cur = aehaFinal cur)
      ∧ ∀ s, d[j + 1]? = some s →
        (mult s t ≤ 3 → aehaWalk t (d.drop j) cur = aehaWalk t (d.drop (j + 2)) (cur ++ [aehaSymbol (mult s t)]))
        ∧ (3 < mult s t → FreshLeader t (d.drop (j + 2)) →
            aehaWalk t (d.drop j) cur = .bits cur :: aehaWalk t (d.drop (j + 4)) [])
        ∧ (3 < mult s t → ¬ FreshLeader t (d.drop (j + 2)) →
            aehaWalk t (d.drop j) cur = aehaWalk t (d.drop (j + 1)) cur) := by
  refine ⟨fun hlen => aehaWalk_of_length_le_one (by rw [List.length_drop]; omega) cur, fun s hs => ?_⟩
  obtain ⟨p, hp⟩ : ∃ p, d[j]? = some p :=
    ⟨_, List.getElem?_eq_getElem (Nat.lt_of_succ_lt (List.getElem?_eq_some_iff.1 hs).1)⟩
  rw [drop_of_getElem? hp, drop_of_getElem? hs]
  refine ⟨fun h => aehaWalk_of_symbol h p _ cur, fun h hfresh => ?_, fun h hnot => aehaWalk_of_false_tracer h hnot p cur⟩
  obtain ⟨l0, l1, h0, h1, hl0, hl1⟩ := hfresh
  rw [List.getElem?_drop] at h0 h1
  rw [drop_of_getElem? h0, drop_of_getElem? h1]
  exact aehaWalk_of_tracer h hl0 hl1 p _ cur

/-! ## AEHA: arrays of runs (R193) -/

/-- The symbols of AEHA pairs. -/
def aehaSymbols (t : Rat) (ps : List (Rat × Rat)) : List Symbol := ps.map fun p => aehaSymbol (mult p.2 t)

theorem aehaWalk_pairs {t : Rat} {ps : List (Rat × Rat)} (h : ∀ p ∈ ps, mult p.2 t ≤ 3) (rest : List Rat)
    (cur : List Symbol) : aehaWalk t (flatPairs ps ++ rest) cur = aehaWalk t rest (cur ++ aehaSymbols t ps) := by
  induction ps generalizing cur with
  | nil => rw [aehaSymbols, List.map_nil, List.append_nil]; rfl
  | cons p ps ih =>
    rw [List.forall_mem_cons] at h
    rw [flatPairs_cons, List.cons_append, List.cons_append, aehaWalk_of_symbol h.1, ih h.2, List.append_assoc]
    rfl

/-- A lone element or a tracer pair at the very end adds nothing. -/
theorem aehaWalk_end {t : Rat} {rest : List Rat} (h : rest.length ≤ 1 ∨ ∃ q r, rest = [q, r] ∧ 3 < mult r t)
    (cur : List Symbol) : aehaWalk t rest cur = aehaFinal cur := by
  rcases h with hlen | ⟨q, r, rfl, hr⟩
  · exact aehaWalk_of_length_le_one hlen cur
  · have hnot : ¬ FreshLeader t [] := fun ⟨_, _, h0, _⟩ => nomatch h0
    rw [aehaWalk_of_false_tracer hr hnot]
    rfl

/-- A frame that is followed by another: its pairs, the tracer pair and the fresh leader. -/
abbrev AehaRun := List (Rat × Rat) × (Rat × Rat) × Rat × Rat

/-- The elements of a run. -/
def AehaRun.flat (g : AehaRun) : List Rat := flatPairs g.1 ++ [g.2.1.1, g.2.1.2, g.2.2.1, g.2.2.2]

/-- A run decodes: every space of its pairs gives a symbol, and its tracer and its leader are ones. -/
def AehaRun.Ok (t : Rat) (g : AehaRun) : Prop :=
  (∀ x ∈ g.1, mult x.2 t ≤ 3) ∧ 3 < mult g.2.1.2 t ∧ mult g.2.2.1 t = 8 ∧ mult g.2.2.2 t = 4

theorem aehaWalk_runs {t : Rat} {runs : List AehaRun} (h : ∀ g ∈ runs, g.Ok t) (rest : List Rat) :
    aehaWalk t (runs.flatMap AehaRun.flat ++ rest) [] = (runs.map fun g => .bits (aehaSymbols t g.1)) ++ aehaWalk t rest [] := by
  induction runs with
  | nil => rfl
  | cons g runs ih =>
    rw [List.forall_mem_cons] at h
    obtain ⟨hpairs, htracer, hl0, hl1⟩ := h.1
    rw [List.flatMap_cons, AehaRun.flat, List.append_assoc, List.append_assoc, aehaWalk_pairs hpairs, List.nil_append]
    simp only [List.cons_append, List.nil_append]
    rw [aehaWalk_of_tracer htracer hl0 hl1, ih h.2]
    rfl

/-- Settles O55: the equations at a position, and the walk over the runs one after another. -/
theorem decodeAehaFrames : Obligations.DecodeAehaFrames := by
  unfold Obligations.DecodeAehaFrames
  intro t symbol last flat symbols
  have hlast (cur : List Symbol) : last cur = aehaFinal cur := (aehaFinal_eq cur).symm
  refine ⟨fun _ => rfl, ?_, fun l0 l1 runs final rest hruns hfinal hrest => ?_⟩
  · intro d j cur freshLeader
    have hfresh : freshLeader ↔ FreshLeader t (d.drop (j + 2)) := by simp only [freshLeader, FreshLeader, List.getElem?_drop]
    rw [hlast, hfresh]
    exact aehaWalk_at t d j cur
  · rw [hlast, List.append_assoc]
    refine (aehaWalk_runs hruns (flatPairs final ++ rest)).trans ?_
    rw [aehaWalk_pairs hfinal, aehaWalk_end hrest]
    rfl

end Sys2Proof.Proofs
end

section
/-! PROOFS. The NEC session (R197): the frame that the encoder commands build from 32 bits, and its flat array. -/

namespace Sys2Proof.Proofs
open Sys2Proof.Machine

/-! ## Capacities and the state of the session -/

/-- The capacities hold a NEC session of 32 bits and its flat array. -/
structure HoldsNecSession (c : Config) : Prop where
  tokens : fits c.maxTokens 2 = true
  frames : fits c.maxFrames 1 = true
  entries : fits c.maxEntries 70 = true
  hist : fits c.maxHist 32 = true
  ticks : fits c.maxDecTicks 70 = true

/-- A session with the NEC spec that has one frame and has been sent `bits`. -/
structure NecSession (c : Config) (f : Frame) (bits : List Bool) (s : State) : Prop where
  cfg : s.cfg = c
  aspec : s.aspec = necSpec
  frames : s.frames = [f]
  hist : s.hist = bits

theorem NecSession.answered {c : Config} {f : Frame} {bits : List Bool} {s : State} (h : NecSession c f bits s) (op : Byte)
    (d : BitVec 3) (ws : List Word) : NecSession c f bits (answered op d ws s) :=
  ⟨h.cfg, h.aspec, h.frames, h.hist⟩

theorem NecSession.openFrame {c : Config} {es : List Entry} {bits : List Bool} {s : State}
    (h : NecSession c ⟨es, false⟩ bits s) : openFrame s ⟨es, false⟩ :=
  ⟨by rw [h.frames]; rfl, rfl⟩

theorem NecSession.sessionFits {c : Config} {f : Frame} {bits : List Bool} {s : State} (h : NecSession c f bits s)
    (hc : HoldsNecSession c) (hentries : f.entries.length ≤ 70) (hbits : bits.length ≤ 32) : sessionFits s = true := by
  simp [Machine.sessionFits, h.cfg, h.frames, h.hist, hc.frames, fits_mono hc.entries hentries, fits_mono hc.hist hbits]

theorem runCommands_append {is : List Instr} {s t : State} (js : List Instr) (h : runCommands is s = .next t) :
    runCommands (is ++ js) s = runCommands js t := by
  rw [runCommands, List.foldl_append, ← runCommands, h]
  rfl

/-! ## Entries of whole microseconds (R143, R146) -/

/-- Frame entries of whole microseconds. -/
def usEntries (ns : List Nat) : List Entry := ns.map fun n : Nat => .us (n : Rat)

theorem usEntries_append (ms ns : List Nat) : usEntries (ms ++ ns) = usEntries ms ++ usEntries ns := List.map_append

theorem usEntries_length (ns : List Nat) : (usEntries ns).length = ns.length := List.length_map _

theorem dur_usEntries (ns : List Nat) : dur (usEntries ns) = (ns.sum : Nat) := by
  induction ns with
  | nil => rfl
  | cons n ns ih =>
    have hcons : dur (usEntries (n :: ns)) = n + dur (usEntries ns) := List.sum_cons
    rw [hcons, ih, List.sum_cons, Nat.cast_add]

theorem uqVal_wholeUs {k : Nat} (h : k < 2 ^ 20) : uqVal (wholeUs k) = k := by
  rw [uqVal, wholeUs, BitVec.toNat_ofNat, Nat.mod_eq_of_lt (by omega)]
  push_cast
  ring

/-- A token `<k>T` of the NEC spec appends `562 k` microseconds. -/
theorem appendToken_timesT {k : Nat} (hpos : 0 < k) (hlt : k < 2 ^ 20) (b : Build) :
    appendToken (uqVal necSpec.t) b (timesT k) = (b.1 ++ usEntries [562 * k], b.2) := by
  have hresolve : resolve (uqVal necSpec.t) (timesT k) = .us ((562 * k : Nat) : Rat) := by
    have ht : uqVal necSpec.t = 562 := uqVal_wholeUs (by decide)
    have hk : uqVal (timesT k).mag = k := uqVal_wholeUs hlt
    rw [resolve, ht, hk]
    push_cast
    rw [mul_comm]
    rfl
  have hvalue : entryValue (resolve (uqVal necSpec.t) (timesT k)) ≠ 0 := by
    rw [hresolve]
    exact Nat.cast_ne_zero.2 (by omega)
  rw [appendToken_of_untagged rfl hvalue, hresolve]
  rfl

theorem appendTokens_timesT_pair {j k : Nat} (hj : 0 < j ∧ j < 2 ^ 20) (hk : 0 < k ∧ k < 2 ^ 20) (b : Build) :
    appendTokens (uqVal necSpec.t) [timesT j, timesT k] b = (b.1 ++ usEntries [562 * j, 562 * k], b.2) := by
  rw [appendTokens_cons, appendTokens_cons, appendTokens_nil, appendToken_timesT hj.1 hj.2, appendToken_timesT hk.1 hk.2,
    List.append_assoc, ← usEntries_append]
  rfl

/-! ## The frame of the session -/

/-- The space of a NEC bit, in microseconds. -/
def bitSpace (b : Bool) : Nat := if b then 1686 else 562

/-- The pulses and spaces of NEC bits, in microseconds. -/
def bitsUs (bits : List Bool) : List Nat := bits.flatMap fun b => [562, bitSpace b]

theorem bitsUs_cons (b : Bool) (bits : List Bool) : bitsUs (b :: bits) = 562 :: bitSpace b :: bitsUs bits := rfl

theorem bitsUs_length (bits : List Bool) : (bitsUs bits).length = 2 * bits.length := by
  induction bits with
  | nil => rfl
  | cons b bits ih =>
    rw [bitsUs_cons, List.length_cons, List.length_cons, List.length_cons, ih]
    omega

theorem bitSpace_bounds (b : Bool) : 562 ≤ bitSpace b ∧ bitSpace b ≤ 1686 := by cases b <;> decide

theorem bitsUs_sum_bounds (bits : List Bool) :
    1124 * bits.length ≤ (bitsUs bits).sum ∧ (bitsUs bits).sum ≤ 2248 * bits.length := by
  induction bits with
  | nil => decide
  | cons b bits ih =>
    have := bitSpace_bounds b
    rw [bitsUs_cons, List.sum_cons, List.sum_cons, List.length_cons]
    omega

theorem le_of_mem_bitsUs {bits : List Bool} {n : Nat} (h : n ∈ bitsUs bits) : n ≤ 1686 := by
  obtain ⟨b, -, hn⟩ := List.mem_flatMap.1 h
  have := bitSpace_bounds b
  simp only [List.mem_cons, List.not_mem_nil, or_false] at hn
  omega

/-- Leader and bits of the frame, in microseconds. -/
def sentUs (bits : List Bool) : List Nat := 8992 :: 4496 :: bitsUs bits

/-- The gap between the content of the frame and its 108000 microseconds, in ticks. -/
def gapTicks (bits : List Bool) : Nat := 2 * (108000 - (sentUs bits ++ [562]).sum)

theorem sentUs_length {bits : List Bool} (h : bits.length = 32) : (sentUs bits).length = 66 := by
  rw [sentUs, List.length_cons, List.length_cons, bitsUs_length, h]

theorem sum_stopped (bits : List Bool) : (sentUs bits ++ [562]).sum = 14050 + (bitsUs bits).sum := by
  rw [List.sum_append, sentUs, List.sum_cons, List.sum_cons, List.sum_singleton]
  omega

theorem gapTicks_bounds {bits : List Bool} (h : bits.length = 32) :
    44028 ≤ gapTicks bits ∧ gapTicks bits ≤ 115964 ∧ 2 * (sentUs bits ++ [562]).sum + gapTicks bits = 216000 := by
  obtain ⟨hlo, hhi⟩ := bitsUs_sum_bounds bits
  rw [gapTicks, sum_stopped]
  omega

/-- A gap of at most two full pieces. -/
theorem split_cases {p : Nat} (h : p ≤ 131070) :
    p ≤ 65535 ∧ split p = [p] ∨ 65535 < p ∧ split p = [65535, 0, p - 65535] := by
  rcases Nat.lt_or_ge 65535 p with hlt | hle
  · exact .inr ⟨hlt, by rw [split_of_lt hlt, split_of_le (by rw [tickMax_eq]; omega), tickMax_eq]⟩
  · exact .inl ⟨hle, split_of_le hle⟩

theorem split_gapTicks_length {bits : List Bool} (h : bits.length = 32) : (split (gapTicks bits)).length ≤ 3 := by
  obtain ⟨-, hhi, -⟩ := gapTicks_bounds h
  rcases split_cases (p := gapTicks bits) (by omega) with ⟨-, hsplit⟩ | ⟨-, hsplit⟩ <;> simp [hsplit]

/-- The frame after TERMINATE: leader, bits, stop token and padding. -/
def sentFrame (bits : List Bool) : Frame :=
  ⟨usEntries (sentUs bits ++ [562]) ++ (split (gapTicks bits)).map fun k : Nat => .tk (k : Rat), true⟩

theorem sentFrame_length {bits : List Bool} (h : bits.length = 32) : (sentFrame bits).entries.length ≤ 70 := by
  have := split_gapTicks_length h
  have := sentUs_length h
  simp only [sentFrame, List.length_append, usEntries_length, List.length_map, List.length_singleton]
  omega

theorem bitsBuilt_necSpec (ns : List Nat) (bits : List Bool) :
    bitsBuilt necSpec (usEntries ns) bits = (usEntries (ns ++ bitsUs bits), 0) := by
  have hbit (b : Bool) (es : List Entry) :
      appendTokens (uqVal necSpec.t) (if b then necSpec.bit1 else necSpec.bit0) (es, 0)
        = (es ++ usEntries [562, bitSpace b], 0) := by
    cases b <;> exact appendTokens_timesT_pair (by decide) (by decide) (es, 0)
  rw [bitsBuilt]
  induction bits generalizing ns with
  | nil => rw [bitsUs, List.flatMap_nil, List.append_nil]; rfl
  | cons b bits ih => rw [List.foldl_cons, hbit, ← usEntries_append, ih, List.append_assoc]; rfl

/-- What TERMINATE makes of the content of the frame (R152, R153). -/
theorem padClose_sent {bits : List Bool} (h : bits.length = 32) :
    (padClose (uqVal necSpec.frame) (appendTokens (uqVal necSpec.t) necSpec.stop.toList (usEntries (sentUs bits), 0))).1
      = (sentFrame bits).entries := by
  obtain ⟨hlo, -, htotal⟩ := gapTicks_bounds h
  have htarget : uqVal necSpec.frame = (108000 : Nat) := uqVal_wholeUs (by decide)
  have hstop : appendTokens (uqVal necSpec.t) necSpec.stop.toList (usEntries (sentUs bits), 0)
      = (usEntries (sentUs bits ++ [562]), 0) := by
    rw [usEntries_append]
    exact appendToken_timesT (by decide) (by decide) _
  have hgap : (2 : Rat) * ((108000 : Nat) - dur (usEntries (sentUs bits ++ [562]))) = (gapTicks bits : Nat) := by
    have hcast : (2 : Rat) * ((sentUs bits ++ [562]).sum : Nat) + (gapTicks bits : Nat) = (216000 : Nat) := mod_cast htotal
    rw [dur_usEntries, eq_sub_of_add_eq' hcast]
    norm_num
    ring
  have hpos : (0 : Rat) < (gapTicks bits : Nat) := Nat.cast_pos.2 (by omega)
  have hodd : ¬ (usEntries (sentUs bits ++ [562])).length % 2 = 0 := by
    rw [usEntries_length, List.length_append, sentUs_length h]
    decide
  rw [hstop, htarget, padClose_of_lt (by norm_num) (by linarith), hgap, rhu_natCast, pad_of_ne_zero (by omega), if_neg hodd,
    List.append_nil]
  rfl

/-! ## The commands of the session -/

section
variable {c : Config} (hc : HoldsNecSession c)
include hc

theorem exec_begin_nec {s : State} (hcfg : s.cfg = c) (hspec : s.spec = necSpec) :
    ∃ t, exec .begin s = .next t ∧ NecSession c ⟨usEntries [8992, 4496], false⟩ [] t := by
  have hbuild : (appendTokens (uqVal s.spec.t) s.spec.leader ([], 0)).1 = usEntries [8992, 4496] := by
    rw [hspec]
    exact congrArg Prod.fst (appendTokens_timesT_pair (j := 16) (k := 8) (by decide) (by decide) ([], 0))
  obtain ⟨hok, -⟩ := beginStartsASession s
  refine ⟨_, hok ?_, ⟨hcfg, hspec, ?_, rfl⟩⟩
  · rw [hbuild, hcfg, Bool.and_eq_true]
    exact ⟨fits_mono hc.entries (by decide), hc.frames⟩
  · rw [← hbuild]
    rfl

theorem exec_appendBits_nec {s : State} {bits : List Bool} (hbits : bits.length = 32)
    (h : NecSession c ⟨usEntries [8992, 4496], false⟩ [] s) :
    ∃ t, exec (.appendBits bits) s = .next t ∧ NecSession c ⟨usEntries (sentUs bits), false⟩ bits t := by
  have hsession : NecSession c ⟨usEntries (sentUs bits), false⟩ bits
      (afterBits ⟨usEntries [8992, 4496], false⟩ bits s) := by
    refine ⟨h.cfg, h.aspec, ?_, ?_⟩
    · simp only [afterBits, h.frames, h.aspec, bitsBuilt_necSpec]
      rfl
    · simp only [afterBits, h.hist]
      rfl
  obtain ⟨hopen, -⟩ := appendBitCommandsAppendBits (.appendBits bits) 0x33 bits s rfl
  have hlen : (usEntries (sentUs bits)).length ≤ 70 := by
    rw [usEntries_length, sentUs_length hbits]
    decide
  exact ⟨_, (hopen _ h.openFrame).1 (hsession.sessionFits hc hlen hbits.le), hsession.answered _ _ _⟩

theorem exec_terminate_nec {s : State} {bits : List Bool} (hbits : bits.length = 32)
    (h : NecSession c ⟨usEntries (sentUs bits), false⟩ bits s) :
    ∃ t, exec .terminate s = .next t ∧ NecSession c (sentFrame bits) bits t := by
  obtain ⟨hopen, -⟩ := terminateClosesTheFrame s
  have hclose := (hopen _ h.openFrame).1
  have hbuild : (padClose (uqVal s.aspec.frame)
      (appendTokens (uqVal s.aspec.t) s.aspec.stop.toList (usEntries (sentUs bits), 0))).1 = (sentFrame bits).entries := by
    rw [h.aspec, padClose_sent hbits]
  rw [hbuild] at hclose
  have hsession : NecSession c (sentFrame bits) bits
      { s with frames := s.frames.dropLast ++ [{ entries := (sentFrame bits).entries, closed := true }] } :=
    ⟨h.cfg, h.aspec, by simp only [h.frames]; rfl, h.hist⟩
  exact ⟨_, hclose (hsession.sessionFits hc (sentFrame_length hbits) hbits.le), hsession.answered _ _ _⟩

end

/-- TO_TICKS answers words that are tick counts for DECODE (R170, R175). -/
theorem exec_toTicks_halves {s : State} (h : (flatten s.frames).length ≤ 65535) :
    ∃ ks : List Half, ks.map (·.toNat) = flatten s.frames
      ∧ exec .toTicks s = .next (answered 0x39 0 (ks.map fun k => k.setWidth 32) s) := by
  obtain ⟨hfits, -, -⟩ := toTicksEmitsTheFlatArray s
  obtain ⟨ws, hflat, hle, hexec⟩ := hfits h
  have hhalf : ∀ w ∈ ws, (w.setWidth 16).toNat = w.toNat := fun w hw => by
    have := hle w hw
    rw [BitVec.toNat_setWidth, Nat.mod_eq_of_lt (by omega)]
  refine ⟨ws.map fun w => w.setWidth 16, ?_, ?_⟩
  · rw [← hflat, List.map_map]
    exact List.map_congr_left hhalf
  · have hwords : (ws.map fun w => w.setWidth 16).map (fun k : Half => (k.setWidth 32 : Word)) = ws := by
      rw [List.map_map]
      refine (List.map_congr_left fun w hw => ?_).trans (List.map_id ws)
      apply BitVec.eq_of_toNat_eq
      rw [Function.comp_apply, BitVec.toNat_setWidth_of_le (by decide), hhalf w hw, id]
    rw [hwords]
    exact hexec

/-- The session of R197 from any state whose capacities hold it. -/
theorem runCommands_necSession {s : State} {bits : List Bool} (hc : HoldsNecSession s.cfg) (hbits : bits.length = 32) :
    ∃ t, runCommands (specNecCommands ++ [.begin, .appendBits bits, .terminate]) s = .next t
      ∧ NecSession s.cfg (sentFrame bits) bits t := by
  obtain ⟨u, hspec, hu⟩ := specNecLeavesTheNecSpec s hc.tokens
  obtain ⟨v, hbegin, hv⟩ := exec_begin_nec (s := u) hc (by rw [hu]) (by rw [hu])
  obtain ⟨x, happend, hx⟩ := exec_appendBits_nec hc hbits hv
  obtain ⟨t, hterminate, ht⟩ := exec_terminate_nec hc hbits hx
  refine ⟨t, ?_, ht⟩
  rw [runCommands_append _ hspec, runCommands_cons _ hbegin, runCommands_cons _ happend, runCommands_cons _ hterminate]
  rfl

/-! ## The flat array of the session -/

theorem flattenFrame_usEntries {ns : List Nat} (h : ∀ n ∈ ns, 2 * n ≤ 65535) (closed : Bool) :
    flattenFrame ⟨usEntries ns, closed⟩ = ns.map (2 * ·) := by
  induction ns with
  | nil => rfl
  | cons n ns ih =>
    rw [List.forall_mem_cons] at h
    have htick : toTick (.us (n : Rat)) = 2 * n := by
      rw [toTick, usToTicks, ← rhu_natCast (2 * n)]
      push_cast
      rfl
    have hcons : usEntries (n :: ns) = .us (n : Rat) :: usEntries ns := rfl
    rw [hcons, flattenFrame_cons, htick, split_of_le h.1, ih h.2]
    rfl

theorem flattenFrame_ticks {ks : List Nat} (h : ∀ k ∈ ks, k ≤ 65535) (closed : Bool) :
    flattenFrame ⟨ks.map fun k : Nat => .tk (k : Rat), closed⟩ = ks := by
  induction ks with
  | nil => rfl
  | cons k ks ih =>
    rw [List.forall_mem_cons] at h
    have htick : toTick (.tk (k : Rat)) = k := rhu_natCast k
    rw [List.map_cons, flattenFrame_cons, htick, split_of_le h.1, ih h.2]
    rfl

theorem flatten_sentFrame (bits : List Bool) :
    flatten [sentFrame bits] = (sentUs bits).map (2 * ·) ++ 1124 :: split (gapTicks bits) := by
  have hus : ∀ n ∈ sentUs bits ++ [562], 2 * n ≤ 65535 := by
    intro n hn
    simp only [sentUs, List.cons_append, List.mem_cons, List.mem_append, List.not_mem_nil, or_false] at hn
    rcases hn with rfl | rfl | hbit | rfl
    · decide
    · decide
    · have := le_of_mem_bitsUs hbit
      omega
    · decide
  rw [flatten_cons, sentFrame, flattenFrame_append, flattenFrame_usEntries hus,
    flattenFrame_ticks (fun _ => le_of_mem_split), List.map_append, List.append_assoc, List.append_assoc]
  exact congrArg (_ ++ 1124 :: ·) (List.append_nil _)

theorem flatten_sentFrame_length {bits : List Bool} (h : bits.length = 32) : (flatten [sentFrame bits]).length ≤ 70 := by
  have := split_gapTicks_length h
  have := sentUs_length h
  rw [flatten_sentFrame, List.length_append, List.length_map, List.length_cons]
  omega

end Sys2Proof.Proofs
end

section
/-! PROOFS. The NEC round trip (R197): the ticks of the session as pairs, and what DECODE makes of them. -/

namespace Sys2Proof.Proofs
open Sys2Proof.Machine

/-! ## The flat array as pairs -/

/-- A NEC bit as a pair. -/
def bitPair (b : Bool) : Rat × Rat := (562, (bitSpace b : Nat))

/-- A pair that lasts and is no NEC symbol at the estimate of the session. -/
def SilentPair (x : Rat × Rat) : Prop := 0 < x.1 + x.2 ∧ necSymbol (1125 / 2) x.1 x.2 = .unknown

theorem silentPair_of_long_space {p s : Rat} (hp : 0 ≤ p) (hs : 2000 ≤ s) : SilentPair (p, s) := by
  have hshort {k : Nat} (hpos : 0 < k) (hk : k ≤ 3) : mult s (1125 / 2) ≠ k := by
    rw [Ne, mult_eq_iff _ _ (by norm_num) k hpos]
    rintro ⟨-, hlt⟩
    have hk3 : (k : Rat) ≤ 3 := mod_cast hk
    linarith
  refine ⟨by linarith, ?_⟩
  rw [necSymbol, if_neg fun h => hshort (by decide) (by decide) h.2, if_neg fun h => hshort (by decide) (by decide) h.2]

theorem silentPair_of_no_pulse {s : Rat} (hs : 0 < s) : SilentPair (0, s) := by
  have hzero : mult 0 (1125 / 2) ≠ 1 := by decide +kernel
  refine ⟨by linarith, ?_⟩
  rw [necSymbol, if_neg fun h => hzero h.1, if_neg fun h => hzero h.1]

/-- A tick count as a duration (R13). -/
def tickUs (k : Nat) : Rat := (k : Rat) / 2

theorem durations_eq_map_tickUs (ks : List Half) : durations ks = (ks.map (·.toNat)).map tickUs := by
  rw [List.map_map]
  rfl

/-- Stop pulse and padding as pairs: one, or two when the padding is split. -/
theorem stop_and_padding_pairs {p : Nat} (hlo : 44028 ≤ p) (hhi : p ≤ 115964) :
    ∃ closing, (1124 :: split p).map tickUs = flatPairs closing ∧ pairsDur closing = 562 + (p : Rat) / 2
      ∧ ∀ x ∈ closing, SilentPair x := by
  have hstop : tickUs 1124 = 562 := by norm_num [tickUs]
  rcases split_cases (p := p) (by omega) with ⟨hle, hsplit⟩ | ⟨hlt, hsplit⟩
  · have hlo' : (44028 : Rat) ≤ p := mod_cast hlo
    refine ⟨[(562, tickUs p)], by rw [hsplit, ← hstop]; rfl, by simp [pairsDur, tickUs], ?_⟩
    rw [List.forall_mem_singleton]
    exact silentPair_of_long_space (by norm_num) (by unfold tickUs; linarith)
  · have hrest : ((p - 65535 : Nat) : Rat) = p - 65535 := by rw [Nat.cast_sub hlt.le]; norm_num
    have hpos : (65535 : Rat) < p := mod_cast hlt
    refine ⟨[(562, tickUs 65535), (0, tickUs (p - 65535))], ?_, ?_, ?_⟩
    · have hzero : tickUs 0 = 0 := by norm_num [tickUs]
      rw [hsplit, ← hstop, ← hzero]
      rfl
    · simp only [pairsDur, tickUs, hrest, List.map_cons, List.map_nil, List.sum_cons, List.sum_nil]
      push_cast
      ring
    · rw [List.forall_mem_cons, List.forall_mem_singleton]
      exact ⟨silentPair_of_long_space (by norm_num) (by norm_num [tickUs]),
        silentPair_of_no_pulse (by rw [tickUs, hrest]; linarith)⟩

theorem bitsUs_pairs (bits : List Bool) :
    ((bitsUs bits).map (2 * ·)).map tickUs = flatPairs (bits.map bitPair)
      ∧ pairsDur (bits.map bitPair) = ((bitsUs bits).sum : Nat) := by
  have htick (n : Nat) : tickUs (2 * n) = n := by
    rw [tickUs]
    push_cast
    ring
  induction bits with
  | nil => exact ⟨rfl, rfl⟩
  | cons b bits ih =>
    simp only [bitsUs_cons, List.map_cons, List.sum_cons, flatPairs_cons, pairsDur_cons, htick, ih.1, ih.2, bitPair]
    push_cast
    exact ⟨rfl, by ring⟩

/-- The durations that TO_TICKS gives for the session: the leader, the bits, and pairs without a symbol up to 108000
microseconds. -/
theorem sentFrame_durations {bits : List Bool} (h : bits.length = 32) :
    ∃ closing, (flatten [sentFrame bits]).map tickUs = 8992 :: 4496 :: flatPairs (bits.map bitPair ++ closing)
      ∧ (∀ x ∈ closing, SilentPair x) ∧ 8992 + 4496 + pairsDur (bits.map bitPair ++ closing) = 108000 := by
  obtain ⟨hlo, hhi, htotal⟩ := gapTicks_bounds h
  obtain ⟨closing, hflat, hdur, hsilent⟩ := stop_and_padding_pairs hlo hhi
  obtain ⟨hbits, hbitsDur⟩ := bitsUs_pairs bits
  refine ⟨closing, ?_, hsilent, ?_⟩
  · have hp : tickUs (2 * 8992) = 8992 := by norm_num [tickUs]
    have hs : tickUs (2 * 4496) = 4496 := by norm_num [tickUs]
    rw [flatten_sentFrame, List.map_append, hflat, flatPairs_append, ← hbits, sentUs, List.map_cons, List.map_cons,
      List.map_cons, List.map_cons, hp, hs]
    rfl
  · rw [sum_stopped] at htotal
    have hcast : (2 : Rat) * (14050 + ((bitsUs bits).sum : Nat)) + gapTicks bits = 216000 := mod_cast htotal
    rw [pairsDur_append, hbitsDur, hdur]
    linarith

/-! ## What DECODE makes of it -/

/-- The leader of the session alone decides the classification. -/
theorem classifyTicks_necLeader (rest : List Rat) : classifyTicks (8992 :: 4496 :: rest) = some (.nec, 1125 / 2) := by
  have hset : ∀ f, qualifying f (8992 :: 4496 :: rest) = qualifying f [8992, 4496] := by intro f; cases f <;> rfl
  have hleader : classifyTicks [8992, 4496] = some (.nec, 1125 / 2) := by decide +kernel
  rw [← hleader]
  simp only [classifyTicks, classifyIn, hset]

/-- The symbol of a bit. -/
def bitSymbol (b : Bool) : Symbol := if b then .one else .zero

theorem necSymbol_bitPair (b : Bool) : necSymbol (1125 / 2) (bitPair b).1 (bitPair b).2 = bitSymbol b := by
  cases b <;> decide +kernel

theorem flatMap_symbolBits_bitSymbol (bits : List Bool) :
    (bits.map bitSymbol).flatMap symbolBits = bits.flatMap fun b => [false, b] := by
  rw [List.flatMap_map]
  exact List.flatMap_congr fun b _ => by cases b <;> rfl

theorem packBits_sent_length {bits : List Bool} (h : bits.length = 32) :
    (packBits (bits.flatMap fun b => [false, b])).length = 2 := by
  rw [packBits_length, ← flatMap_symbolBits_bitSymbol, flatMap_symbolBits_length, List.length_map, h]
  rfl

theorem pairsDur_take_lt {ps : List (Rat × Rat)} (hpos : ∀ x ∈ ps, 0 < x.1 + x.2) {k : Nat} (hk : k < ps.length) :
    pairsDur (ps.take k) < pairsDur ps := by
  have hrest : 0 < pairsDur (ps.drop k) := by
    refine List.sum_pos _ (fun y hy => ?_) (by simpa using hk)
    obtain ⟨x, hx, rfl⟩ := List.mem_map.1 hy
    exact hpos x (List.mem_of_mem_drop hx)
  have hsum := pairsDur_append (ps.take k) (ps.drop k)
  rw [List.take_append_drop] at hsum
  linarith

theorem decodeNec_sent {bits : List Bool} {closing : List (Rat × Rat)} (hsilent : ∀ x ∈ closing, SilentPair x)
    (htotal : 8992 + 4496 + pairsDur (bits.map bitPair ++ closing) = 108000) :
    decodeNec (1125 / 2) (8992 :: 4496 :: flatPairs (bits.map bitPair ++ closing)) = [.bits (bits.map bitSymbol)] := by
  have hpos : ∀ x ∈ bits.map bitPair ++ closing, 0 < x.1 + x.2 := by
    intro x hx
    rcases List.mem_append.1 hx with hbit | hclosing
    · obtain ⟨b, -, rfl⟩ := List.mem_map.1 hbit
      have : (0 : Rat) ≤ (bitSpace b : Nat) := Nat.cast_nonneg _
      simp only [bitPair]
      linarith
    · exact (hsilent x hclosing).1
  have hsymbols : (bits.map bitPair ++ closing).map (fun x => necSymbol (1125 / 2) x.1 x.2)
      = bits.map bitSymbol ++ List.replicate closing.length .unknown := by
    have hbits : bits.map ((fun x => necSymbol (1125 / 2) x.1 x.2) ∘ bitPair) = bits.map bitSymbol :=
      List.map_congr_left fun b _ => necSymbol_bitPair b
    rw [List.map_append, List.map_map, hbits, List.map_congr_left fun x hx => (hsilent x hx).2, List.map_const']
  have hlast : (bits.map bitSymbol).getLast? ≠ some .unknown := by
    intro h
    obtain ⟨b, -, hb⟩ := List.mem_map.1 (List.mem_of_getLast? h)
    cases b <;> cases hb
  have hdecode := decodeNec_of_leader (t := 1125 / 2) (lp := 8992) (ls := 4496) (active := bits.map bitPair ++ closing)
    (after := []) (lone := none) (by decide +kernel) (by decide +kernel)
    (fun k hk => by have := pairsDur_take_lt hpos hk; linarith) (fun h => absurd rfl h)
  rw [hsymbols, stripTrailing_of_append hlast] at hdecode
  simpa [flatPairs] using hdecode

theorem exec_decode_sent {ks : List Half} {t : State} {bits : List Bool} (hbits : bits.length = 32)
    (hks : ks.map (·.toNat) = flatten [sentFrame bits]) (hfit : fits t.cfg.maxDecTicks ks.length = true) :
    exec (.decode ks) t
      = .next (answered 0x41 0 (0x00010102 :: 0x00023280 :: 32 :: packBits (bits.flatMap fun b => [false, b])) t) := by
  obtain ⟨closing, hdurations, hsilent, htotal⟩ := sentFrame_durations hbits
  rw [← hks, ← durations_eq_map_tickUs] at hdurations
  have hfamily : decodeFamily t.cfg .nec (1125 / 2) (durations ks) = .ok [.bits (bits.map bitSymbol)] := by
    rw [decodeFamily, hdurations, decodeNec_sent hsilent htotal]
  have hwords : [DecFrame.bits (bits.map bitSymbol)].flatMap frameWords = 32 :: packBits (bits.flatMap fun b => [false, b]) := by
    rw [List.flatMap_singleton, frameWords, flatMap_symbolBits_bitSymbol, List.length_map, hbits, emitNat_of_lt (by decide)]
    rfl
  have hguess : guessWord ⟨some (.nec, 1125 / 2), [.bits (bits.map bitSymbol)]⟩ = 0x00010102 := by
    apply BitVec.eq_of_toNat_eq
    rw [guessWord_toNat (by simp), List.length_singleton]
    rfl
  have hunit : baseUnitWord (1125 / 2) = 0x00023280 := by decide +kernel
  obtain ⟨hok, -⟩ := exec_decode_of_family hfit (hdurations ▸ classifyTicks_necLeader _) hfamily
  rw [hwords, hguess, hunit] at hok
  refine hok ?_
  rw [List.length_cons, packBits_sent_length hbits]
  decide

/-- Settles O56: the session is run command by command, and the padding of its frame decodes to `?` symbols that are stripped. -/
theorem necRoundTrip : Obligations.NecRoundTrip := by
  unfold Obligations.NecRoundTrip
  intro bits s hbits htokens hframes hentries hhist hticks
  have hc : HoldsNecSession s.cfg := ⟨htokens, hframes, hentries, hhist, hticks⟩
  obtain ⟨u, hrun, hu⟩ := runCommands_necSession hc hbits
  have hlen := flatten_sentFrame_length hbits
  rw [← hu.frames] at hlen
  obtain ⟨ks, hks, htoTicks⟩ := exec_toTicks_halves (hlen.trans (by decide))
  have hrunAll : runCommands (specNecCommands ++ [.begin, .appendBits bits, .terminate, .toTicks]) s
      = .next (answered 0x39 0 (ks.map fun k => k.setWidth 32) u) := by
    have := runCommands_append [.toTicks] hrun
    rw [List.append_assoc, runCommands_cons _ htoTicks] at this
    exact this
  have hcount : ks.length ≤ 70 := by rwa [← hks, List.length_map] at hlen
  have hdecode := exec_decode_sent (t := answered 0x39 0 (ks.map fun k => k.setWidth 32) u) hbits (hu.frames ▸ hks)
    (by rw [(hu.answered _ _ _).cfg]; exact fits_mono hticks hcount)
  obtain ⟨w0, w1, hwords⟩ := List.length_eq_two.1 (packBits_sent_length hbits)
  rw [hwords] at hdecode
  refine ⟨_, ks, w0, w1, hrunAll, hu.hist, ?_, hdecode, (carriesBits_iff _ _).2 hwords⟩
  simp [answered]

end Sys2Proof.Proofs
end

section
/-! PROOFS. RD_STATUS (`45_system.md` R210): its six words as numbers, and the command. -/

namespace Sys2Proof.Proofs
open Sys2Proof.Machine

/-! ## The words of flags and of the last error -/

/-- The word into which RD_STATUS puts a flag, as a one-bit field. -/
theorem flagWord_eq_setWidth (b : Bool) : (if b then 1#32 else 0#32) = (BitVec.ofBool b).setWidth 32 := by
  cases b <;> rfl

theorem statusWord_toNat (s : State) :
    (statusWord s).toNat = s.ctrlObs.toNat * 2 ^ 16 + s.statusDiag.toNat * 2 ^ 8 + s.statusErr.toNat := by
  have hdiag := s.statusDiag.isLt
  have herr := s.statusErr.isLt
  rw [statusWord, flagWord_eq_setWidth, BitVec.or_assoc, BitVec.toNat_or, BitVec.toNat_or,
    toNat_setWidth_shiftLeft (by decide), toNat_setWidth_shiftLeft (by decide), BitVec.toNat_setWidth_of_le (by decide),
    mul_or_eq_add s.statusDiag.toNat herr, mul_or_eq_add _ (by omega), BitVec.toNat_ofBool, Nat.add_assoc]

theorem lastErrWord_toNat (s : State) : (lastErrWord s).toNat = s.lastErr.opcode.toNat * 2 ^ 8 + s.lastErr.code.toNat := by
  have hcode := s.lastErr.code.isLt
  rw [lastErrWord, BitVec.toNat_or, toNat_setWidth_shiftLeft (by decide), BitVec.toNat_setWidth_of_le (by decide),
    mul_or_eq_add _ (by omega)]

/-! ## What is reported of the frames -/

theorem frameOpen_of_openFrame {s : State} {f : Frame} (h : openFrame s f) : frameOpen s = true := by
  obtain ⟨hlast, hopen⟩ := h
  simp [frameOpen, hlast, hopen]

theorem frameOpen_of_noOpenFrame {s : State} (h : noOpenFrame s) : frameOpen s = false := by
  unfold frameOpen
  split
  next => rfl
  next f hlast => simp [h f hlast]

theorem frameCountWord_toNat {s : State} (h : s.frames.length < 65536) :
    (emitNat (((frameOpen s).toNat <<< 16) ||| s.frames.length)).toNat
      = (frameOpen s).toNat * 2 ^ 16 + s.frames.length := by
  have hopen := Bool.toNat_le (frameOpen s)
  rw [Nat.shiftLeft_eq, mul_or_eq_add _ h, emitNat_toNat (by omega)]

theorem currentLength_of_no_frames {s : State} (h : s.frames = []) : currentLength s = 0 := by
  simp [currentLength, h]

theorem currentLength_of_getLast? {s : State} {f : Frame} (h : s.frames.getLast? = some f) :
    currentLength s = f.entries.length := by
  simp [currentLength, h]

/-! ## The command -/

/-- Settles O14: each of the words in `statusWords` is read as a number; the length bounds keep the counts inside their words. -/
theorem rdStatusWords : Obligations.RdStatusWords := by
  unfold Obligations.RdStatusWords
  intro s hframes hhist hentries
  refine ⟨_, _, _, _, _, _, exec_of_emit (i := .rdStatus) (s := s) (ws := statusWords s) rfl (by simp [statusWords, maxRspWords]),
    statusWord_toNat s, lastErrWord_toNat s, fun f hopen => ?openCount, fun hno => ?closedCount,
    BitVec.toNat_setWidth_of_le (by decide), emitNat_toNat hhist, fun hnone => ?noFrame, fun f hlast => ?lastFrame⟩
  case openCount =>
    rw [frameCountWord_toNat hframes, frameOpen_of_openFrame hopen, Bool.toNat_true, Nat.one_mul]
    rfl
  case closedCount => rw [frameCountWord_toNat hframes, frameOpen_of_noOpenFrame hno, Bool.toNat_false, Nat.zero_mul, Nat.zero_add]
  case noFrame => exact (congrArg emitNat (currentLength_of_no_frames hnone)).trans (emitNat_of_lt (by decide))
  case lastFrame => rw [currentLength_of_getLast? hlast, emitNat_toNat (hentries f hlast)]

end Sys2Proof.Proofs
end

section
/-! PROOFS. Error entry (R228): how a step ends that takes a packet from `CMD`, and what it leaves when that is an error. -/

namespace Sys2Proof.Proofs
open Sys2Proof.Machine

/-! ## The `op` byte and the `err` field (R66, R74) -/

theorem respHeader_op (op : Byte) (err : BitVec 4) (diag : BitVec 3) (m : Nat) :
    (respHeader op err diag m).extractLsb' 24 8 = op := by
  apply word_ext
  intro i hi
  simp [respHeader, hi, show 24 + i < 32 by omega, BitVec.getLsbD_of_ge err (24 + i - 20) (by omega),
    BitVec.getLsbD_of_ge diag (24 + i - 17) (by omega), BitVec.getLsbD_of_ge (BitVec.ofNat 16 m) (24 + i) (by omega)]

theorem packetOp_respHeader (op : Byte) (err : BitVec 4) (diag : BitVec 3) (m : Nat) (payload : List Word) :
    packetOp ⟨respHeader op err diag m, payload⟩ = op := respHeader_op op err diag m

theorem responseErr_respHeader (op : Byte) (err : BitVec 4) (diag : BitVec 3) (m : Nat) (payload : List Word) :
    responseErr ⟨respHeader op err diag m, payload⟩ = err := respHeader_err op err diag m

theorem packetOp_encode (i : Instr) : packetOp (encode i) = opcodeByte i.opcode := by
  cases i with
  | specStop tok => cases tok <;> exact headerOp_mkHeader _ _ _
  | _ => exact headerOp_mkHeader _ _ _

theorem packetOp_of_decode {p : Packet} {i : Instr} (h : decode p = .ok i) : packetOp p = opcodeByte i.opcode := by
  obtain ⟨-, rfl⟩ := encode_of_decode h
  exact packetOp_encode i

/-! ## The step -/

/-- A packet that is no command is answered by an error entry, a command by an error entry or its reply; each echoes the `op` byte
received and is made from the state with the packet taken (R22, R225, R228). -/
theorem step_of_packet {s : State} {p : Packet} {rest : List Packet} (hreset : s.resetPin = false) (hcmd : s.cmd = p :: rest) :
    (∃ e, step s = .next (raiseError (packetOp p) e (withCmd s rest)))
      ∨ ∃ w, step s = .next (reply (packetOp p) w) ∧ KeepsOuter (withCmd s rest) w.state := by
  cases hdec : decode p with
  | error e => exact .inl ⟨_, step_reject hreset hcmd hdec⟩
  | ok i =>
    rw [step_command hreset hcmd hdec, packetOp_of_decode hdec]
    rcases exec_next i (withCmd s rest) with hraise | ⟨w, hw, -, hreply⟩
    · exact .inl hraise
    · exact .inr ⟨w, hreply, commandWork_keepsOuter i _ w hw⟩

/-- Settles O9: an error entry is made from the state before the command, and a reply has `err = 0`. -/
theorem errorsUndoTheCommand : Obligations.ErrorsUndoTheCommand := by
  unfold Obligations.ErrorsUndoTheCommand
  intro s p rest hreset hcmd
  rcases step_of_packet hreset hcmd with ⟨e, hraise⟩ | ⟨w, hreply, hkeep⟩
  · refine ⟨_, _, hraise, rfl, rfl, packetOp_respHeader _ _ _ _ _, fun _ => ?_⟩
    rw [responseErr_respHeader]
    exact ⟨rfl, rfl⟩
  · have hrsp := hkeep.rsp ▸ reply_rsp (packetOp p) w
    exact ⟨_, _, hreply, hkeep.cmd, hrsp, packetOp_respHeader _ _ _ _ _,
      fun herr => absurd (responseErr_respHeader _ _ _ _ _) herr⟩

end Sys2Proof.Proofs
end

section
/-! PROOFS. The errors of `commandWork`, said once for the 39 commands: which the table of R220 lists for the command, and that
`CapacityError` needs a bounded capacity (R226). -/

namespace Sys2Proof.Proofs
open Sys2Proof.Machine

/-! ## Operands that are malformed (R79, R103, R104, R121) -/

theorem error_of_map_eq_error {α β : Type} {x : Except ErrCode α} {g : α → β} {e : ErrCode} (h : x.map g = .error e) :
    x = .error e := by
  cases x with
  | error e' => cases h; rfl
  | ok a => cases h

theorem error_of_bind_eq_error {α β : Type} {x : Except ErrCode α} {g : α → Except ErrCode β} {e : ErrCode}
    (h : x.bind g = .error e) : x = .error e ∨ ∃ a, x = .ok a ∧ g a = .error e := by
  cases x with
  | error e' => cases h; exact .inl rfl
  | ok a => exact .inr ⟨a, rfl, h⟩

section
variable {e : ErrCode}

theorem parseToken_error {f : TokenField} (h : parseToken f = .error e) : e = .malformedInput := by
  unfold parseToken at h
  split at h <;> cases h
  rfl

theorem parseTokens_error {fs : List TokenField} (h : parseTokens fs = .error e) : e = .malformedInput := by
  induction fs with
  | nil => cases h
  | cons f fs ih =>
    unfold parseTokens at h
    split at h
    next e' hf => cases h; exact parseToken_error hf
    · split at h
      next e' hfs => cases h; exact ih hfs
      · cases h

theorem parseOptToken_error {tok : Option TokenField} (h : parseOptToken tok = .error e) : e = .malformedInput := by
  cases tok with
  | none => cases h
  | some f => exact parseToken_error (error_of_map_eq_error h)

theorem binaryString_error {chars : List Byte} (h : binaryString chars = .error e) : e = .malformedInput := by
  induction chars with
  | nil => cases h
  | cons c cs ih =>
    unfold binaryString at h
    split at h
    · exact ih (error_of_map_eq_error h)
    · cases h; rfl

theorem groupFromBinary_error {w : Nat} {chars : List Byte} (h : groupFromBinary w chars = .error e) :
    e = .malformedInput := by
  unfold groupFromBinary at h
  split at h
  · exact binaryString_error (error_of_map_eq_error h)
  · cases h; rfl

theorem group8FromString_error {chars : List Byte} (h : group8FromString chars = .error e) : e = .malformedInput := by
  unfold group8FromString at h
  split at h
  · cases h
  · exact groupFromBinary_error h

theorem groupFromArray_error {w : Nat} {elems : List BitLike} (h : groupFromArray w elems = .error e) :
    e = .malformedInput := by
  unfold groupFromArray at h
  split at h <;> cases h
  rfl

/-! ## Lists that exceed a capacity (R226) -/

/-- The error is `CapacityError`, and some open capacity is bounded. -/
def Exceeds (c : Config) (e : ErrCode) : Prop := e = .capacity ∧ unbounded c = false

theorem fits_of_unbounded {c : Config} {cap : Option Nat} (h : unbounded c = true)
    (hcap : cap ∈ [c.maxTokens, c.maxRpt, c.maxFrames, c.maxEntries, c.maxHist, c.maxDecTicks]) (len : Nat) :
    fits cap len = true := by
  have hnone : cap = none := by
    simp only [unbounded, Bool.and_eq_true, Option.isNone_iff_eq_none] at h
    obtain ⟨⟨⟨⟨⟨htokens, hrpt⟩, hframes⟩, hentries⟩, hhist⟩, hticks⟩ := h
    simpa [htokens, hrpt, hframes, hentries, hhist, hticks] using hcap
  rw [hnone]
  rfl

theorem sessionFits_of_unbounded {s : State} (h : unbounded s.cfg = true) : sessionFits s = true := by
  simp [sessionFits, fits_of_unbounded h]

/-- Every capacity check answers its value or `CapacityError`, and passes where nothing is bounded. -/
theorem exceeds_of_check {c : Config} {α : Type} {p : Prop} [Decidable p] {x : α} (hpass : unbounded c = true → p)
    (h : (if p then .ok x else .error .capacity) = Except.error e) : Exceeds c e := by
  split at h
  next => cases h
  next hfail => cases h; exact ⟨rfl, Bool.eq_false_iff.2 (mt hpass hfail)⟩

theorem shapeTokens_error {c : Config} {toks : List TokenField} (h : shapeTokens c toks = .error e) :
    e = .malformedInput ∨ Exceeds c e := by
  rcases error_of_bind_eq_error h with hparse | ⟨ts, -, hcheck⟩
  · exact .inl (parseTokens_error hparse)
  · exact .inr (exceeds_of_check (fun hun => fits_of_unbounded hun (by simp) _) hcheck)

theorem addRepeat_error {s : State} {r : RepeatEntry} (h : addRepeat s r = .error e) : Exceeds s.cfg e :=
  exceeds_of_check (fun hun => fits_of_unbounded hun (by simp) _) h

theorem checkInput_error {c : Config} {ks : List Half} (h : checkInput c ks = .error e) : Exceeds c e :=
  exceeds_of_check (fun hun => fits_of_unbounded hun (by simp) _) h

theorem checkSession_error {w : Work} (h : checkSession w = .error e) : Exceeds w.state.cfg e :=
  exceeds_of_check sessionFits_of_unbounded h

/-! ## Frames, bits and repeats (R142, R148, R155) -/

theorem curOpen_error {s : State} (h : curOpen s = .error e) : e = .frameClosed := by
  obtain ⟨rfl, -⟩ := (curOpen_eq_error s e).1 h
  rfl

theorem bitsWork_error {bits : List Bool} {s : State} (h : bitsWork bits s = .error e) :
    e = .frameClosed ∨ Exceeds s.cfg e := by
  rcases error_of_bind_eq_error h with hsteps | ⟨w, hw, hcheck⟩
  · cases hcur : curOpen s with
    | ok f =>
      rw [appendBitSteps_of_open bits (silent s) f ((curOpen_eq_ok s f).1 hcur)] at hsteps
      cases hsteps
    | error e' =>
      rw [appendBitSteps_of_noOpen bits (silent s) ((curOpen_eq_error s e').1 hcur).2] at hsteps
      split at hsteps <;> cases hsteps
      exact .inl rfl
  · have hcfg : w.state.cfg = s.cfg := (appendBitSteps_keepsOuter bits _ w hw).1.cfg
    exact .inr (hcfg ▸ checkSession_error hcheck)

theorem repeatStep_error {w : Work} (h : repeatStep w = .error e) : e = .noRepeatConfigured ∨ Exceeds w.state.cfg e := by
  by_cases hrpt : w.state.aspec.rpt = []
  · rw [repeatStep_none w hrpt] at h
    cases h
    exact .inl rfl
  · rw [repeatStep_some w hrpt] at h
    exact .inr (exceeds_of_check (fun hun => fits_of_unbounded hun (by simp) _) h)

theorem repeatSteps_error {n : Nat} {w : Work} (h : repeatSteps n w = .error e) :
    e = .noRepeatConfigured ∨ Exceeds w.state.cfg e := by
  induction n with
  | zero => cases h
  | succ n ih =>
    rw [repeatSteps_succ] at h
    rcases error_of_bind_eq_error h with hsteps | ⟨v, hv, hstep⟩
    · exact ih hsteps
    · have hcfg : v.state.cfg = w.state.cfg := (repeatSteps_keepsOuter n w v hv).1.cfg
      exact hcfg ▸ repeatStep_error hstep

theorem repeatsWork_error {n : Nat} {s : State} (h : repeatsWork n s = .error e) :
    e = .noRepeatConfigured ∨ Exceeds s.cfg e := by
  rcases error_of_bind_eq_error h with hsteps | ⟨w, hw, hcheck⟩
  · exact repeatSteps_error hsteps
  · have hcfg : w.state.cfg = s.cfg := (repeatSteps_keepsOuter n _ w hw).1.cfg
    exact .inr (hcfg ▸ checkSession_error hcheck)

/-! ## Tick arrays (R186, R194) -/

theorem classifyWords_error {d : List Rat} (h : classifyWords d = .error e) : e = .unknownProtocol := by
  unfold classifyWords at h
  split at h <;> cases h
  rfl

theorem decodeFamily_error {c : Config} {f : Family} {t : Rat} {d : List Rat} (h : decodeFamily c f t d = .error e) :
    e = .notImplemented := by
  cases f with
  | nec | aeha => cases h
  | sony => cases h; rfl
  | irisOyama =>
    simp only [decodeFamily] at h
    split at h <;> cases h
    rfl

theorem decodeGuess_error {c : Config} {d : List Rat} (h : decodeGuess c d = .error e) : e = .notImplemented := by
  unfold decodeGuess at h
  split at h
  · cases h
  · exact decodeFamily_error (error_of_map_eq_error h)

end

/-! ## The errors of the commands -/

/-- The table of R220 lists the error for the opcode, and `CapacityError` comes from a bounded capacity. -/
structure Permitted (o : Opcode) (c : Config) (e : ErrCode) : Prop where
  listed : mayRaise e o = true
  bounded : e = .capacity → unbounded c = false

theorem Exceeds.permitted {c : Config} {e : ErrCode} {o : Opcode} (h : Exceeds c e) (ho : mayRaise .capacity o = true) :
    Permitted o c e := by
  obtain ⟨rfl, hbounded⟩ := h
  exact ⟨ho, fun _ => hbounded⟩

theorem commandWork_error {i : Instr} {s : State} {e : ErrCode} (h : commandWork i s = .error e) :
    Permitted i.opcode s.cfg e := by
  cases i with
  | rdStatus | obsCtrl | rdHist | bitFrom | g4FromInt | g8FromInt | toBits4 | toBits8 | reverse4 | reverse8 | flip4 | flip8
  | pack4 | pack8 | specClear | specT | specFrame | toTicks | toWire =>
    cases h
  | g4FromStr => cases groupFromBinary_error (error_of_map_eq_error h); exact ⟨rfl, nofun⟩
  | g8FromStr => cases group8FromString_error (error_of_map_eq_error h); exact ⟨rfl, nofun⟩
  | g4FromArr | g8FromArr => cases groupFromArray_error (error_of_map_eq_error h); exact ⟨rfl, nofun⟩
  | specStop => cases parseOptToken_error (error_of_map_eq_error h); exact ⟨rfl, nofun⟩
  | specLeader | specBit1 | specBit0 =>
    rcases shapeTokens_error (error_of_map_eq_error h) with rfl | hfull
    · exact ⟨rfl, nofun⟩
    · exact hfull.permitted rfl
  | specRpt =>
    rcases error_of_bind_eq_error h with htoks | ⟨ts, -, hadd⟩
    · rcases shapeTokens_error htoks with rfl | hfull
      · exact ⟨rfl, nofun⟩
      · exact hfull.permitted rfl
    · exact (addRepeat_error hadd).permitted rfl
  | begin => exact (checkSession_error h).permitted rfl
  | appendTime =>
    rcases error_of_bind_eq_error h with htoks | ⟨ts, -, hbuild⟩
    · cases parseTokens_error htoks; exact ⟨rfl, nofun⟩
    · rcases error_of_bind_eq_error hbuild with hcur | ⟨f, -, hcheck⟩
      · cases curOpen_error hcur; exact ⟨rfl, nofun⟩
      · exact (checkSession_error hcheck).permitted rfl
  | appendBit | appendBits | appendG4 | appendG8 =>
    rcases bitsWork_error h with rfl | hfull
    · exact ⟨rfl, nofun⟩
    · exact hfull.permitted rfl
  | terminate =>
    rcases error_of_bind_eq_error h with hcur | ⟨f, -, hcheck⟩
    · cases curOpen_error hcur; exact ⟨rfl, nofun⟩
    · exact (checkSession_error hcheck).permitted rfl
  | beginRepeat | appendRepeats =>
    rcases repeatsWork_error h with rfl | hfull
    · exact ⟨rfl, nofun⟩
    · exact hfull.permitted rfl
  | classify =>
    rcases error_of_bind_eq_error h with hinput | ⟨d, -, hwords⟩
    · exact (checkInput_error hinput).permitted rfl
    · cases classifyWords_error (error_of_map_eq_error hwords); exact ⟨rfl, nofun⟩
  | decode =>
    rcases error_of_bind_eq_error h with hinput | ⟨d, -, hguess⟩
    · exact (checkInput_error hinput).permitted rfl
    · cases decodeGuess_error (error_of_map_eq_error hguess); exact ⟨rfl, nofun⟩

end Sys2Proof.Proofs
end

section
/-! PROOFS. The error a command answers (R220, R226): that of its work, or `CapacityError` for a payload above `MAX_RSP_WORDS`. -/

namespace Sys2Proof.Proofs
open Sys2Proof.Machine

/-! ## The payloads of the commands (R75) -/

theorem bitListPayload_length (bits : List Bool) : (bitListPayload bits).length = 1 + (bits.length + 31) / 32 := by
  rw [bitListPayload, List.length_cons, packBits_length, packedWords, Nat.add_comm]

theorem tickWords_length (ticks : List Nat) : (tickWords ticks).length = ticks.length := List.length_map _

theorem guessWords_length (g : Guess) : (guessWords g).length = 2 + (g.frames.flatMap frameWords).length := by
  rw [guessWords, List.length_cons, List.length_cons]
  exact Nat.add_comm _ 2

theorem payload_of_checkSession {v w : Work} (h : checkSession v = .ok w) : w.payload = v.payload := by
  obtain ⟨rfl, -⟩ := (checkSession_ok v w).1 h
  rfl

theorem bitsWork_payload {bits : List Bool} {s : State} {w : Work} (h : bitsWork bits s = .ok w) : w.payload = [] := by
  obtain ⟨v, hsteps, hcheck⟩ := ok_of_bind_eq_ok h
  exact (payload_of_checkSession hcheck).trans (appendBitSteps_keepsOuter bits _ v hsteps).2

theorem repeatsWork_payload {n : Nat} {s : State} {w : Work} (h : repeatsWork n s = .ok w) : w.payload = [] := by
  obtain ⟨v, hsteps, hcheck⟩ := ok_of_bind_eq_ok h
  exact (payload_of_checkSession hcheck).trans (repeatSteps_keepsOuter n _ v hsteps).2

theorem payload_length_le_of_nil {w : Work} (h : w.payload = []) : w.payload.length ≤ maxRspWords := by
  rw [h]
  exact Nat.zero_le _

/-- The commands whose payload has no bound below `MAX_RSP_WORDS` (R220). -/
def unboundedPayload : List Opcode := [.rdHist, .toTicks, .toWire, .decode]

theorem payload_length_le {i : Instr} {s : State} {w : Work} (hwf : i.opcode ≠ .decode → wellFormed i = true)
    (hi : i.opcode ∉ unboundedPayload) (h : commandWork i s = .ok w) : w.payload.length ≤ maxRspWords := by
  cases i with
  | rdHist | toTicks | toWire | decode => exact absurd (by simp [Instr.opcode, unboundedPayload]) hi
  | rdStatus | bitFrom | g4FromInt | g8FromInt | reverse4 | reverse8 | flip4 | flip8 =>
    cases h
    simp [groupReply, statusWords, maxRspWords]
  | g4FromStr | g4FromArr | g8FromStr | g8FromArr =>
    obtain ⟨g, -, rfl⟩ := ok_of_map_eq_ok h
    simp [groupReply, maxRspWords]
  | toBits4 | toBits8 =>
    cases h
    rw [emit_payload, bitListPayload_length, bitsOf_length]
    decide
  | pack4 bits | pack8 bits =>
    cases h
    exact packGroups_length_le (by decide) bits (of_decide_eq_true (hwf nofun))
  | obsCtrl => cases h; exact Nat.zero_le _
  | specClear | specT | specFrame | specStop | specLeader | specBit1 | specBit0 | specRpt =>
    obtain ⟨p, rfl⟩ := commandWork_of_isSpecCommand rfl h
    exact Nat.zero_le _
  | begin => exact payload_length_le_of_nil (payload_of_checkSession h)
  | appendTime =>
    obtain ⟨ts, -, hbuild⟩ := ok_of_bind_eq_ok h
    obtain ⟨f, -, hcheck⟩ := ok_of_bind_eq_ok hbuild
    exact payload_length_le_of_nil (payload_of_checkSession hcheck)
  | terminate =>
    obtain ⟨f, -, hcheck⟩ := ok_of_bind_eq_ok h
    exact payload_length_le_of_nil (payload_of_checkSession hcheck)
  | appendBit | appendBits | appendG4 | appendG8 => exact payload_length_le_of_nil (bitsWork_payload h)
  | beginRepeat | appendRepeats => exact payload_length_le_of_nil (repeatsWork_payload h)
  | classify =>
    obtain ⟨d, -, hd⟩ := ok_of_bind_eq_ok h
    obtain ⟨ws, hws, rfl⟩ := ok_of_map_eq_ok hd
    unfold classifyWords at hws
    split at hws <;> cases hws
    simp [maxRspWords]

/-! ## The error of a response -/

/-- The work of the command succeeds with a payload that no response holds (R226). -/
def LongPayload (i : Instr) (s : State) : Prop := ∃ w, commandWork i s = .ok w ∧ maxRspWords < w.payload.length

/-- The error a command raises from `s`: that of its work, or else `CapacityError` for a long payload (R81). -/
def raised (i : Instr) (s : State) : Option ErrCode :=
  match commandWork i s with
  | .error e => some e
  | .ok w => if maxRspWords < w.payload.length then some .capacity else none

theorem raised_eq_some_iff {i : Instr} {s : State} {e : ErrCode} :
    raised i s = some e ↔ commandWork i s = .error e ∨ e = .capacity ∧ LongPayload i s := by
  unfold raised
  cases hw : commandWork i s with
  | error e' => simp [LongPayload, hw]
  | ok w => simp [LongPayload, hw, eq_comm, and_comm]

/-- A response carries the code of the error raised, and 0 without one (R74, R228). -/
theorem responseErr_of_exec {i : Instr} {s t : State} {r : Packet} (hexec : exec i s = .next t) (hrsp : t.rsp = s.rsp ++ [r]) :
    responseErr r = (raised i s).elim 0 errNumber := by
  have hresponse {q : Packet} (hq : t.rsp = s.rsp ++ [q]) : r = q :=
    List.singleton_inj.1 (List.append_cancel_left (hrsp.symm.trans hq))
  rw [exec_eq_finish] at hexec
  unfold raised
  cases hw : commandWork i s with
  | error e =>
    rw [hw, finish_error] at hexec
    cases hexec
    rw [hresponse (raiseError_rsp _ _ _), responseErr_respHeader]
    rfl
  | ok w =>
    rw [hw] at hexec
    by_cases hlong : maxRspWords < w.payload.length
    · rw [finish_too_long _ _ _ hlong] at hexec
      cases hexec
      rw [hresponse (raiseError_rsp _ _ _), responseErr_respHeader]
      simp [hlong]
    · rw [finish_ok _ _ _ (Nat.not_lt.1 hlong)] at hexec
      cases hexec
      rw [hresponse ((commandWork_keepsOuter i s w hw).rsp ▸ reply_rsp _ w), responseErr_respHeader]
      simp [hlong]

theorem opcode_of_longPayload {i : Instr} {s : State} (hwf : i.opcode ≠ .decode → wellFormed i = true)
    (h : LongPayload i s) : i.opcode ∈ unboundedPayload := by
  obtain ⟨w, hw, hlong⟩ := h
  by_contra hi
  exact Nat.not_le.2 hlong (payload_length_le hwf hi hw)

theorem mayRaise_of_raised {i : Instr} {s : State} {e : ErrCode} (hwf : wellFormed i = true) (h : raised i s = some e) :
    mayRaise e i.opcode = true := by
  have hlisted : ∀ o ∈ unboundedPayload, mayRaise .capacity o = true := by decide
  rcases raised_eq_some_iff.1 h with hwork | ⟨rfl, hlong⟩
  · exact (commandWork_error hwork).listed
  · exact hlisted _ (opcode_of_longPayload (fun _ => hwf) hlong)

/-- Settles O12: the error of the response is that of the command's work or of its long payload, and R220 lists both. -/
theorem errorsComeFromTheirCommands : Obligations.ErrorsComeFromTheirCommands := by
  unfold Obligations.ErrorsComeFromTheirCommands
  intro i s t r hwf hexec hrsp herr
  rw [responseErr_of_exec hexec hrsp] at herr ⊢
  cases hraised : raised i s with
  | none => rw [hraised] at herr; exact absurd rfl herr
  | some e => exact ⟨e, rfl, mayRaise_of_raised hwf hraised⟩

/-! ## CapacityError without bounds (R226) -/

theorem elim_errNumber_eq_seven_iff (e : Option ErrCode) : e.elim 0 errNumber = 7 ↔ e = some .capacity := by
  cases e with
  | none => decide
  | some e => cases e <;> decide

theorem raised_capacity_iff_of_unbounded {i : Instr} {s : State} (hun : unbounded s.cfg = true) :
    raised i s = some .capacity ↔ LongPayload i s := by
  have hwork : commandWork i s ≠ .error .capacity := fun h =>
    Bool.false_ne_true (((commandWork_error h).bounded rfl).symm.trans hun)
  rw [raised_eq_some_iff, or_iff_right hwork, and_iff_right rfl]

/-! ## The four commands with a long payload -/

theorem longPayload_iff_of_emit {i : Instr} {s : State} {d : BitVec 3} {ws : List Word}
    (h : commandWork i s = .ok (emit s d ws)) : LongPayload i s ↔ 65535 < ws.length := by
  refine ⟨?_, fun hlong => ⟨_, h, hlong⟩⟩
  rintro ⟨w, hw, hlong⟩
  cases h.symm.trans hw
  exact hlong

theorem longPayload_rdHist (s : State) : LongPayload .rdHist s ↔ 65535 < 1 + (s.hist.length + 31) / 32 := by
  rw [longPayload_iff_of_emit (i := .rdHist) rfl, bitListPayload_length]

theorem longPayload_toTicks (s : State) : LongPayload .toTicks s ↔ 65535 < (flatten s.frames).length := by
  rw [longPayload_iff_of_emit (i := .toTicks) rfl, tickWords_length]

theorem longPayload_toWire (s : State) : LongPayload .toWire s ↔ 65535 < 1 + (flatten s.frames).length := by
  rw [longPayload_iff_of_emit (i := .toWire) rfl, List.length_cons, tickWords_length, Nat.add_comm]

theorem longPayload_decode {ks : List Half} {s : State} (hfit : fits s.cfg.maxDecTicks ks.length = true) :
    LongPayload (.decode ks) s ↔
      ∃ g, decodeGuess s.cfg (durations ks) = .ok g ∧ 65535 < 2 + (g.frames.flatMap frameWords).length := by
  have hwork := commandWork_decode_of_fits hfit
  constructor
  · rintro ⟨w, hw, hlong⟩
    obtain ⟨g, hg, rfl⟩ := ok_of_map_eq_ok (hwork.symm.trans hw)
    exact ⟨g, hg, guessWords_length g ▸ hlong⟩
  · rintro ⟨g, hg, hlong⟩
    rw [hg] at hwork
    exact (longPayload_iff_of_emit hwork).2 (guessWords_length g ▸ hlong)

/-- Settles O13: without a bounded capacity only a long payload is left to raise `CapacityError`. -/
theorem capacityOnlyFromALongPayload : Obligations.CapacityOnlyFromALongPayload := by
  unfold Obligations.CapacityOnlyFromALongPayload
  intro i s t r hun hwf hexec hrsp
  rw [responseErr_of_exec hexec hrsp, elim_errNumber_eq_seven_iff, raised_capacity_iff_of_unbounded hun]
  cases i with
  | rdHist => simp [longPayload_rdHist]
  | toTicks => simp [longPayload_toTicks]
  | toWire => simp [longPayload_toWire]
  | decode ks =>
    have hfit : fits s.cfg.maxDecTicks ks.length = true := fits_of_unbounded hun (by simp) _
    simp [longPayload_decode hfit, durations_eq_map]
  | _ =>
    have hshort := mt (opcode_of_longPayload (s := s) hwf) (by simp [Instr.opcode, unboundedPayload])
    simp [hshort]

end Sys2Proof.Proofs
end
